-- ==== Sys2Proof/Word.lean ====
section
/-! DEFINITION. The word types of QRFV-PS (00_scope.md R10, R11; 10_state.md R22). -/

namespace Sys2Proof

/-- A 32-bit bus word: a register of the window or a command word (R10 `REG_W`). -/
abbrev Word := BitVec 32

/-- A byte offset inside the 256-byte register window (20_memory.md R60). -/
abbrev Offset := BitVec 8

/-- A row or column index of the matrix port, 0 to 255 (R10 `COORD_W`, 20_memory.md R63). -/
abbrev Coord := BitVec 8

end Sys2Proof
end

