-- ==== Sys2Proof/Syntax.lean ====
section
/-! DEFINITION. The commands of QRFV-PS as syntax: one constructor per row of spec/opcode_table.json
(30_encoding.md R84). Every command has the one format CW (R80), so every constructor carries the same four operand
fields. -/

namespace Sys2Proof

/-- The operand fields of a command word (30_encoding.md R80). The numbers are kept also when `load` is false, where
the block ignores them and they may hold any value (R82): no bit of a word is lost. -/
structure Operands where
  /-- L: load VERSION, MASK and FMT_ID before executing -/
  load : Bool
  /-- V: the version to load -/
  v : Nat
  /-- M: the mask id to load -/
  m : Nat
  /-- F: the format id to load -/
  f : Nat
deriving DecidableEq, Repr

/-- 30_encoding.md R86: `MNEMONIC`, with L = 0. -/
def Operands.plain : Operands := ⟨false, 0, 0, 0⟩

/-- 30_encoding.md R86: `MNEMONIC.ld v, m, f`, with L = 1. -/
def Operands.ld (v m f : Nat) : Operands := ⟨true, v, m, f⟩

/-- The nine commands (30_encoding.md R84). -/
inductive Instr where
  | nop (o : Operands)      -- 42_control.md R180
  | fcalc (o : Operands)    -- 40_format_version.md R120
  | fcalcm (o : Operands)   -- R121
  | vcalc (o : Operands)    -- R122
  | fwrite (o : Operands)   -- R123
  | vwrite (o : Operands)   -- R124
  | encfv (o : Operands)    -- R125
  | score (o : Operands)    -- 41_penalty.md R150
  | bestclr (o : Operands)  -- R155
deriving DecidableEq, Repr

/-- The operand fields of a command. -/
def Instr.operands : Instr → Operands
  | .nop o => o
  | .fcalc o => o
  | .fcalcm o => o
  | .vcalc o => o
  | .fwrite o => o
  | .vwrite o => o
  | .encfv o => o
  | .score o => o
  | .bestclr o => o

end Sys2Proof
end

