-- ==== Sys2Proof/WellFormed.lean ====
section
/-! DEFINITION. When a command can be written as a command word: each operand fits its field (30_encoding.md R86:
"numbers that fit V (0..63), M (0..7) and F (0..31). An assembler rejects a value that does not fit"). -/

namespace Sys2Proof

/-- R86: V fits 6 bits, M 3 bits, F 5 bits. -/
def Operands.wf (o : Operands) : Bool :=
  decide (o.v ≤ 63) && decide (o.m ≤ 7) && decide (o.f ≤ 31)

/-- A command is well formed when its operands fit their fields. -/
def Instr.wf (i : Instr) : Bool := i.operands.wf

end Sys2Proof
end

