-- ==== Sys2Proof/Decode.lean ====
section
/-! DEFINITION. Command words: decoding (30_encoding.md R80 to R85) and, after it, encoding (R86). -/

namespace Sys2Proof

/-- 00_scope.md R11: `w[hi:lo]`, bits hi down to lo as an unsigned number. -/
def bits (w : Word) (hi lo : Nat) : Nat := w.toNat / 2 ^ lo % 2 ^ (hi + 1 - lo)

/-- Why bytes or a word are no command. -/
inductive DecodeError where
  /-- a reserved bit of the word is set (R83) -/
  | reservedBits
  /-- OP is 9 to 15 (R85) -/
  | reservedOpcode
  /-- a command is exactly one 32-bit word, four bytes (R80) -/
  | notFourBytes
deriving DecidableEq, Repr

/-- R80: the operand fields L, V, M, F of a word. -/
def wordOperands (w : Word) : Operands :=
  { load := bits w 31 31 == 1, v := bits w 13 8, m := bits w 18 16, f := bits w 28 24 }

/-- R83: RSV0, RSV1, RSV2 and RSV3 are all zero. -/
def reservedClear (w : Word) : Bool :=
  bits w 7 4 == 0 && bits w 15 14 == 0 && bits w 23 19 == 0 && bits w 30 29 == 0

/-- R81, R84: the command that OP names. -/
def opcodeInstr (op : Nat) (o : Operands) : Option Instr :=
  match op with
  | 0 => some (.nop o)
  | 1 => some (.fcalc o)
  | 2 => some (.fcalcm o)
  | 3 => some (.vcalc o)
  | 4 => some (.fwrite o)
  | 5 => some (.vwrite o)
  | 6 => some (.encfv o)
  | 7 => some (.score o)
  | 8 => some (.bestclr o)
  | _ => none

/-- The command a 32-bit word stands for, or why it stands for none. -/
def decodeWord (w : Word) : Except DecodeError Instr :=
  if reservedClear w then
    match opcodeInstr (bits w 3 0) (wordOperands w) with
    | some i => .ok i
    | none => .error .reservedOpcode
  else .error .reservedBits

/-- 20_memory.md R62: byte k of the bus word carries bits [8k+7 : 8k]. -/
def wordOfBytes (b0 b1 b2 b3 : BitVec 8) : Word := b3 ++ b2 ++ b1 ++ b0

/-- Decoding is total on any bytes: exactly four of them make a command word. -/
def decodeBytes : List (BitVec 8) → Except DecodeError Instr
  | [b0, b1, b2, b3] => decodeWord (wordOfBytes b0 b1 b2 b3)
  | _ => .error .notFourBytes

/-- R84: the OP of a command. -/
def Instr.opcode : Instr → Nat
  | .nop _ => 0
  | .fcalc _ => 1
  | .fcalcm _ => 2
  | .vcalc _ => 3
  | .fwrite _ => 4
  | .vwrite _ => 5
  | .encfv _ => 6
  | .score _ => 7
  | .bestclr _ => 8

/-- R86: `(L << 31) | (f << 24) | (m << 16) | (v << 8) | OP`. The fields of a well-formed command do not overlap, so
the sum is the bitwise OR. -/
def encodeNat (o : Operands) (op : Nat) : Nat :=
  (if o.load then 2 ^ 31 else 0) + o.f * 2 ^ 24 + o.m * 2 ^ 16 + o.v * 2 ^ 8 + op

/-- The command word of a command (R80, R86). -/
def encode (i : Instr) : Word := BitVec.ofNat 32 (encodeNat i.operands i.opcode)

/-- 20_memory.md R62: the bytes of a word, the lowest address first. -/
def bytesOfWord (w : Word) : List (BitVec 8) :=
  [w.extractLsb' 0 8, w.extractLsb' 8 8, w.extractLsb' 16 8, w.extractLsb' 24 8]

/-- What the decoder reads from the word the opcode table numbers as `w`; `nbits` is 32 for every row (R80: there are
no other lengths), and a number that does not fit those bits is no word. -/
def decodeTableWord (nbits w : Nat) : Option Instr :=
  if w < 2 ^ nbits ∧ w < 2 ^ 32 then (decodeBytes (bytesOfWord (BitVec.ofNat 32 w))).toOption else none

end Sys2Proof
end

