-- ==== Sys2Proof/Config.lean ====
section
/-! DEFINITION. What an implementation or the platform fixes (00_scope.md R5 to R10, 10_state.md R44,
92_eei_decisions.md "OPEN parameters"). A parameter the spec gives a value is a plain constant. One it gives a
default is a field of `Params`. One it leaves OPEN and that some rule reads is an opaque constant: nothing can be proved
of its value. The OPEN parameters that no rule reads
(`QRFV_RST`, `QRFV_IRQ_LINE`, `LAT_<cmd>`) have no constant here: notes/assumptions/18.md. -/

namespace Sys2Proof.Config

/-- R5: the lowest legal QR version. -/
def vMin : Nat := 1

/-- R5: the highest legal QR version. -/
def vMax : Nat := 40

/-- R6: the parameters a machine is given, each with its default: the format generator `G15`. The default is UNVERIFIED,
unsafe: the spec marks the value as general knowledge (93_implementation_defined.md G1); notes/assumptions/11.md. -/
structure Params where
  g15 : BitVec 11 := 0x537
deriving DecidableEq, Repr

/-- R6: "Bit 10 of `G15` must be 1". -/
def Params.legal (p : Params) : Bool := p.g15.getLsbD 10

/-- R7: the constant XORed into every format word. -/
def fmtXor : BitVec 15 := 0x5412

/-- R8: the version generator `G18`. -/
def g18 : BitVec 13 := 0x1F25

/-- R9: the error-correction level field of a format word built from a mask id. -/
def ecl : BitVec 2 := 0b01

/-- 10_state.md R24: what ID reads. -/
def idWord : Word := 0x51524656

/-- 10_state.md R28: `RULE3_MODE1_IMPL`, whether the block implements RULE3_MODE = 1. OPEN: no value is known
(notes/assumptions/10.md). -/
opaque rule3Mode1Impl : Bool

/-- Which 256-byte page of the platform's address space holds the window. OPEN (notes/assumptions/9.md). -/
opaque windowPage : Nat

/-- 20_memory.md R60: `QRFV_BASE`, a multiple of 256. -/
def qrfvBase : Nat := 256 * windowPage

end Sys2Proof.Config
end

