-- ==== Sys2Proof/Machine/State.lean ====
section
/-! DEFINITION. Everything the spec gives the machine to hold (10_state.md, 20_memory.md), as plain data, the reasons a
step can stop, and the state after reset. -/

namespace Sys2Proof.Machine

/-- 20_memory.md R64: the kind of a matrix cell, 0b00 to 0b11 in this order. -/
inductive CellKind where
  | unset | functional | data | reserved
deriving DecidableEq, Repr

/-- 20_memory.md R64: a cell of the matrix; `color` true is dark. -/
structure CellRec where
  color : Bool
  kind : CellKind
deriving DecidableEq, Repr

/-- One cell write of the matrix port (20_memory.md R65). -/
structure CellWrite where
  row : Nat
  col : Nat
  cell : CellRec
deriving DecidableEq, Repr

/-- The matrix memory (20_memory.md R63): address and byte pairs, addresses strictly rising, no pair that an unlisted
address reads as. The address is 256·row + col and the byte holds the cell's three port bits
(notes/assumptions/4.md). -/
abbrev Memory := List Host.Cell

/-- 60_exceptions.md R201: the ERRCODE values. The reserved codes 6 to 15 are never produced. -/
inductive ErrorCode where
  | none | illegalCmd | badVersion | busyCmd | noVerWord | busyWrite
deriving DecidableEq, Repr

/-- 10_state.md R28: the two values RULE3_MODE can hold (0 and 1; notes/assumptions/17.md). -/
inductive Rule3Mode where
  | omitted | patterns
deriving DecidableEq, Repr

/-- 10_state.md R40: what the sequencer latches at acceptance. The command word is held as the command it decodes to,
which determines the word (notes/assumptions/19.md). -/
structure Latched where
  command : Instr
  version : BitVec 6
  mask : BitVec 3
  fmtId : BitVec 5
  rule3Mode : Rule3Mode
deriving DecidableEq, Repr

/-- 10_state.md R40: the sequencer. -/
inductive Sequencer where
  | idle
  | run (l : Latched)
deriving DecidableEq, Repr

/-- 10_state.md R41: the scan state of one line: its open run (`len` 0: no module seen yet) and its window of at most 11
modules, newest first. -/
structure LineScan where
  color : Bool
  len : Nat
  window : List Bool
deriving DecidableEq, Repr

/-- 10_state.md R41: the PSC's hidden working state (notes/assumptions/13.md). `recent` is the line buffer for the 2×2
windows: the last N + 1 colors in scan order, newest first, that is the previous row's colors from the column before the
present one on and the present row's so far. -/
structure PscWork where
  row : Nat
  col : Nat
  rowLine : LineScan
  colLines : List LineScan
  recent : List Bool
  sum1 : Nat
  sum2 : Nat
  sum3 : Nat
  sum4 : Nat
  dark : Nat
deriving DecidableEq, Repr

/-- Whose move it is, and which (10_state.md R20; notes/assumptions/1.md). The host's accesses and the reset input come
from outside; the block's own moves stand in the same list, so that one list fixes one interleaving. -/
inductive Turn where
  /-- `MemWrite(addr, size, value)` (20_memory.md R61); the value counts only when size is 4 -/
  | hostWrite (addr : Nat) (size : Nat) (value : Word)
  /-- `MemRead(addr, size)` (20_memory.md R61) -/
  | hostRead (addr : Nat) (size : Nat)
  /-- the host writes a cell of the matrix memory (10_state.md R20) -/
  | hostCellWrite (row col : Coord) (cell : CellRec)
  /-- the host reads a cell of the matrix memory (10_state.md R20) -/
  | hostCellRead (row col : Coord)
  /-- the reset input is asserted and released (70_reset_and_hazards.md R230) -/
  | hardwareReset
  /-- the running command makes one access of the matrix: its k-th cell write, or its next cell read
  (10_state.md R40) -/
  | blockAccess (k : Nat)
  /-- the running command completes (10_state.md R40) -/
  | blockCompletes
  /-- the running command writes FMT_ID, when it is one that does (40_format_version.md R121, R125;
  notes/assumptions/23.md) -/
  | blockWritesFmtId
  /-- `wait` of 30_encoding.md R87: the host reads STATUS until BUSY = 0 (notes/assumptions/26.md) -/
  | hostWait
  /-- a command as one atomic step (10_state.md R40): a CMD write and, when it is accepted, the command's completion
  before anything else happens (notes/assumptions/2.md) -/
  | command (w : Word)
deriving DecidableEq, Repr

/-- What the host's last access gave back (the model's own; notes/assumptions/14.md). -/
inductive Reply where
  /-- no access yet -/
  | none
  /-- a write was taken -/
  | ack
  /-- the 32 bits of a register read -/
  | data (w : Word)
  /-- the record of a cell read -/
  | cell (c : CellRec)
  /-- 20_memory.md R61: a bus error at the host -/
  | busError
  /-- the address lies outside the block's window (20_memory.md R60) -/
  | outsideWindow
deriving DecidableEq, Repr

/-- Why the machine stops. -/
inductive Fault where
  /-- 20_memory.md R69, 93_implementation_defined.md U3: the host touched a cell that the running command owns. Raised
  by the host's cell accesses. Safe: the spec claims no end state for it. -/
  | matrixRace (row col : Coord)
deriving DecidableEq, Repr

/-- Why an instruction has no meaning. -/
inductive Refusal where
  /-- Raised by exec's arm of an instruction that is not modelled. Safe. No arm raises it. -/
  | notModelled (mnemonic : String)
deriving DecidableEq, Repr

/-- The machine (10_state.md R22, R26, R28 to R33, R36, R40, R41, R43). -/
structure State where
  /-- STATUS.DONE (R26) -/
  done : Bool
  /-- STATUS.ERR (R26) -/
  err : Bool
  /-- STATUS.ERRCODE (R26) -/
  errCode : ErrorCode
  /-- STATUS.VER_VALID (R26, R29) -/
  verValid : Bool
  /-- STATUS.BEST_VALID (R26, R33) -/
  bestValid : Bool
  /-- CTRL.IRQ_EN (R28) -/
  irqEn : Bool
  /-- CTRL.RULE3_MODE (R28) -/
  rule3Mode : Rule3Mode
  /-- VERSION (R29) -/
  version : BitVec 6
  /-- MASK (R30) -/
  mask : BitVec 3
  /-- FMT_ID (R31) -/
  fmtId : BitVec 5
  /-- FMT_WORD (R33) -/
  fmtWord : BitVec 15
  /-- VER_WORD (R33) -/
  verWord : BitVec 18
  /-- PEN_TOTAL (R33) -/
  penTotal : Word
  /-- PEN_R1 (R33) -/
  penR1 : Word
  /-- PEN_R2 (R33) -/
  penR2 : Word
  /-- PEN_R3 (R33) -/
  penR3 : Word
  /-- PEN_R4 (R33) -/
  penR4 : Word
  /-- DARK_COUNT (R33) -/
  darkCount : BitVec 15
  /-- BEST_PENALTY (R33) -/
  bestPenalty : Word
  /-- BEST_MASK (R33) -/
  bestMask : BitVec 3
  /-- ERR_INFO (R36) -/
  errInfo : Word
  /-- the sequencer, and with it STATUS.BUSY (R40) -/
  seq : Sequencer
  /-- the PSC's hidden working state (R41) -/
  psc : PscWork
  /-- the matrix memory (R43) -/
  mem : Memory
  /-- the parameters this machine was given (R44: no state of the block; no step and no reset changes them;
  notes/assumptions/11.md) -/
  params : Config.Params := {}
  /-- the model's own: the turns still to be taken, the next one first (notes/assumptions/1.md) -/
  schedule : List Turn
  /-- the model's own: the answer to the host's last access (notes/assumptions/14.md) -/
  reply : Reply
deriving DecidableEq, Repr

/-- 60_exceptions.md R205: a CMD write is turned away, or accepted with a command latched. -/
inductive Admission where
  | rejected (s : State)
  | accepted (l : Latched) (s : State)
deriving DecidableEq, Repr

/-- A line before its first module. -/
def LineScan.start : LineScan := { color := false, len := 0, window := [] }

/-- 10_state.md R41: the scan state at the start of a SCORE over an n × n matrix. -/
def PscWork.start (n : Nat) : PscWork :=
  { row := 0, col := 0, rowLine := .start, colLines := List.replicate n .start, recent := [],
    sum1 := 0, sum2 := 0, sum3 := 0, sum4 := 0, dark := 0 }

/-- 70_reset_and_hazards.md R230, 10_state.md R45: every register at its reset value, the sequencer IDLE. The matrix
memory lists nothing (notes/assumptions/5.md), the hidden scan state is an empty scan (13.md), the parameters have
their defaults (11.md), nothing is scheduled and nothing has been answered (14.md). -/
def State.reset : State :=
  { done := false, err := false, errCode := .none, verValid := false, bestValid := false
    irqEn := false, rule3Mode := .omitted
    version := 0, mask := 0, fmtId := 0, fmtWord := 0, verWord := 0
    penTotal := 0, penR1 := 0, penR2 := 0, penR3 := 0, penR4 := 0, darkCount := 0
    bestPenalty := 0xFFFFFFFF, bestMask := 0, errInfo := 0
    seq := .idle, psc := PscWork.start 0, mem := [], params := {}, schedule := [], reply := .none }

end Sys2Proof.Machine
end

