-- ==== Sys2Proof/Machine/Flags.lean ====
section
/-! DEFINITION. Everything computed from or into the status and control bits: STATUS and CTRL as words
(10_state.md R26, R28), the write-one-to-clear rule (R26, R27), irq (60_exceptions.md R210). -/

namespace Sys2Proof.Machine

/-- 10_state.md R26, R40: BUSY is 1 exactly while the sequencer is in RUN. -/
def State.busy (s : State) : Bool :=
  match s.seq with
  | .idle => false
  | .run _ => true

/-- 60_exceptions.md R201: the number of an error code. -/
def ErrorCode.toBits : ErrorCode → BitVec 4
  | .none => 0
  | .illegalCmd => 1
  | .badVersion => 2
  | .busyCmd => 3
  | .noVerWord => 4
  | .busyWrite => 5

/-- A flag as one bit. -/
def flagBit (b : Bool) : BitVec 1 := BitVec.ofBool b

/-- 10_state.md R26: STATUS as read; bits 31:10 and 3 read 0. -/
def statusWord (s : State) : Word :=
  (0 : BitVec 22) ++ flagBit s.bestValid ++ flagBit s.verValid ++ s.errCode.toBits ++ (0 : BitVec 1) ++
    flagBit s.err ++ flagBit s.done ++ flagBit s.busy

/-- 10_state.md R28: the number of a RULE3_MODE value. -/
def Rule3Mode.toBits : Rule3Mode → BitVec 2
  | .omitted => 0
  | .patterns => 1

/-- 10_state.md R28: RULE3_MODE is write-any-read-legal: 1 is stored when the block implements mode 1, every other
value stores 0. -/
def Rule3Mode.ofBits (b : BitVec 2) : Rule3Mode :=
  if b = 1 && Config.rule3Mode1Impl then .patterns else .omitted

/-- 10_state.md R28: CTRL as read; SRESET and the reserved bits read 0. -/
def ctrlWord (s : State) : Word :=
  (0 : BitVec 29) ++ s.rule3Mode.toBits ++ flagBit s.irqEn

/-- 10_state.md R28: the fields a CTRL write with SRESET = 0 stores. -/
def storeCtrl (v : Word) (s : State) : State :=
  { s with irqEn := v.getLsbD 0, rule3Mode := Rule3Mode.ofBits (v.extractLsb' 1 2) }

/-- 60_exceptions.md R208: what a write of 1 to STATUS.ERR does, the return from an error. -/
def clearError (s : State) : State :=
  { s with err := false, errCode := .none, errInfo := 0 }

/-- 10_state.md R26: what a write of 1 to STATUS.DONE does. -/
def clearDone (s : State) : State := { s with done := false }

/-- 10_state.md R26, R27: a STATUS write; a 1 in DONE or ERR clears it, all other bits are ignored. -/
def storeStatus (v : Word) (s : State) : State :=
  let s := if v.getLsbD 1 then clearDone s else s
  if v.getLsbD 2 then clearError s else s

/-- 60_exceptions.md R210: the interrupt output. -/
def irq (s : State) : Bool := s.irqEn && (s.done || s.err)

end Sys2Proof.Machine
end

