-- ==== Sys2Proof/Machine/Ops.lean ====
section
/-! DEFINITION. The named operations over the matrix memory and the registers: cell reads and writes
(20_memory.md R63 to R68), raising an error (60_exceptions.md R206, R207), the reset (70_reset_and_hazards.md R230). -/

namespace Sys2Proof.Machine

/-! ## The matrix memory -/

/-- 20_memory.md R64: the two kind bits. -/
def CellKind.toBits : CellKind → BitVec 2
  | .unset => 0b00
  | .functional => 0b01
  | .data => 0b10
  | .reserved => 0b11

/-- 20_memory.md R64: the kind two bits stand for. -/
def CellKind.ofBits (b : BitVec 2) : CellKind :=
  if b = 0b00 then .unset else if b = 0b01 then .functional else if b = 0b10 then .data else .reserved

/-- 20_memory.md R64: the byte that holds a cell: bit 0 color, bits [2:1] kind, the rest 0. -/
def CellRec.toByte (c : CellRec) : BitVec 8 := (0 : BitVec 5) ++ c.kind.toBits ++ flagBit c.color

/-- 20_memory.md R64: the cell a byte holds. -/
def CellRec.ofByte (b : BitVec 8) : CellRec :=
  { color := b.getLsbD 0, kind := CellKind.ofBits (b.extractLsb' 1 2) }

/-- What an address that the memory does not list reads as: light and Unset. DESIGN CHOICE, unsafe
(notes/assumptions/5.md). -/
def unwrittenByte : BitVec 8 := 0

/-- The byte at an address. -/
def Memory.read : Memory → Nat → BitVec 8
  | [], _ => unwrittenByte
  | (k, b) :: rest, a => if k = a then b else Memory.read rest a

/-- The memory with one byte replaced, in canonical form again. -/
def Memory.write : Memory → Nat → BitVec 8 → Memory
  | [], a, x => if x = unwrittenByte then [] else [(a, x)]
  | (k, b) :: rest, a, x =>
    if a < k then (if x = unwrittenByte then (k, b) :: rest else (a, x) :: (k, b) :: rest)
    else if a = k then (if x = unwrittenByte then rest else (k, x) :: rest)
    else (k, b) :: Memory.write rest a x

/-- Every address of the list is above `a`'s place: the list is empty or starts above `a`. -/
def startsAbove (a : Nat) : Memory → Bool
  | [] => true
  | (k, _) :: _ => decide (a < k)

/-- The canonical form: addresses of the 256 × 256 cells, strictly rising, each byte a cell's and not the one an
unlisted address reads as. -/
def Memory.wf : Memory → Bool
  | [] => true
  | (k, b) :: rest =>
    decide (k < 65536) && decide (b.toNat < 8) && decide (b ≠ unwrittenByte) && startsAbove k rest && Memory.wf rest

/-- 20_memory.md R63: where the cell `(row, col)` stands (notes/assumptions/4.md). -/
def cellAddress (row col : Nat) : Nat := 256 * row + col

/-- 20_memory.md R64: `MatRead(r, c)`. -/
def matRead (m : Memory) (row col : Nat) : CellRec := CellRec.ofByte (m.read (cellAddress row col))

/-- 20_memory.md R65: `MatWrite(r, c, cell)`. -/
def matWrite (m : Memory) (row col : Nat) (c : CellRec) : Memory := m.write (cellAddress row col) c.toByte

/-- Several cell writes, the first first. -/
def writeCells (m : Memory) (ws : List CellWrite) : Memory :=
  ws.foldl (fun m w => matWrite m w.row w.col w.cell) m

/-- 41_penalty.md R140: `color(r, c)`, the color bit alone. -/
def colorAt (m : Memory) (row col : Nat) : Bool := (matRead m row col).color

/-! ## Errors and reset -/

/-- 60_exceptions.md R206, R207: `raise Error(code, info)`. While ERR = 1 the error is dropped. -/
def raiseError (code : ErrorCode) (info : Word) (s : State) : State :=
  if s.err then s else { s with err := true, errCode := code, errInfo := info }

/-- 70_reset_and_hazards.md R230 to R232: every register takes its reset value, the sequencer goes to IDLE, a running
command is abandoned. The matrix memory keeps what it holds (R231, R244), the hidden scan state is left as it is
(10_state.md R45), and so are the parameters and what belongs to the host. -/
def resetBlock (s : State) : State :=
  { State.reset with psc := s.psc, mem := s.mem, params := s.params, schedule := s.schedule, reply := s.reply }

/-- 10_state.md R40: the last of a completion: DONE is set, BUSY cleared, the sequencer returns to IDLE. -/
def finish (s : State) : State := { s with seq := .idle, done := true }

/-- The state with the host's answer set. -/
def answer (r : Reply) (s : State) : State := { s with reply := r }

/-- The state with the matrix memory replaced. -/
def storeMatrix (m : Memory) (s : State) : State := { s with mem := m }

/-- The state with the schedule replaced. -/
def withSchedule (ts : List Turn) (s : State) : State := { s with schedule := ts }

end Sys2Proof.Machine
end

