-- ==== Sys2Proof/Machine/Operands.lean ====
section
/-! DEFINITION. The operands of a command: the operand load (30_encoding.md R82), the values the acceptance check
uses (60_exceptions.md R202, R204, R205), the matrix side (00_scope.md R5), and admitting a command (R205). -/

namespace Sys2Proof.Machine

/-- 10_state.md R29: a write of VERSION, by the host or by a load: it also clears VER_VALID. -/
def storeVersion (v : BitVec 6) (s : State) : State := { s with version := v, verValid := false }

/-- 10_state.md R30: a write of MASK. -/
def storeMask (m : BitVec 3) (s : State) : State := { s with mask := m }

/-- 10_state.md R31: a write of FMT_ID. -/
def storeFmtId (f : BitVec 5) (s : State) : State := { s with fmtId := f }

/-- 30_encoding.md R82: with L = 1 the operand load, with L = 0 nothing. -/
def loadOperands (o : Operands) (s : State) : State :=
  if o.load then
    storeFmtId (BitVec.ofNat 5 o.f) (storeMask (BitVec.ofNat 3 o.m) (storeVersion (BitVec.ofNat 6 o.v) s))
  else s

/-- 00_scope.md R5: the side N of the matrix of a version. -/
def sideOf (v : BitVec 6) : Nat := 4 * v.toNat + 17

/-- 00_scope.md R5: the legal versions. -/
def legalVersion (v : BitVec 6) : Bool := decide (Config.vMin ≤ v.toNat) && decide (v.toNat ≤ Config.vMax)

/-- 40_format_version.md R109: the versions that carry a version word. -/
def hasVersionWord (v : BitVec 6) : Bool := decide (7 ≤ v.toNat)

/-- 60_exceptions.md R202: the commands that need a version. -/
def needsVersion : Instr → Bool
  | .nop _ => false
  | .fcalc _ => false
  | .fcalcm _ => false
  | .vcalc _ => true
  | .fwrite _ => true
  | .vwrite _ => true
  | .encfv _ => true
  | .score _ => true
  | .bestclr _ => false

/-- 60_exceptions.md R204: the command that needs VER_VALID for a version that has a word. -/
def needsVersionWord : Instr → Bool
  | .nop _ => false
  | .fcalc _ => false
  | .fcalcm _ => false
  | .vcalc _ => false
  | .fwrite _ => false
  | .vwrite _ => true
  | .encfv _ => false
  | .score _ => false
  | .bestclr _ => false

/-- 60_exceptions.md R202: the version V' the command would use. -/
def effectiveVersion (o : Operands) (s : State) : BitVec 6 :=
  if o.load then BitVec.ofNat 6 o.v else s.version

/-- 60_exceptions.md R204: the VER_VALID VV' the command would find. -/
def effectiveVerValid (o : Operands) (s : State) : Bool := if o.load then false else s.verValid

/-- 60_exceptions.md R205, steps 5 and 6: the error the operands earn, `none` when they are in order. -/
def operandError (i : Instr) (s : State) : ErrorCode :=
  let v := effectiveVersion i.operands s
  if needsVersion i && !legalVersion v then .badVersion
  else if needsVersionWord i && hasVersionWord v && !effectiveVerValid i.operands s then .noVerWord
  else .none

/-- 10_state.md R40: the operand values latched with a command. -/
def latch (i : Instr) (s : State) : Latched :=
  { command := i, version := s.version, mask := s.mask, fmtId := s.fmtId, rule3Mode := s.rule3Mode }

/-- 10_state.md R41: the PSC's working state is reset at the start of each SCORE; no other command touches it. -/
def startScan (l : Latched) (p : PscWork) : PscWork :=
  match l.command with
  | .score _ => PscWork.start (sideOf l.version)
  | .nop _ => p
  | .fcalc _ => p
  | .fcalcm _ => p
  | .vcalc _ => p
  | .fwrite _ => p
  | .vwrite _ => p
  | .encfv _ => p
  | .bestclr _ => p

/-- 10_state.md R40: the sequencer moves to RUN with a command latched. -/
def startCommand (l : Latched) (s : State) : State := { s with seq := .run l, psc := startScan l s.psc }

/-- 40_format_version.md R100: the format id `{ecl, mask}`. -/
def formatId (ecl : BitVec 2) (mask : BitVec 3) : BitVec 5 := ecl ++ mask

/-- 40_format_version.md R121, R125: the FMT_ID that a command writes, `none` for a command that writes none. -/
def commandFmtId (l : Latched) : Option (BitVec 5) :=
  match l.command with
  | .fcalcm _ => some (formatId Config.ecl l.mask)
  | .encfv _ => some (formatId Config.ecl l.mask)
  | .nop _ => none
  | .fcalc _ => none
  | .vcalc _ => none
  | .fwrite _ => none
  | .vwrite _ => none
  | .score _ => none
  | .bestclr _ => none

/-- 10_state.md R31: the running command overwrites FMT_ID. FMT_ID is no result register (R33), so this is no part of the
completion (20_memory.md R74); when between acceptance and completion it happens is left open
(notes/assumptions/23.md). -/
def writeFmtId (l : Latched) (s : State) : State :=
  match commandFmtId l with
  | some f => storeFmtId f s
  | none => s

/-- 60_exceptions.md R205: the acceptance check of a CMD write whose word is the command `i` (step 3 is the decoder's,
see `cmdWrite`). -/
def admission (i : Instr) (s : State) : Admission :=
  if s.err then .rejected s
  else if s.busy then .rejected (raiseError .busyCmd (encode i) s)
  else
    match operandError i s with
    | .none =>
      let loaded := loadOperands i.operands s
      let l := latch i loaded
      .accepted l (startCommand l loaded)
    | code => .rejected (raiseError code (encode i) s)

/-- A command issued and, when it is admitted, run to its completion before anything else happens (10_state.md R40:
"one atomic step"): the meaning of an instruction whose own effect is `effect`. -/
def issue (i : Instr) (effect : Latched → State → State) (s : State) : Host.Outcome State Fault Refusal :=
  match admission i s with
  | .rejected s => .next s
  | .accepted l s => .next (finish (effect l (writeFmtId l s)))

end Sys2Proof.Machine
end

