-- ==== Sys2Proof/Machine/Control.lean ====
section
/-! DEFINITION. The control command (42_control.md). -/

namespace Sys2Proof.Machine

/-- R180: NOP does nothing apart from the operand load. -/
def nopEffect (_l : Latched) (s : State) : State := s

/-- R180: NOP. -/
def execNop (o : Operands) (s : State) : Host.Outcome State Fault Refusal := issue (.nop o) nopEffect s

end Sys2Proof.Machine
end

