-- ==== Sys2Proof/Machine/Codes.lean ====
section
/-! DEFINITION. The format word and the version word (40_format_version.md R100 to R109) and the cells their bits go
to (R110 to R115). -/

namespace Sys2Proof.Machine

/-! ## The divisions -/

/-- R103: one step of the format division, for `i` from 5 down to 1. -/
def formatStep (g : BitVec 11) (r : BitVec 15) (i : Nat) : BitVec 15 :=
  if r.getLsbD (9 + i) then r ^^^ (g.setWidth 15 <<< (i - 1)) else r

/-- R103: the format remainder of a format id under the generator `g`. -/
def formatRemainder (g : BitVec 11) (fid : BitVec 5) : BitVec 15 :=
  [5, 4, 3, 2, 1].foldl (formatStep g) (fid.setWidth 15 <<< 10)

/-- R101, R103, R104: `FORMATS[fid]`, the format word under the generator `g` (R6). -/
def formatWord (g : BitVec 11) (fid : BitVec 5) : BitVec 15 :=
  ((fid.setWidth 15 <<< 10) ||| formatRemainder g fid) ^^^ Config.fmtXor

/-- R107: one step of the version division, for `i` from 6 down to 1. -/
def versionStep (r : BitVec 18) (i : Nat) : BitVec 18 :=
  if r.getLsbD (11 + i) then r ^^^ (Config.g18.setWidth 18 <<< (i - 1)) else r

/-- R107: the version remainder of a version. -/
def versionRemainder (v : BitVec 6) : BitVec 18 :=
  [6, 5, 4, 3, 2, 1].foldl versionStep (v.setWidth 18 <<< 12)

/-- R102, R107: `ver_word(v)`. -/
def versionWord (v : BitVec 6) : BitVec 18 := (v.setWidth 18 <<< 12) ||| versionRemainder v

/-- R108, R109, R122: the word VCALC gives a version: `VERSIONS[v]`, which has entries from 7 on, or 0. -/
def versionEntry (v : BitVec 6) : BitVec 18 := if hasVersionWord v then versionWord v else 0

/-! ## Where the bits go -/

/-- R110: the cell of format bit `i` in copy A. -/
def copyA (i : Nat) : Nat × Nat :=
  if i ≤ 5 then (i, 8)
  else if i = 6 then (7, 8)
  else if i = 7 then (8, 8)
  else if i = 8 then (8, 7)
  else (8, 14 - i)

/-- R111: the cell of format bit `i` in copy B, in a matrix of side `n`. -/
def copyB (n i : Nat) : Nat × Nat :=
  if i ≤ 7 then (8, n - 1 - i) else (n - 15 + i, 8)

/-- R114: the cell of version bit `i` in block TR. -/
def blockTR (n i : Nat) : Nat × Nat := (i / 3, n - 11 + i % 3)

/-- R115: the cell of version bit `i` in block BL. -/
def blockBL (n i : Nat) : Nat × Nat := (n - 11 + i % 3, i / 3)

/-- R113: the write of one bit to a cell: `{color: bit, kind: Functional}`. -/
def bitWrite (at_ : Nat × Nat) (bit : Bool) : CellWrite :=
  { row := at_.1, col := at_.2, cell := { color := bit, kind := .functional } }

/-- R123: the 30 cell writes of a format word. -/
def formatWrites (n : Nat) (w : BitVec 15) : List CellWrite :=
  (List.range 15).flatMap fun i => [bitWrite (copyA i) (w.getLsbD i), bitWrite (copyB n i) (w.getLsbD i)]

/-- R124: the 36 cell writes of a version word, none for a version that carries no word. -/
def versionWrites (v : BitVec 6) (w : BitVec 18) : List CellWrite :=
  if hasVersionWord v then
    (List.range 18).flatMap fun i =>
      [bitWrite (blockTR (sideOf v) i) (w.getLsbD i), bitWrite (blockBL (sideOf v) i) (w.getLsbD i)]
  else []

end Sys2Proof.Machine
end

