-- ==== Sys2Proof/Machine/FormatVersion.lean ====
section
/-! DEFINITION. The commands of the format/version encoder (40_format_version.md §5). Each has its effect, what it does
once admitted, from its latched operands, and its meaning, the command issued and run. -/

namespace Sys2Proof.Machine

/-- R120: `FMT_WORD <- FORMATS[FMT_ID]`. -/
def fcalcEffect (l : Latched) (s : State) : State := { s with fmtWord := formatWord s.params.g15 l.fmtId }

/-- R120: FCALC. -/
def execFcalc (o : Operands) (s : State) : Host.Outcome State Fault Refusal := issue (.fcalc o) fcalcEffect s

/-- R121: `FMT_WORD <- FORMATS[{ECL, MASK}]`; the FMT_ID it writes before is `commandFmtId`. -/
def fcalcmEffect (l : Latched) (s : State) : State :=
  { s with fmtWord := formatWord s.params.g15 (formatId Config.ecl l.mask) }

/-- R121: FCALCM. -/
def execFcalcm (o : Operands) (s : State) : Host.Outcome State Fault Refusal := issue (.fcalcm o) fcalcmEffect s

/-- R122: VER_WORD and VER_VALID for VERSION. -/
def vcalcEffect (l : Latched) (s : State) : State :=
  { s with verWord := versionEntry l.version, verValid := hasVersionWord l.version }

/-- R122: VCALC. -/
def execVcalc (o : Operands) (s : State) : Host.Outcome State Fault Refusal := issue (.vcalc o) vcalcEffect s

/-- R123: the cell writes of FWRITE: FMT_WORD as held. -/
def fwriteCells (l : Latched) (s : State) : List CellWrite := formatWrites (sideOf l.version) s.fmtWord

/-- R123: FWRITE scatters FMT_WORD into the two format copies. -/
def fwriteEffect (l : Latched) (s : State) : State := storeMatrix (writeCells s.mem (fwriteCells l s)) s

/-- R123: FWRITE. -/
def execFwrite (o : Operands) (s : State) : Host.Outcome State Fault Refusal := issue (.fwrite o) fwriteEffect s

/-- R124: the cell writes of VWRITE: VER_WORD as held. -/
def vwriteCells (l : Latched) (s : State) : List CellWrite := versionWrites l.version s.verWord

/-- R124: VWRITE scatters VER_WORD into the two version blocks. -/
def vwriteEffect (l : Latched) (s : State) : State := storeMatrix (writeCells s.mem (vwriteCells l s)) s

/-- R124: VWRITE. -/
def execVwrite (o : Operands) (s : State) : Host.Outcome State Fault Refusal := issue (.vwrite o) vwriteEffect s

/-- R125: the cell writes of ENCFV: the format word of the mask and the version word of the version, both new. -/
def encfvCells (l : Latched) (s : State) : List CellWrite :=
  formatWrites (sideOf l.version) (formatWord s.params.g15 (formatId Config.ecl l.mask)) ++
    versionWrites l.version (versionEntry l.version)

/-- R125: ENCFV: the cells, then, at completion, the result registers of FCALCM and VCALC; the FMT_ID it writes before
is `commandFmtId`. -/
def encfvEffect (l : Latched) (s : State) : State :=
  vcalcEffect l (fcalcmEffect l (storeMatrix (writeCells s.mem (encfvCells l s)) s))

/-- R125: ENCFV. -/
def execEncfv (o : Operands) (s : State) : Host.Outcome State Fault Refusal := issue (.encfv o) encfvEffect s

end Sys2Proof.Machine
end

