-- ==== Sys2Proof/Machine/Scoring.lean ====
section
/-! DEFINITION. The penalties of 41_penalty.md as functions of the side `n` and the colors of the matrix alone
(R140 to R152). All sums are exact. -/

namespace Sys2Proof.Machine

/-! ## Rule 1 -/

/-- R141: row `r` as a sequence of colors. -/
def rowLine (n : Nat) (color : Nat → Nat → Bool) (r : Nat) : List Bool := (List.range n).map fun c => color r c

/-- R141: column `c` as a sequence of colors. -/
def colLine (n : Nat) (color : Nat → Nat → Bool) (c : Nat) : List Bool := (List.range n).map fun r => color r c

/-- R141: the 2N lines of the matrix. -/
def matrixLines (n : Nat) (color : Nat → Nat → Bool) : List (List Bool) :=
  (List.range n).map (rowLine n color) ++ (List.range n).map (colLine n color)

/-- The run lengths of a line with one more module of the first run's color in front. -/
def lengthenFirst : List Nat → List Nat
  | [] => [1]
  | k :: ks => (k + 1) :: ks

/-- R141: the lengths of the runs of a line, in order. -/
def runLengths : List Bool → List Nat
  | [] => []
  | [_] => [1]
  | x :: y :: rest => if x = y then lengthenFirst (runLengths (y :: rest)) else 1 :: runLengths (y :: rest)

/-- R142: what one run adds. -/
def runPenalty (len : Nat) : Nat := if 5 ≤ len then len - 2 else 0

/-- R142: `L1(line)`. -/
def lineRunPenalty (line : List Bool) : Nat := ((runLengths line).map runPenalty).sum

/-- R143: `P1`. -/
def penaltyRuns (n : Nat) (color : Nat → Nat → Bool) : Nat :=
  ((matrixLines n color).map lineRunPenalty).sum

/-! ## Rule 2 -/

/-- R144: the four modules of the 2×2 window at `(r, c)` have one color. -/
def uniformWindow (color : Nat → Nat → Bool) (r c : Nat) : Bool :=
  color r c == color r (c + 1) && color r c == color (r + 1) c && color r c == color (r + 1) (c + 1)

/-- R144: how many 2×2 windows of the matrix have one color. -/
def uniformWindows (n : Nat) (color : Nat → Nat → Bool) : Nat :=
  ((List.range (n - 1)).map fun r => (List.range (n - 1)).countP fun c => uniformWindow color r c).sum

/-- R144: `P2`. -/
def penaltyBlocks (n : Nat) (color : Nat → Nat → Bool) : Nat := 3 * uniformWindows n color

/-! ## Rule 3 -/

/-- R147: `PAT_A`. -/
def patternA : List Bool := [true, false, true, true, true, false, true, false, false, false, false]

/-- R147: `PAT_B`. -/
def patternB : List Bool := [false, false, false, false, true, false, true, true, true, false, true]

/-- R147: what one window of 11 colors adds. -/
def patternPenalty (w : List Bool) : Nat := (if w = patternA then 40 else 0) + (if w = patternB then 40 else 0)

/-- R147: what the windows of one line add, `k` from 0 to length − 11. -/
def linePatternPenalty (line : List Bool) : Nat :=
  ((List.range (line.length - 10)).map fun k => patternPenalty ((line.drop k).take 11)).sum

/-- R146, R147: `P3`. -/
def penaltyPatterns (mode : Rule3Mode) (n : Nat) (color : Nat → Nat → Bool) : Nat :=
  match mode with
  | .omitted => 0
  | .patterns => ((matrixLines n color).map linePatternPenalty).sum

/-! ## Rule 4 and the sum -/

/-- R148: `D`, the dark-module count. -/
def darkModules (n : Nat) (color : Nat → Nat → Bool) : Nat :=
  ((List.range n).map fun r => (List.range n).countP fun c => color r c).sum

/-- R149: `P4` for a dark count `d` in a matrix of side `n`. -/
def penaltyBalance (n d : Nat) : Nat := 10 * ((10 * ((n * n : Nat) : Int) - 20 * (d : Int)).natAbs / (n * n))

/-- R151: `PEN_TOTAL`. -/
def penaltyTotal (mode : Rule3Mode) (n : Nat) (color : Nat → Nat → Bool) : Nat :=
  penaltyRuns n color + penaltyBlocks n color + penaltyPatterns mode n color +
    penaltyBalance n (darkModules n color)

end Sys2Proof.Machine
end

