-- ==== Sys2Proof/Machine/Scan.lean ====
section
/-! DEFINITION. The PSC's hidden scan (10_state.md R41): one module at a time, each cell read once (20_memory.md R66),
in row-major order. The spec leaves the order to the implementation; nothing of this state is observable
(notes/assumptions/13.md). -/

namespace Sys2Proof.Machine

/-- R141: the run that module `x` would continue is over: its length, 0 when there is none. -/
def runClosedBy (x : Bool) (l : LineScan) : Nat := if l.color = x then 0 else l.len

/-- R41: a line's scan state after module `x`. The window is kept only in mode 1. -/
def advanceLine (mode : Rule3Mode) (x : Bool) (l : LineScan) : LineScan :=
  { color := x
    len := if l.color = x then l.len + 1 else 1
    window :=
      match mode with
      | .omitted => []
      | .patterns => (x :: l.window).take 11 }

/-- R142: what module `x`, the last of its line or not, makes rule 1 add for the line. -/
def runsAddedBy (x last : Bool) (before after : LineScan) : Nat :=
  runPenalty (runClosedBy x before) + (if last then runPenalty after.len else 0)

/-- R147: what a line's window adds. -/
def windowAdds (l : LineScan) : Nat := patternPenalty l.window.reverse

/-- R144: the window whose last module is `x` has one color: `recent` holds the module left of `x` first, the one above
it at place n − 1, the one above and left at place n. -/
def closesUniformWindow (n : Nat) (x : Bool) (recent : List Bool) : Bool :=
  recent[0]? == some x && recent[n - 1]? == some x && recent[n]? == some x

/-- R41: the scan after the module of color `x` at its position, in a matrix of side `n`. -/
def scanModule (mode : Rule3Mode) (n : Nat) (x : Bool) (p : PscWork) : PscWork :=
  let lastInRow := decide (n ≤ p.col + 1)
  let lastInCol := decide (n ≤ p.row + 1)
  let colLine := p.colLines.getD p.col .start
  let rowLine' := advanceLine mode x p.rowLine
  let colLine' := advanceLine mode x colLine
  let dark := p.dark + (if x then 1 else 0)
  { row := if lastInRow then p.row + 1 else p.row
    col := if lastInRow then 0 else p.col + 1
    rowLine := if lastInRow then .start else rowLine'
    colLines := p.colLines.set p.col colLine'
    recent := (x :: p.recent).take (n + 1)
    sum1 := p.sum1 + runsAddedBy x lastInRow p.rowLine rowLine' + runsAddedBy x lastInCol colLine colLine'
    sum2 := p.sum2 + (if 0 < p.row && 0 < p.col && closesUniformWindow n x p.recent then 3 else 0)
    sum3 := p.sum3 + windowAdds rowLine' + windowAdds colLine'
    sum4 := if lastInRow && lastInCol then penaltyBalance n dark else p.sum4
    dark := dark }

/-- The scan has read every cell. -/
def scanFinished (n : Nat) (p : PscWork) : Bool := decide (n ≤ p.row)

/-- R41, R66: the scan reads its next cell; a finished scan reads none. -/
def scanNext (mode : Rule3Mode) (n : Nat) (color : Nat → Nat → Bool) (p : PscWork) : PscWork :=
  if scanFinished n p then p else scanModule mode n (color p.row p.col) p

/-- `k` cells further. -/
def scanSteps (mode : Rule3Mode) (n : Nat) (color : Nat → Nat → Bool) : Nat → PscWork → PscWork
  | 0, p => p
  | k + 1, p => scanSteps mode n color k (scanNext mode n color p)

/-- The rest of the scan: an n × n matrix has n·n cells. -/
def scanToEnd (mode : Rule3Mode) (n : Nat) (color : Nat → Nat → Bool) (p : PscWork) : PscWork :=
  scanSteps mode n color (n * n) p

end Sys2Proof.Machine
end

