-- ==== Sys2Proof/Machine/Penalty.lean ====
section
/-! DEFINITION. The commands of the penalty scorer and the best-mask tracker (41_penalty.md §5, §6). -/

namespace Sys2Proof.Machine

/-- R150, R154: the tracker takes a total when it holds none or a higher one. -/
def trackerTakes (total : Word) (s : State) : Bool := !s.bestValid || decide (total.toNat < s.bestPenalty.toNat)

/-- R150: the tracker after a score. -/
def trackBest (total : Word) (mask : BitVec 3) (s : State) : State :=
  if trackerTakes total s then { s with bestPenalty := total, bestMask := mask, bestValid := true } else s

/-- R150: the penalty registers and DARK_COUNT of a score. -/
def storePenalties (mode : Rule3Mode) (n : Nat) (color : Nat → Nat → Bool) (s : State) : State :=
  { s with
    penR1 := BitVec.ofNat 32 (penaltyRuns n color)
    penR2 := BitVec.ofNat 32 (penaltyBlocks n color)
    penR3 := BitVec.ofNat 32 (penaltyPatterns mode n color)
    penR4 := BitVec.ofNat 32 (penaltyBalance n (darkModules n color))
    penTotal := BitVec.ofNat 32 (penaltyTotal mode n color)
    darkCount := BitVec.ofNat 15 (darkModules n color) }

/-- R41: the hidden scan has read every cell by the time SCORE completes. -/
def endScan (mode : Rule3Mode) (n : Nat) (color : Nat → Nat → Bool) (s : State) : State :=
  { s with psc := scanToEnd mode n color s.psc }

/-- R150: what SCORE does at its completion. -/
def scoreEffect (l : Latched) (s : State) : State :=
  trackBest (BitVec.ofNat 32 (penaltyTotal l.rule3Mode (sideOf l.version) (colorAt s.mem))) l.mask
    (storePenalties l.rule3Mode (sideOf l.version) (colorAt s.mem)
      (endScan l.rule3Mode (sideOf l.version) (colorAt s.mem) s))

/-- R150: SCORE. -/
def execScore (o : Operands) (s : State) : Host.Outcome State Fault Refusal := issue (.score o) scoreEffect s

/-- R155: `BEST_PENALTY <- 0xFFFFFFFF; BEST_MASK <- 0; STATUS.BEST_VALID <- 0`. -/
def bestclrEffect (_l : Latched) (s : State) : State :=
  { s with bestPenalty := 0xFFFFFFFF, bestMask := 0, bestValid := false }

/-- R155: BESTCLR. -/
def execBestclr (o : Operands) (s : State) : Host.Outcome State Fault Refusal := issue (.bestclr o) bestclrEffect s

end Sys2Proof.Machine
end

