-- ==== Sys2Proof/Machine/Dispatch.lean ====
section
/-! DEFINITION. What each command does: one arm per constructor of Instr. -/

namespace Sys2Proof.Machine

def exec (i : Instr) (s : State) : Host.Outcome State Fault Refusal :=
  match i with
  | .nop o => Sys2Proof.Machine.execNop o s
  | .fcalc o => Sys2Proof.Machine.execFcalc o s
  | .fcalcm o => Sys2Proof.Machine.execFcalcm o s
  | .vcalc o => Sys2Proof.Machine.execVcalc o s
  | .fwrite o => Sys2Proof.Machine.execFwrite o s
  | .vwrite o => Sys2Proof.Machine.execVwrite o s
  | .encfv o => Sys2Proof.Machine.execEncfv o s
  | .score o => Sys2Proof.Machine.execScore o s
  | .bestclr o => Sys2Proof.Machine.execBestclr o s

end Sys2Proof.Machine
end

