-- ==== Sys2Proof/Machine/Sequencer.lean ====
section
/-! DEFINITION. The sequencer's two-phase form of a command (10_state.md R40: "acceptance, then the matrix accesses,
then completion"): the CMD write, the block's accesses while in RUN, the completion, and who owns which cell meanwhile
(20_memory.md R69). -/

namespace Sys2Proof.Machine

/-- The effect of the latched command (the commands' own rules). -/
def effectOf (l : Latched) (s : State) : State :=
  match l.command with
  | .nop _ => nopEffect l s
  | .fcalc _ => fcalcEffect l s
  | .fcalcm _ => fcalcmEffect l s
  | .vcalc _ => vcalcEffect l s
  | .fwrite _ => fwriteEffect l s
  | .vwrite _ => vwriteEffect l s
  | .encfv _ => encfvEffect l s
  | .score _ => scoreEffect l s
  | .bestclr _ => bestclrEffect l s

/-- The state after an acceptance check. -/
def Admission.state : Admission → State
  | .rejected s => s
  | .accepted _ s => s

/-- 60_exceptions.md R205, step 3, with steps 1 and 2 before it: what a CMD write of a word that is no command does. -/
def rejectIllegal (w : Word) (s : State) : State :=
  if s.busy then raiseError .busyCmd w s else raiseError .illegalCmd w s

/-- 10_state.md R25, 60_exceptions.md R205: a CMD write. -/
def cmdWrite (w : Word) (s : State) : State :=
  match decodeWord w with
  | .ok i => (admission i s).state
  | .error _ => rejectIllegal w s

/-- 10_state.md R31: the running command writes FMT_ID, at any time before its completion; in IDLE nothing happens. -/
def runFmtId (s : State) : State :=
  match s.seq with
  | .idle => s
  | .run l => writeFmtId l s

/-- 10_state.md R40: the completion of the running command, after its write of FMT_ID if that has not been made yet; in
IDLE there is nothing to complete (R20). -/
def completeRunning (s : State) : State :=
  match s.seq with
  | .idle => s
  | .run l => finish (effectOf l (writeFmtId l s))

/-- 20_memory.md R65: the cell writes of the running command. -/
def runningWrites (l : Latched) (s : State) : List CellWrite :=
  match l.command with
  | .nop _ => []
  | .fcalc _ => []
  | .fcalcm _ => []
  | .vcalc _ => []
  | .fwrite _ => fwriteCells l s
  | .vwrite _ => vwriteCells l s
  | .encfv _ => encfvCells l s
  | .score _ => []
  | .bestclr _ => []

/-- 20_memory.md R66: whether the command reads the matrix. -/
def readsMatrix (l : Latched) : Bool :=
  match l.command with
  | .nop _ => false
  | .fcalc _ => false
  | .fcalcm _ => false
  | .vcalc _ => false
  | .fwrite _ => false
  | .vwrite _ => false
  | .encfv _ => false
  | .score _ => true
  | .bestclr _ => false

/-- 20_memory.md R66: the next cell read of a running SCORE. -/
def readNextCell (l : Latched) (s : State) : State :=
  if readsMatrix l then { s with psc := scanNext l.rule3Mode (sideOf l.version) (colorAt s.mem) s.psc } else s

/-- 10_state.md R40: one matrix access of the running command: its `k`-th cell write, in any order (20_memory.md R71),
or its next cell read. In IDLE, and when there is no such access, nothing happens. -/
def accessMatrix (k : Nat) (s : State) : State :=
  match s.seq with
  | .idle => s
  | .run l =>
    match (runningWrites l s)[k]? with
    | some w => storeMatrix (matWrite s.mem w.row w.col w.cell) s
    | none => readNextCell l s

/-- 20_memory.md R69: the running command reads or writes the cell `(row, col)`. -/
def ownsCell (s : State) (row col : Nat) : Bool :=
  match s.seq with
  | .idle => false
  | .run l =>
    (readsMatrix l && decide (row < sideOf l.version) && decide (col < sideOf l.version)) ||
      (runningWrites l s).any fun w => w.row == row && w.col == col

end Sys2Proof.Machine
end

