-- ==== Sys2Proof/Machine/Window.lean ====
section
/-! DEFINITION. The register window (10_state.md R22 to R36, 20_memory.md R60 to R62): reading and writing every
register. -/

namespace Sys2Proof.Machine

/-- 10_state.md R22: the registers by name. -/
inductive Reg where
  | id | cmd | status | ctrl | version | mask | fmtId | fmtWord | verWord | penTotal
  | penR1 | penR2 | penR3 | penR4 | darkCount | bestPenalty | bestMask | size | errInfo
deriving DecidableEq, Repr

/-- 10_state.md R22: the byte offset of a register. -/
def Reg.offset : Reg → Offset
  | .id => 0x00
  | .cmd => 0x04
  | .status => 0x08
  | .ctrl => 0x0C
  | .version => 0x10
  | .mask => 0x14
  | .fmtId => 0x18
  | .fmtWord => 0x1C
  | .verWord => 0x20
  | .penTotal => 0x24
  | .penR1 => 0x28
  | .penR2 => 0x2C
  | .penR3 => 0x30
  | .penR4 => 0x34
  | .darkCount => 0x38
  | .bestPenalty => 0x3C
  | .bestMask => 0x40
  | .size => 0x44
  | .errInfo => 0x48

/-- 10_state.md R22: all registers, in the order of their offsets. -/
def Reg.all : List Reg :=
  [.id, .cmd, .status, .ctrl, .version, .mask, .fmtId, .fmtWord, .verWord, .penTotal, .penR1, .penR2, .penR3, .penR4,
    .darkCount, .bestPenalty, .bestMask, .size, .errInfo]

/-- 10_state.md R22: the register at an offset; the other offsets are reserved. -/
def regAt (off : Offset) : Option Reg := Reg.all.find? fun r => r.offset == off

/-- 10_state.md R34: SIZE, a 9-bit view of VERSION. -/
def sizeView (s : State) : BitVec 9 := BitVec.ofNat 9 (sideOf s.version)

/-- 10_state.md R23: what a register reads as, its unused bits 0. -/
def readRegister (s : State) : Reg → Word
  | .id => Config.idWord
  | .cmd => 0
  | .status => statusWord s
  | .ctrl => ctrlWord s
  | .version => s.version.setWidth 32
  | .mask => s.mask.setWidth 32
  | .fmtId => s.fmtId.setWidth 32
  | .fmtWord => s.fmtWord.setWidth 32
  | .verWord => s.verWord.setWidth 32
  | .penTotal => s.penTotal
  | .penR1 => s.penR1
  | .penR2 => s.penR2
  | .penR3 => s.penR3
  | .penR4 => s.penR4
  | .darkCount => s.darkCount.setWidth 32
  | .bestPenalty => s.bestPenalty
  | .bestMask => s.bestMask.setWidth 32
  | .size => (sizeView s).setWidth 32
  | .errInfo => s.errInfo

/-- 10_state.md R22: a read of a reserved offset returns 0. -/
def readOffset (s : State) (off : Offset) : Word :=
  match regAt off with
  | some r => readRegister s r
  | none => 0

/-- 10_state.md R32: a write of an operand register or of CTRL: stored in IDLE, in RUN ignored and reported as
BUSY_WRITE with the register's offset. -/
def writeWhenIdle (r : Reg) (store : State → State) (s : State) : State :=
  if s.busy then raiseError .busyWrite (r.offset.setWidth 32) s else store s

/-- A 32-bit write of a register by its own rule; a write of a read-only register is ignored (10_state.md R23). -/
def writeRegister (r : Reg) (v : Word) (s : State) : State :=
  match r with
  | .cmd => cmdWrite v s
  | .status => storeStatus v s
  | .ctrl => if v.getLsbD 31 then resetBlock s else writeWhenIdle .ctrl (storeCtrl v) s
  | .version => writeWhenIdle .version (storeVersion (v.extractLsb' 0 6)) s
  | .mask => writeWhenIdle .mask (storeMask (v.extractLsb' 0 3)) s
  | .fmtId => writeWhenIdle .fmtId (storeFmtId (v.extractLsb' 0 5)) s
  | .id => s
  | .fmtWord => s
  | .verWord => s
  | .penTotal => s
  | .penR1 => s
  | .penR2 => s
  | .penR3 => s
  | .penR4 => s
  | .darkCount => s
  | .bestPenalty => s
  | .bestMask => s
  | .size => s
  | .errInfo => s

/-- 10_state.md R22: a write at a reserved offset is ignored. -/
def writeOffset (off : Offset) (v : Word) (s : State) : State :=
  match regAt off with
  | some r => writeRegister r v s
  | none => s

/-- 20_memory.md R60: the offset of an address inside the window. An access belongs to the window when it begins there: one
that begins below QRFV_BASE and reaches into it is outside (DESIGN CHOICE, notes/assumptions/9.md). -/
def windowOffset (addr : Nat) : Option Offset :=
  if Config.qrfvBase ≤ addr ∧ addr ≤ Config.qrfvBase + 0xFF then some (BitVec.ofNat 8 (addr - Config.qrfvBase)) else none

/-- 20_memory.md R60: the address of a register. -/
def Reg.address (r : Reg) : Nat := Config.qrfvBase + r.offset.toNat

/-- 20_memory.md R61: an access of the window is 32 bits wide at a multiple of 4. -/
def legalAccess (off : Offset) (size : Nat) : Bool := size == 4 && off.toNat % 4 == 0

/-- 20_memory.md R61: a host write. -/
def hostWrite (addr size : Nat) (v : Word) (s : State) : State :=
  match windowOffset addr with
  | none => answer .outsideWindow s
  | some off => if legalAccess off size then writeOffset off v (answer .ack s) else answer .busError s

/-- 20_memory.md R61: a host read; it has no effect but the answer. -/
def hostRead (addr size : Nat) (s : State) : State :=
  match windowOffset addr with
  | none => answer .outsideWindow s
  | some off => if legalAccess off size then answer (.data (readOffset s off)) s else answer .busError s

end Sys2Proof.Machine
end

