-- ==== Sys2Proof/Machine/Turns.lean ====
section
/-! DEFINITION. What one turn does. -/

namespace Sys2Proof.Machine

/-- 20_memory.md R69: the host writes a cell; a cell that the running command owns is a race. -/
def hostCellWrite (row col : Coord) (c : CellRec) (s : State) : Host.Outcome State Fault Refusal :=
  if ownsCell s row.toNat col.toNat then .fault (.matrixRace row col)
  else .next (storeMatrix (matWrite s.mem row.toNat col.toNat c) (answer .ack s))

/-- 20_memory.md R69: the host reads a cell; a cell that the running command owns is a race. -/
def hostCellRead (row col : Coord) (s : State) : Host.Outcome State Fault Refusal :=
  if ownsCell s row.toNat col.toNat then .fault (.matrixRace row col)
  else .next (answer (.cell (matRead s.mem row.toNat col.toNat)) s)

/-- 30_encoding.md R87: `wait`: the host reads STATUS until BUSY = 0. A running command completes meanwhile
(70_reset_and_hazards.md R245), and the last read, the one that ends the wait, is what the host has got
(notes/assumptions/26.md). -/
def hostWait (s : State) : State :=
  answer (.data (readRegister (completeRunning s) .status)) (completeRunning s)

/-- A command word issued and, when it is accepted, run in one atomic step (10_state.md R40): a word that is a command runs as `exec` says, any
other is rejected (60_exceptions.md R203). -/
def runCommand (w : Word) (s : State) : Host.Outcome State Fault Refusal :=
  match decodeWord w with
  | .ok i => exec i (answer .ack s)
  | .error _ => .next (rejectIllegal w (answer .ack s))

/-- One turn. -/
def runTurn (t : Turn) (s : State) : Host.Outcome State Fault Refusal :=
  match t with
  | .hostWrite addr size v => .next (hostWrite addr size v s)
  | .hostRead addr size => .next (hostRead addr size s)
  | .hostCellWrite row col c => hostCellWrite row col c s
  | .hostCellRead row col => hostCellRead row col s
  | .hardwareReset => .next (resetBlock s)
  | .blockAccess k => .next (accessMatrix k s)
  | .blockCompletes => .next (completeRunning s)
  | .blockWritesFmtId => .next (runFmtId s)
  | .hostWait => .next (hostWait s)
  | .command w => runCommand w s

/-- The next turn: the first of the schedule. With none left the block still completes what it runs (70_reset_and_hazards.md
R245: "an accepted command eventually completes"; notes/assumptions/3.md). -/
def nextTurn (s : State) : Turn := s.schedule.headD .blockCompletes

/-- The state with its next turn taken off the schedule. -/
def popTurn (s : State) : State := withSchedule s.schedule.tail s

/-- The command word placed where the next turn takes it. -/
def pushCommand (w : Word) (s : State) : State := withSchedule (.command w :: s.schedule) s

end Sys2Proof.Machine
end

