-- ==== Sys2Proof/Machine/Step.lean ====
section
/-! DEFINITION. One step of the machine: the next turn of the schedule. -/

namespace Sys2Proof.Machine

/-- One step. -/
def step (s : State) : Host.Outcome State Fault Refusal := runTurn (nextTurn s) (popTurn s)

/-- The state whose next step issues and runs the command word `w` (notes/assumptions/2.md). A command has 32 bits
(30_encoding.md R80). -/
def State.withFetchWord (s : State) (_nbits w : Nat) : State := pushCommand (BitVec.ofNat 32 w) s

end Sys2Proof.Machine
end

