-- ==== Sys2Proof/Machine/Assembler.lean ====
section
/-! DEFINITION. The assembler and the host's program notation (30_encoding.md R86, R87, R88). A line of text is a list of
characters. -/

namespace Sys2Proof.Machine

/-- R84: the command a mnemonic names, in capitals. -/
def mnemonicInstr (name : List Char) (o : Operands) : Option Instr :=
  if name = ['N', 'O', 'P'] then some (.nop o)
  else if name = ['F', 'C', 'A', 'L', 'C'] then some (.fcalc o)
  else if name = ['F', 'C', 'A', 'L', 'C', 'M'] then some (.fcalcm o)
  else if name = ['V', 'C', 'A', 'L', 'C'] then some (.vcalc o)
  else if name = ['F', 'W', 'R', 'I', 'T', 'E'] then some (.fwrite o)
  else if name = ['V', 'W', 'R', 'I', 'T', 'E'] then some (.vwrite o)
  else if name = ['E', 'N', 'C', 'F', 'V'] then some (.encfv o)
  else if name = ['S', 'C', 'O', 'R', 'E'] then some (.score o)
  else if name = ['B', 'E', 'S', 'T', 'C', 'L', 'R'] then some (.bestclr o)
  else none

/-- The value of a digit, of either case (DESIGN CHOICE, notes/assumptions/27.md). -/
def digitValue (c : Char) : Option Nat :=
  let n := c.toNat
  if 48 ≤ n ∧ n ≤ 57 then some (n - 48)
  else if 65 ≤ n ∧ n ≤ 70 then some (n - 55)
  else if 97 ≤ n ∧ n ≤ 102 then some (n - 87)
  else none

/-- A non-empty digit string in a base, after a number already read. -/
def digitsValue (base : Nat) : Nat → List Char → Option Nat
  | acc, [] => some acc
  | acc, c :: cs =>
    match digitValue c with
    | some d => if d < base then digitsValue base (base * acc + d) cs else none
    | none => none

/-- R86: a decimal or 0x-prefixed number. -/
def numberValue : List Char → Option Nat
  | [] => none
  | '0' :: 'x' :: c :: cs => digitsValue 16 0 (c :: cs)
  | c :: cs => digitsValue 10 0 (c :: cs)

/-- A text without the spaces at its ends; the space character is the only blank (DESIGN CHOICE,
notes/assumptions/27.md). -/
def trimSpaces (cs : List Char) : List Char :=
  ((cs.dropWhile (· == ' ')).reverse.dropWhile (· == ' ')).reverse

/-- The pieces of a text between its commas. -/
def splitCommas : List Char → List (List Char)
  | [] => [[]]
  | c :: cs =>
    match splitCommas cs with
    | [] => [[c]]
    | p :: ps => if c = ',' then [] :: p :: ps else (c :: p) :: ps

/-- R86: a mnemonic, in capitals, with its `.ld` suffix taken off; the suffix may stand in either case (DESIGN CHOICE,
notes/assumptions/27.md). -/
def withoutLd (name : List Char) : Option (List Char) :=
  match name.reverse with
  | 'D' :: 'L' :: '.' :: rest => some rest.reverse
  | _ => none

/-- A line without its comment, which runs from the first `;` to the end: R86 gives no comments, and the programs of
95_test_vectors.md §3 carry them (DEDUCED, notes/assumptions/28.md). -/
def withoutComment (line : List Char) : List Char := trimSpaces (line.takeWhile (· != ';'))

/-- R86: the mnemonic of a line, in capitals since mnemonics are not case-sensitive, and the text after it. Any number of
spaces may stand around the mnemonic and around each operand (DESIGN CHOICE, notes/assumptions/27.md). -/
def lineParts (line : List Char) : List Char × List Char :=
  let text := withoutComment line
  ((text.takeWhile (· != ' ')).map Char.toUpper, trimSpaces (text.dropWhile (· != ' ')))

/-- R86: the numbers of an operand list; `none` stands where an operand is no number. -/
def operandValues (args : List Char) : List (Option Nat) :=
  (splitCommas args).map fun a => numberValue (trimSpaces a)

/-- R86: "An assembler rejects a value that does not fit": commands, when the operands of each fit their fields. -/
def fitting (is : List Instr) : Option (List Instr) := if is.all (·.wf) then some is else none

/-- R86: a line `MNEMONIC` or `MNEMONIC.ld v, m, f`, as its mnemonic and operand text. -/
def plainLine (name args : List Char) : Option (List Instr) :=
  match withoutLd name with
  | none => if args = [] then (mnemonicInstr name Operands.plain).map ([·]) else none
  | some short =>
    match operandValues args with
    | [some v, some m, some f] => (mnemonicInstr short (Operands.ld v m f)).bind fun i => fitting [i]
    | _ => none

/-- R88: `LOAD v, m, f`; a value that does not fit is rejected, as R86 says of the assembler. -/
def pseudoLoad (v m f : Nat) : Option (List Instr) := fitting [.nop (.ld v m f)]

/-- R88: `TRYMASK v, m`; a value that does not fit is rejected. -/
def pseudoTryMask (v m : Nat) : Option (List Instr) := fitting [.encfv (.ld v m 0), .score .plain]

/-- R88: `FORMAT m`; a value that does not fit is rejected. -/
def pseudoFormat (m : Nat) : Option (List Instr) := fitting [.fcalcm (.ld 0 m 0)]

/-- R88: a line of a pseudo-command, as its mnemonic and operand text, and the plain commands it expands into. Its name and
its numbers are written as R86 says of the plain commands (DEDUCED, notes/assumptions/27.md). -/
def pseudoLine (name args : List Char) : Option (List Instr) :=
  match operandValues args with
  | [some v, some m, some f] => if name = ['L', 'O', 'A', 'D'] then pseudoLoad v m f else none
  | [some v, some m] => if name = ['T', 'R', 'Y', 'M', 'A', 'S', 'K'] then pseudoTryMask v m else none
  | [some m] => if name = ['F', 'O', 'R', 'M', 'A', 'T'] then pseudoFormat m else none
  | _ => none

/-- R86, R88: the commands of one line of assembly: one for a plain command, the expansion for a pseudo-command; `none`
where the assembler rejects the line. A line with no command on it is rejected (DESIGN CHOICE,
notes/assumptions/28.md). -/
def assembleLine (line : List Char) : Option (List Instr) :=
  let (name, args) := lineParts line
  (plainLine name args).or (pseudoLine name args)

/-- R86, R88: the command words of a line. -/
def assemble (line : List Char) : Option (List Word) := (assembleLine line).map fun is => is.map encode

/-- R87: `wr REG, value`. -/
def wr (r : Reg) (v : Word) : Turn := .hostWrite r.address 4 v

/-- R87: `rd REG`. -/
def rd (r : Reg) : Turn := .hostRead r.address 4

/-- R87: `cmd <assembly>`. -/
def cmd (i : Instr) : Turn := wr .cmd (encode i)

/-- R87: `wait`. -/
def wait : Turn := .hostWait

/-- R88: commands one after the other, each `cmd` followed by `wait`. -/
def program (is : List Instr) : List Turn := is.flatMap fun i => [cmd i, wait]

/-- A raw command word in the place of assembly, in the number forms of R86, when it fits 32 bits. R87 gives only
`cmd <assembly>`, and 95_test_vectors.md E4 to E6 and P4 write a word there, which need be no legal command (DEDUCED,
notes/assumptions/28.md). -/
def rawWord (line : List Char) : Option Word :=
  (numberValue (withoutComment line)).bind fun n => if n < 2 ^ 32 then some (BitVec.ofNat 32 n) else none

/-- R87, R88: the turns of the statement `cmd <assembly>`. A plain command is the one CMD write of R87; each `cmd` of a
pseudo-command's expansion is followed by `wait`. A raw command word is written to CMD as it stands (DEDUCED,
notes/assumptions/28.md). -/
def cmdLine (line : List Char) : Option (List Turn) :=
  let (name, args) := lineParts line
  (((plainLine name args).map fun is => is.map cmd).or ((pseudoLine name args).map program)).or
    ((rawWord line).map fun w => [wr .cmd w])

end Sys2Proof.Machine
end

