-- ==== Sys2Proof/Safety.lean ====
section
/-! DEFINITION. What the spec promises of the state at all times (the invariants of a run) and what a safe run is. -/

namespace Sys2Proof.Machine

/-- 10_state.md R26, R36: ERRCODE is 0 and ERR_INFO is 0 when ERR = 0; when ERR = 1 there is a code. -/
def ErrorFieldsAgree (s : State) : Prop :=
  (s.err = false → s.errCode = .none ∧ s.errInfo = 0) ∧ (s.err = true → s.errCode ≠ .none)

/-- 10_state.md R26: VER_VALID is 1 only when VER_WORD holds `VERSIONS[VERSION]` for the present VERSION. -/
def VersionWordAgrees (s : State) : Prop :=
  s.verValid = true →
    legalVersion s.version = true ∧ hasVersionWord s.version = true ∧ s.verWord = versionWord s.version

/-- 41_penalty.md R155: a tracker that holds nothing reads as after reset. -/
def TrackerAgrees (s : State) : Prop := s.bestValid = false → s.bestPenalty = 0xFFFFFFFF ∧ s.bestMask = 0

/-- 10_state.md R28: RULE3_MODE is 1 only in a block that implements mode 1. -/
def ModeImplemented (s : State) : Prop := s.rule3Mode = .patterns → Config.rule3Mode1Impl = true

/-- 10_state.md R32, R40, 60_exceptions.md R205: while a command runs, the operand registers hold what was latched, FMT_ID
or what the command writes there, and the latched command passed the acceptance check. -/
def LatchAgrees (s : State) : Prop :=
  ∀ l, s.seq = .run l →
    l.command.wf = true ∧ l.version = s.version ∧ l.mask = s.mask ∧ (s.fmtId = l.fmtId ∨ commandFmtId l = some s.fmtId) ∧ l.rule3Mode = s.rule3Mode ∧
      (needsVersion l.command = true → legalVersion l.version = true) ∧
      (needsVersionWord l.command = true → hasVersionWord l.version = true → s.verValid = true)

/-- The state invariant. -/
structure Inv (s : State) : Prop where
  memory : s.mem.wf = true
  errors : ErrorFieldsAgree s
  versionWord : VersionWordAgrees s
  tracker : TrackerAgrees s
  mode : ModeImplemented s
  latched : LatchAgrees s
  /-- 00_scope.md R6 -/
  params : s.params.legal = true

/-- 41_penalty.md R151, R152: the penalty registers stay within the bounds of the rules, PEN_TOTAL is their sum, and a
tracked penalty is a possible total. -/
structure PenaltiesBounded (s : State) : Prop where
  runs : s.penR1.toNat ≤ 61950
  blocks : s.penR2.toNat ≤ 92928
  patterns : s.penR3.toNat ≤ 2364720
  balance : s.penR4.toNat ≤ 100
  dark : s.darkCount.toNat ≤ 31329
  total : s.penTotal.toNat = s.penR1.toNat + s.penR2.toNat + s.penR3.toNat + s.penR4.toNat
  best : s.bestValid = true → s.bestPenalty.toNat ≤ 61950 + 92928 + 2364720 + 100

/-- 10_state.md R41: while a SCORE runs, the hidden scan is the scan of the matrix held, some number of cells in. -/
def ScanOnTrack (s : State) : Prop :=
  ∀ l, s.seq = .run l → readsMatrix l = true →
    ∃ k, s.psc = scanSteps l.rule3Mode (sideOf l.version) (colorAt s.mem) k (PscWork.start (sideOf l.version))

/-- 20_memory.md R69, 70_reset_and_hazards.md R237: the turn is no host access of a cell that the running command
owns. -/
def respectsOwnership (t : Turn) (s : State) : Bool :=
  match t with
  | .hostCellWrite row col _ => !ownsCell s row.toNat col.toNat
  | .hostCellRead row col => !ownsCell s row.toNat col.toNat
  | .hostWrite _ _ _ => true
  | .hostRead _ _ => true
  | .hardwareReset => true
  | .blockAccess _ => true
  | .blockCompletes => true
  | .blockWritesFmtId => true
  | .hostWait => true
  | .command _ => true

/-- 60_exceptions.md R205: a CMD write now goes past steps 1 and 2 of the acceptance check: ERR = 0, BUSY = 0. -/
abbrev Ready (s : State) : Prop := s.err = false ∧ s.seq = .idle

/-- A safe step: it answers a next state. -/
def StepsOn (s : State) : Prop := ∃ t, step s = .next t

/-- A safe run of `k` steps: none of them stops. -/
def RunsOn : Nat → State → Prop
  | 0, _ => True
  | k + 1, s => ∃ t, step s = .next t ∧ RunsOn k t

end Sys2Proof.Machine
end

