-- ==== Sys2Proof/Certificates/Slice0/Obligations.lean ====
section
/-! DEFINITION. The statements for the provers. Each docstring names the rule of spec/ that its statement formalises. -/

namespace Sys2Proof.Spec

open Sys2Proof.Machine

/-! ## Words of the spec used by several statements -/

/-- 60_exceptions.md R203: the ILLEGAL_CMD condition, in the spec's mask form. -/
abbrev illegalWord (w : Word) : Prop := w &&& 0x60F8C0F0#32 ≠ 0#32 ∨ 8 < (w.extractLsb' 0 4).toNat

/-- 60_exceptions.md R202: the version V' of a CMD write. -/
abbrev wordVersion (w : Word) (s : State) : BitVec 6 := if w.getLsbD 31 then w.extractLsb' 8 6 else s.version

/-- 60_exceptions.md R202: the BAD_VERSION condition. -/
abbrev badVersionWord (w : Word) (s : State) : Prop :=
  3 ≤ (w.extractLsb' 0 4).toNat ∧ (w.extractLsb' 0 4).toNat ≤ 7 ∧
    ((wordVersion w s).toNat < 1 ∨ 40 < (wordVersion w s).toNat)

/-- 60_exceptions.md R204: the NO_VER_WORD condition. -/
abbrev noVersionWord (w : Word) (s : State) : Prop :=
  (w.extractLsb' 0 4).toNat = 5 ∧ 7 ≤ (wordVersion w s).toNat ∧ (if w.getLsbD 31 then false else s.verValid) = false

/-- 60_exceptions.md R206: a state with an error raised. -/
abbrev withError (code : ErrorCode) (info : Word) (s : State) : State :=
  { s with err := true, errCode := code, errInfo := info }

/-- 30_encoding.md R82: a state after the operand load of the word `w`. -/
abbrev loadedBy (w : Word) (s : State) : State :=
  if w.getLsbD 31 then
    { s with version := w.extractLsb' 8 6, verValid := false, mask := w.extractLsb' 16 3, fmtId := w.extractLsb' 24 5 }
  else s

/-- 30_encoding.md R82: a state after the operand load of a command with the operands `o`. -/
abbrev loaded (o : Operands) (s : State) : State :=
  if o.load then
    { s with version := BitVec.ofNat 6 o.v, verValid := false, mask := BitVec.ofNat 3 o.m, fmtId := BitVec.ofNat 5 o.f }
  else s

/-- 10_state.md R40: what the running command does before its completion: `some k` is the turn of an access of the matrix,
`none` the turn of its write of FMT_ID. -/
def moveTurn : Option Nat → Turn
  | some k => .blockAccess k
  | none => .blockWritesFmtId

/-- Some moves of the running command, one after the other. -/
def moves (ks : List (Option Nat)) (s : State) : State :=
  ks.foldl (fun s k => match k with | some k => accessMatrix k s | none => runFmtId s) s

/-- 10_state.md R22: how many bits of a register are used. -/
def usedWidth : Reg → Nat
  | .id => 32
  | .cmd => 0
  | .status => 10
  | .ctrl => 3
  | .version => 6
  | .mask => 3
  | .fmtId => 5
  | .fmtWord => 15
  | .verWord => 18
  | .penTotal => 32
  | .penR1 => 32
  | .penR2 => 32
  | .penR3 => 32
  | .penR4 => 32
  | .darkCount => 15
  | .bestPenalty => 32
  | .bestMask => 3
  | .size => 9
  | .errInfo => 32

/-- 10_state.md R22: what a register reads after reset. -/
def resetValue : Reg → Word
  | .id => 0x51524656
  | .cmd => 0
  | .status => 0
  | .ctrl => 0
  | .version => 0
  | .mask => 0
  | .fmtId => 0
  | .fmtWord => 0
  | .verWord => 0
  | .penTotal => 0
  | .penR1 => 0
  | .penR2 => 0
  | .penR3 => 0
  | .penR4 => 0
  | .darkCount => 0
  | .bestPenalty => 0xFFFFFFFF
  | .bestMask => 0
  | .size => 17
  | .errInfo => 0

/-- 40_format_version.md R105: the product over GF(2) of a quotient and the format generator. -/
def formatProduct (q : BitVec 5) (g : BitVec 11) : BitVec 15 :=
  (List.range 5).foldl (fun acc i => if q.getLsbD i then acc ^^^ (g.setWidth 15 <<< i) else acc) 0

/-- 40_format_version.md R107: the product over GF(2) of a quotient and the version generator 0x1F25. -/
def versionProduct (q : BitVec 6) : BitVec 18 :=
  (List.range 6).foldl (fun acc i => if q.getLsbD i then acc ^^^ ((0x1F25#13).setWidth 18 <<< i) else acc) 0

/-- 41_penalty.md R141: the `len` positions of a line from `k` on are a run: one color, and the positions before and
after lie outside the line or hold the other color. -/
abbrev isRun (colors : List Bool) (k len : Nat) : Prop :=
  0 < len ∧ k + len ≤ colors.length ∧ (∀ j < len, colors[k + j]? = colors[k]?) ∧
    (k = 0 ∨ colors[k - 1]? ≠ colors[k]?) ∧ colors[k + len]? ≠ colors[k]?

/-- 41_penalty.md R147: PAT_A and PAT_B, positions 0 to 10. -/
def patA : List Nat := [1, 0, 1, 1, 1, 0, 1, 0, 0, 0, 0]

/-- 41_penalty.md R147. -/
def patB : List Nat := [0, 0, 0, 0, 1, 0, 1, 1, 1, 0, 1]

/-- 41_penalty.md R147: the 11 colors `w 0` to `w 10` are the pattern. -/
abbrev reads (pattern : List Nat) (w : Nat → Bool) : Prop := ∀ j : Nat, j < 11 → pattern[j]? = some (w j).toNat

/-- 41_penalty.md R143: the reference scan of one line, its pair the penalty so far and `run`. -/
def referenceScan (colors : List Bool) : Nat :=
  ((List.range' 1 colors.length).foldl
    (fun (acc : Nat × Nat) k =>
      if k < colors.length ∧ colors[k]? = colors[k - 1]? then (acc.1, acc.2 + 1)
      else (if 5 ≤ acc.2 then acc.1 + (acc.2 - 2) else acc.1, 1))
    (0, 1)).1

/-- 41_penalty.md R154: the tracker after scores with these totals for the masks 0, 1, 2, … in this order. -/
def trackInOrder (totals : List Word) (s : State) : State :=
  totals.zipIdx.foldl (fun s p => trackBest p.1 (BitVec.ofNat 3 p.2) s) s

end Sys2Proof.Spec

open Sys2Proof Sys2Proof.Machine Sys2Proof.Spec

/-! ## Encoding -/

/-- Words written out in the spec decode to the commands they stand for (30_encoding.md R86 examples;
95_test_vectors.md §2.3, §2.9): at least one of every family. -/
def Obligations.SpecWordsDecodeToTheirCommands : Prop :=
  decodeWord 0x80020706 = .ok (.encfv (.ld 7 2 0)) ∧ decodeWord 0x00000007 = .ok (.score .plain) ∧
  decodeWord 0x8D050100 = .ok (.nop (.ld 1 5 13)) ∧ decodeWord 0x9F000001 = .ok (.fcalc (.ld 0 0 31)) ∧
  decodeWord 0x80070002 = .ok (.fcalcm (.ld 0 7 0)) ∧ decodeWord 0x80002803 = .ok (.vcalc (.ld 40 0 0)) ∧
  decodeWord 0x00000004 = .ok (.fwrite .plain) ∧ decodeWord 0x80000705 = .ok (.vwrite (.ld 7 0 0)) ∧
  decodeWord 0x00000008 = .ok (.bestclr .plain) ∧ decodeWord 0x00000009 = .error .reservedOpcode ∧
  decodeWord 0x00000010 = .error .reservedBits ∧ decodeWord 0x40000007 = .error .reservedBits

/-- Every well-formed command decodes back from its word, with every operand at every value. -/
def Obligations.DecodeReadsBackEveryEncodedCommand : Prop :=
  ∀ i : Instr, i.wf = true →
    decodeWord (encode i) = .ok i ∧ decodeBytes (bytesOfWord (encode i)) = .ok i ∧
      decodeTableWord 32 (encode i).toNat = some i

/-- Every word that decodes is the word of the command it decodes to, and that command is well formed: no bit of a
word is dropped. -/
def Obligations.DecodedWordsEncodeBack : Prop :=
  ∀ (w : Word) (i : Instr), decodeWord w = .ok i → i.wf = true ∧ encode i = w

/-- 30_encoding.md R83, R85, 60_exceptions.md R203: a word is a command exactly when it is legal in mask form, and a CMD
write of any other word, whatever its L, raises ILLEGAL_CMD with the word and does nothing else. -/
def Obligations.IllegalWordsRaiseIllegalCmd : Prop :=
  ∀ w : Word,
    ((∃ i, decodeWord w = .ok i) ↔ ¬ illegalWord w) ∧
    ∀ s : State, Ready s → illegalWord w → cmdWrite w s = withError .illegalCmd w s

/-- A step takes the next command of the schedule, and runs it as `exec` says from the state with that turn taken off
and the write acknowledged; a word that is no command is rejected. `withFetchWord` places a word so. -/
def Obligations.StepRunsTheDecodedCommand : Prop :=
  ∀ (s : State) (w : Word),
    (∀ i rest, s.schedule = .command w :: rest → decodeWord w = .ok i →
      step s = exec i { s with schedule := rest, reply := .ack }) ∧
    (∀ e rest, s.schedule = .command w :: rest → decodeWord w = .error e →
      step s = .next (rejectIllegal w { s with schedule := rest, reply := .ack })) ∧
    (∀ i, decodeWord w = .ok i → step (s.withFetchWord 32 w.toNat) = exec i { s with reply := .ack })

/-- 20_memory.md R61: a step whose turn is a 32-bit host access at a register's address writes or reads that register; at a
reserved offset (10_state.md R22) it is acknowledged and changes nothing, or reads 0. An access of the window of another
width, or not at a multiple of 4, is a bus error at the host and changes nothing in the block (that the run then goes on
is notes/assumptions/8.md); no read changes anything. `wait` (30_encoding.md R87) ends with BUSY = 0, the running command
complete, STATUS as its last read (that this is one step is notes/assumptions/26.md). -/
def Obligations.HostAccessesOfTheRegisterWindow : Prop :=
  (∀ (s : State) (r : Reg) (v : Word) (rest : List Turn),
    (s.schedule = .hostWrite (Config.qrfvBase + r.offset.toNat) 4 v :: rest →
      step s = .next (writeRegister r v { s with schedule := rest, reply := .ack })) ∧
    (s.schedule = .hostRead (Config.qrfvBase + r.offset.toNat) 4 :: rest →
      step s = .next { s with schedule := rest, reply := .data (readRegister s r) })) ∧
  (∀ (s : State) (off : Offset) (v : Word) (rest : List Turn), 0x4C ≤ off.toNat → off.toNat % 4 = 0 →
    (s.schedule = .hostWrite (Config.qrfvBase + off.toNat) 4 v :: rest →
      step s = .next { s with schedule := rest, reply := .ack }) ∧
    (s.schedule = .hostRead (Config.qrfvBase + off.toNat) 4 :: rest →
      step s = .next { s with schedule := rest, reply := .data 0 })) ∧
  (∀ (s : State) (off : Offset) (size : Nat) (v : Word) (rest : List Turn), (size ≠ 4 ∨ off.toNat % 4 ≠ 0) →
    (s.schedule = .hostWrite (Config.qrfvBase + off.toNat) size v :: rest →
      step s = .next { s with schedule := rest, reply := .busError }) ∧
    (s.schedule = .hostRead (Config.qrfvBase + off.toNat) size :: rest →
      step s = .next { s with schedule := rest, reply := .busError })) ∧
  (∀ (s : State) (addr size : Nat), ∃ r, hostRead addr size s = { s with reply := r }) ∧
  ∀ (s : State) (rest : List Turn), s.schedule = .hostWait :: rest →
    ∃ t, step s = .next t ∧ t.busy = false ∧ t.reply = .data (readRegister t .status) ∧
      { t with reply := s.reply } = completeRunning { s with schedule := rest }

/-! ## Acceptance and errors -/

/-- 60_exceptions.md R202 to R205: the acceptance check of a CMD write, step by step, on the bits of the word. What becomes
of the hidden scan is left open. -/
def Obligations.CmdWriteFollowsTheAcceptanceOrder : Prop :=
  ∀ (w : Word) (s : State),
    (s.err = true → cmdWrite w s = s) ∧
    (s.err = false → s.busy = true → cmdWrite w s = withError .busyCmd w s) ∧
    (Ready s → illegalWord w → cmdWrite w s = withError .illegalCmd w s) ∧
    (Ready s → ¬ illegalWord w → badVersionWord w s → cmdWrite w s = withError .badVersion w s) ∧
    (Ready s → ¬ illegalWord w → ¬ badVersionWord w s → noVersionWord w s →
      cmdWrite w s = withError .noVerWord w s) ∧
    (Ready s → ¬ illegalWord w → ¬ badVersionWord w s → ¬ noVersionWord w s →
      ∃ (l : Latched) (p : PscWork), encode l.command = w ∧ l.version = (loadedBy w s).version ∧ l.mask = (loadedBy w s).mask ∧
        l.fmtId = (loadedBy w s).fmtId ∧ l.rule3Mode = s.rule3Mode ∧
        cmdWrite w s = { loadedBy w s with seq := .run l, psc := p })

/-- 30_encoding.md R82: what an accepted CMD write loads, for every opcode, that the command runs with those values, that
a rejected one loads nothing, that the acceptance check reads the values after the load, and that V is checked only by
the commands that need a version. -/
def Obligations.OperandLoadHappensExactlyOnAcceptance : Prop :=
  ∀ (w : Word) (s : State), s.seq = .idle →
    ((cmdWrite w s).busy = true →
      (cmdWrite w s).version = (if w.getLsbD 31 then w.extractLsb' 8 6 else s.version) ∧
      (cmdWrite w s).mask = (if w.getLsbD 31 then w.extractLsb' 16 3 else s.mask) ∧
      (cmdWrite w s).fmtId = (if w.getLsbD 31 then w.extractLsb' 24 5 else s.fmtId) ∧
      (cmdWrite w s).verValid = (if w.getLsbD 31 then false else s.verValid) ∧
      ∀ l, (cmdWrite w s).seq = .run l →
        l.version = (cmdWrite w s).version ∧ l.mask = (cmdWrite w s).mask ∧ l.fmtId = (cmdWrite w s).fmtId) ∧
    ((cmdWrite w s).busy = false →
      (cmdWrite w s).version = s.version ∧ (cmdWrite w s).mask = s.mask ∧ (cmdWrite w s).fmtId = s.fmtId ∧
      (cmdWrite w s).verValid = s.verValid) ∧
    (s.err = false → ¬ illegalWord w →
      ((cmdWrite w s).busy = true ↔
        ¬ (3 ≤ (w.extractLsb' 0 4).toNat ∧ (w.extractLsb' 0 4).toNat ≤ 7 ∧
          ((loadedBy w s).version.toNat < 1 ∨ 40 < (loadedBy w s).version.toNat)) ∧
        ¬ ((w.extractLsb' 0 4).toNat = 5 ∧ 7 ≤ (loadedBy w s).version.toNat ∧ (loadedBy w s).verValid = false)))

/-- 60_exceptions.md R206: raising an error writes the three error fields; a rejected CMD write, and an operand or CTRL write while BUSY, change nothing but the three
error fields. A running command is not affected: it completes as it would have, and sets DONE. -/
def Obligations.RejectionsChangeOnlyTheErrorFields : Prop :=
  ∀ (w : Word) (s : State),
    (∀ code info, s.err = false → raiseError code info s = withError code info s) ∧
    ((cmdWrite w s).seq = s.seq →
      cmdWrite w s = { s with
        err := (cmdWrite w s).err, errCode := (cmdWrite w s).errCode, errInfo := (cmdWrite w s).errInfo }) ∧
    ∀ l, s.seq = .run l →
      (completeRunning (cmdWrite w s) = { completeRunning s with
        err := (cmdWrite w s).err, errCode := (cmdWrite w s).errCode, errInfo := (cmdWrite w s).errInfo } ∧
      (completeRunning (cmdWrite w s)).done = true) ∧
      ∀ r ∈ [Reg.version, .mask, .fmtId, .ctrl], (r = .ctrl → w.getLsbD 31 = false) →
        writeRegister r w s = { s with
          err := (writeRegister r w s).err, errCode := (writeRegister r w s).errCode,
          errInfo := (writeRegister r w s).errInfo } ∧
        completeRunning (writeRegister r w s) = { completeRunning s with
          err := (writeRegister r w s).err, errCode := (writeRegister r w s).errCode,
          errInfo := (writeRegister r w s).errInfo }

/-- 60_exceptions.md R207: while ERR = 1 a CMD write is dropped, and so is the error of a write while BUSY; register
writes that raise no error still work. -/
def Obligations.TheFirstErrorIsKept : Prop :=
  ∀ (s : State) (v : Word), s.err = true →
    cmdWrite v s = s ∧ (∀ i : Instr, exec i s = .next s) ∧
    (s.busy = true →
      writeRegister .version v s = s ∧ writeRegister .mask v s = s ∧ writeRegister .fmtId v s = s ∧
      (v.getLsbD 31 = false → writeRegister .ctrl v s = s)) ∧
    (s.busy = false →
      writeRegister .version v s = { s with version := v.extractLsb' 0 6, verValid := false } ∧
      writeRegister .mask v s = { s with mask := v.extractLsb' 0 3 } ∧
      writeRegister .fmtId v s = { s with fmtId := v.extractLsb' 0 5 } ∧
      (v.getLsbD 31 = false → writeRegister .ctrl v s = storeCtrl v s)) ∧
    (v.getLsbD 31 = true → writeRegister .ctrl v s = resetBlock s) ∧
    (writeRegister .status v s).done = (s.done && !v.getLsbD 1) ∧
    (writeRegister .status v s).err = !v.getLsbD 2

/-- 60_exceptions.md R208: a write to STATUS with bit 2 set clears ERR, ERRCODE and ERR_INFO and restores nothing else;
the resets clear them too. After the clear a CMD write is checked afresh. -/
def Obligations.ClearingAnErrorRestoresNothingElse : Prop :=
  ∀ (s : State) (v : Word), v.getLsbD 2 = true →
    writeRegister .status v s =
      { s with err := false, errCode := .none, errInfo := 0, done := if v.getLsbD 1 then false else s.done } ∧
    (∃ t, runTurn .hardwareReset s = .next t ∧ t.err = false ∧ t.errCode = .none ∧ t.errInfo = 0) ∧
    (∀ w : Word, w.getLsbD 31 = true →
      let t := writeRegister .ctrl w s
      t.err = false ∧ t.errCode = .none ∧ t.errInfo = 0) ∧
    ∀ w, s.seq = .idle →
      let t := writeRegister .status v s
      (illegalWord w → cmdWrite w t = withError .illegalCmd w t) ∧
      (¬ illegalWord w → badVersionWord w t → cmdWrite w t = withError .badVersion w t) ∧
      (¬ illegalWord w → ¬ badVersionWord w t → noVersionWord w t → cmdWrite w t = withError .noVerWord w t) ∧
      (¬ illegalWord w → ¬ badVersionWord w t → ¬ noVersionWord w t → (cmdWrite w t).busy = true)

/-- 10_state.md R32: while BUSY = 1 a write to VERSION, MASK, FMT_ID, or to CTRL with bit 31 = 0, is ignored and raises
BUSY_WRITE with the register's offset, dropped when ERR = 1; a soft reset and a STATUS write are never ignored. -/
def Obligations.OperandWritesWhileBusyAreIgnored : Prop :=
  ∀ (s : State) (v : Word), s.busy = true →
    (s.err = false →
      writeRegister .version v s = withError .busyWrite 0x10 s ∧
      writeRegister .mask v s = withError .busyWrite 0x14 s ∧
      writeRegister .fmtId v s = withError .busyWrite 0x18 s ∧
      (v.getLsbD 31 = false → writeRegister .ctrl v s = withError .busyWrite 0x0C s)) ∧
    (s.err = true →
      writeRegister .version v s = s ∧ writeRegister .mask v s = s ∧ writeRegister .fmtId v s = s ∧
      (v.getLsbD 31 = false → writeRegister .ctrl v s = s)) ∧
    (v.getLsbD 31 = true → writeRegister .ctrl v s = resetBlock s) ∧
    writeRegister .status v s = storeStatus v s

/-- 60_exceptions.md R200: errors come from CMD writes and from operand or CTRL writes while BUSY, and from nothing
else; a command once accepted raises none, completes, and sets DONE. -/
def Obligations.ErrorsComeOnlyFromTheTwoKindsOfEvent : Prop :=
  (∀ s t : State, step s = .next t → s.err = false → t.err = true →
    (∃ w, nextTurn s = .command w) ∨ (∃ w, nextTurn s = .hostWrite Reg.cmd.address 4 w) ∨
    (s.busy = true ∧ ∃ v, nextTurn s = .hostWrite Reg.version.address 4 v ∨
      nextTurn s = .hostWrite Reg.mask.address 4 v ∨ nextTurn s = .hostWrite Reg.fmtId.address 4 v ∨
      (nextTurn s = .hostWrite Reg.ctrl.address 4 v ∧ v.getLsbD 31 = false))) ∧
  (∀ (s : State) (l : Latched), s.seq = .run l →
    (completeRunning s).done = true ∧ (completeRunning s).seq = .idle ∧ (completeRunning s).err = s.err ∧
    (completeRunning s).errCode = s.errCode ∧ (completeRunning s).errInfo = s.errInfo)

/-! ## Registers -/

/-- 10_state.md R22: the register map: which register stands at which offset and what it reads after reset; the reserved
offsets read 0 and ignore writes. -/
def Obligations.RegisterMapIsTheSpecs : Prop :=
  (Reg.all.map fun r => r.offset.toNat) =
    [0x00, 0x04, 0x08, 0x0C, 0x10, 0x14, 0x18, 0x1C, 0x20, 0x24, 0x28, 0x2C, 0x30, 0x34, 0x38, 0x3C, 0x40, 0x44, 0x48] ∧
  (∀ (r : Reg), regAt r.offset = some r ∧ readRegister State.reset r = resetValue r) ∧
  (∀ (off : Offset) (s : State) (v : Word), 0x4C ≤ off.toNat → readOffset s off = 0 ∧ writeOffset off v s = s)

/-- 10_state.md R23 (with the places of R26 and R28): every register's used bits read in their places and every bit above
its used width reads 0; a write of a read-only register is ignored, and so are the bits above a read-write register's
used width. -/
def Obligations.UsedBitsReadInPlaceAndOthersAreInert : Prop :=
  ∀ (s : State) (v : Word),
    (∀ (r : Reg) (i : Nat), usedWidth r ≤ i → (readRegister s r).getLsbD i = false) ∧
    (readRegister s .status).toNat =
      (if s.busy then 1 else 0) + (if s.done then 2 else 0) + (if s.err then 4 else 0) +
        16 * s.errCode.toBits.toNat + (if s.verValid then 256 else 0) + (if s.bestValid then 512 else 0) ∧
    (readRegister s .ctrl).toNat = (if s.irqEn then 1 else 0) + 2 * (if s.rule3Mode = .patterns then 1 else 0) ∧
    ((readRegister s .version).toNat = s.version.toNat ∧ (readRegister s .mask).toNat = s.mask.toNat ∧
      (readRegister s .fmtId).toNat = s.fmtId.toNat ∧ (readRegister s .fmtWord).toNat = s.fmtWord.toNat ∧
      (readRegister s .verWord).toNat = s.verWord.toNat ∧ (readRegister s .darkCount).toNat = s.darkCount.toNat ∧
      (readRegister s .bestMask).toNat = s.bestMask.toNat) ∧
    (readRegister s .id = 0x51524656 ∧ readRegister s .cmd = 0 ∧ readRegister s .penTotal = s.penTotal ∧
      readRegister s .penR1 = s.penR1 ∧ readRegister s .penR2 = s.penR2 ∧ readRegister s .penR3 = s.penR3 ∧
      readRegister s .penR4 = s.penR4 ∧ readRegister s .bestPenalty = s.bestPenalty ∧
      (readRegister s .size).toNat = 4 * s.version.toNat + 17 ∧ readRegister s .errInfo = s.errInfo) ∧
    (∀ r ∈ [Reg.id, .fmtWord, .verWord, .penTotal, .penR1, .penR2, .penR3, .penR4, .darkCount, .bestPenalty, .bestMask,
      .size, .errInfo], writeRegister r v s = s) ∧
    writeRegister .version v s = writeRegister .version (v &&& 0x3F#32) s ∧
    writeRegister .mask v s = writeRegister .mask (v &&& 0x7#32) s ∧
    writeRegister .fmtId v s = writeRegister .fmtId (v &&& 0x1F#32) s ∧
    writeRegister .ctrl v s = writeRegister .ctrl (v &&& 0x80000007#32) s ∧
    writeRegister .status v s = writeRegister .status (v &&& 0x6#32) s

/-- 10_state.md R29, R30 (and R31, of FMT_ID): a write to VERSION stores bits [5:0] unchanged, whatever they are, and
clears VER_VALID, even when the value is the old one, and the operand load does so too; a value outside 1 to 40 is only
rejected when a command that needs a version is issued. MASK and FMT_ID hold any value of their bits. None of these
writes changes anything else. -/
def Obligations.OperandRegistersStoreTheirBits : Prop :=
  ∀ (s : State) (v : Word), s.seq = .idle →
    writeRegister .version v s = { s with version := v.extractLsb' 0 6, verValid := false } ∧
    readRegister (writeRegister .version v s) .version = v &&& 0x3F#32 ∧
    (∀ o : Operands, o.load = true → o.wf = true →
      (loadOperands o s).version.toNat = o.v ∧ (loadOperands o s).verValid = false) ∧
    (s.err = false → ∀ w, ¬ illegalWord w →
      let t := cmdWrite w (writeRegister .version v s)
      ((t.err = true ∧ t.errCode = .badVersion) ↔ badVersionWord w (writeRegister .version v s))) ∧
    writeRegister .mask v s = { s with mask := v.extractLsb' 0 3 } ∧
    readRegister (writeRegister .mask v s) .mask = v &&& 0x7#32 ∧
    writeRegister .fmtId v s = { s with fmtId := v.extractLsb' 0 5 } ∧
    readRegister (writeRegister .fmtId v s) .fmtId = v &&& 0x1F#32

/-- 10_state.md R28: CTRL: IRQ_EN, the write-any-read-legal RULE3_MODE for either value of the parameter, SRESET. -/
def Obligations.ControlWritesKeepOnlyLegalModes : Prop :=
  ∀ (s : State) (v : Word),
    (v.getLsbD 31 = true → writeRegister .ctrl v s = resetBlock s) ∧
    (v.getLsbD 31 = false → s.seq = .idle →
      ∃ mode, writeRegister .ctrl v s = { s with irqEn := v.getLsbD 0, rule3Mode := mode } ∧
        (mode = .patterns ↔ v.extractLsb' 1 2 = 1#2 ∧ Config.rule3Mode1Impl = true)) ∧
    (readRegister s .ctrl).getLsbD 31 = false

/-- 10_state.md R26, R27: what a STATUS write does to the whole state: a 1 in bit 1 clears DONE, a 1 in bit 2 clears ERR and
with it ERRCODE and ERR_INFO, and nothing else changes, in RUN as in IDLE. With a completion or an error beside it, the
two orders: set after the clear leaves 1, clear after the set leaves 0 (that simultaneous events are two turns is
notes/assumptions/15.md). -/
def Obligations.StatusBitsAreWriteOneToClear : Prop :=
  ∀ (s : State) (v : Word),
    writeRegister .status v s =
      { s with
        done := s.done && !v.getLsbD 1
        err := s.err && !v.getLsbD 2
        errCode := if v.getLsbD 2 then .none else s.errCode
        errInfo := if v.getLsbD 2 then 0 else s.errInfo } ∧
    (∀ l, s.seq = .run l →
      (completeRunning (writeRegister .status v s)).done = true ∧
      (v.getLsbD 1 = true → (writeRegister .status v (completeRunning s)).done = false)) ∧
    (∀ code info, v.getLsbD 2 = true →
      raiseError code info (writeRegister .status v s) = withError code info (writeRegister .status v s) ∧
      (writeRegister .status v (raiseError code info s)).err = false)

/-- 10_state.md R34: SIZE is read-only and reads 4·VERSION + 17 for every stored VERSION. -/
def Obligations.SizeIsAViewOfVersion : Prop :=
  ∀ s : State, (readRegister s .size).toNat = 4 * s.version.toNat + 17 ∧ (∀ v, writeRegister .size v s = s) ∧
    readRegister State.reset .size = 17 ∧ (s.version = 63 → readRegister s .size = 269)

/-- 60_exceptions.md R210: irq is high exactly while IRQ_EN and one of DONE and ERR are 1; it falls when both are
cleared or IRQ_EN is. -/
def Obligations.InterruptFollowsDoneAndErr : Prop :=
  ∀ s : State,
    (irq s = true ↔ s.irqEn = true ∧ (s.done = true ∨ s.err = true)) ∧
    (∀ l, s.seq = .run l → s.irqEn = true → irq (completeRunning s) = true) ∧
    (∀ code info, s.irqEn = true → irq (raiseError code info s) = true) ∧
    (s.seq = .idle → (s.done = true ∨ s.err = true) → irq (writeRegister .ctrl 1 s) = true) ∧
    irq (writeRegister .status 6 s) = false ∧ (s.seq = .idle → irq (writeRegister .ctrl 0 s) = false)

/-- 70_reset_and_hazards.md R230 to R232, 10_state.md R45: a hardware reset and a write of CTRL with bit 31 set, in every
state, put every register at its reset value, abandon a running command, and leave the matrix memory as it is. -/
def Obligations.ResetsRestoreEveryRegisterAndKeepTheMatrix : Prop :=
  ∀ (s : State) (v : Word), v.getLsbD 31 = true →
    writeRegister .ctrl v s = resetBlock s ∧ runTurn .hardwareReset s = .next (resetBlock s) ∧
    (∀ r : Reg, readRegister (resetBlock s) r = resetValue r) ∧
    (resetBlock s).seq = .idle ∧ irq (resetBlock s) = false ∧ (resetBlock s).mem = s.mem

/-! ## The commands: what each does -/

/-- 42_control.md R180: NOP, its word, and that it completes for every operand and does nothing but the operand load and
DONE. -/
def Obligations.NopCompletes : Prop :=
  encode (.nop .plain) = 0x00000000 ∧
  (∀ v m f, v ≤ 63 → m ≤ 7 → f ≤ 31 → encode (.nop (.ld v m f)) =
    0x80000000#32 ||| (BitVec.ofNat 32 f <<< 24) ||| (BitVec.ofNat 32 m <<< 16) ||| (BitVec.ofNat 32 v <<< 8)) ∧
  ∀ (o : Operands) (s : State), Ready s →
    exec (.nop o) s = .next { loaded o s with done := true } ∧
    (o = .ld 1 5 13 → ∃ t, exec (.nop o) s = .next t ∧ t.version = 1 ∧ t.mask = 5 ∧ t.fmtId = 13 ∧ t.verValid = false ∧
      readRegister t .size = 21)

/-- 40_format_version.md R120: FCALC, its word, and that it completes for every operand, whatever VERSION is, with
FMT_WORD = FORMATS[FMT_ID] under the machine's generator (00_scope.md R6; the example values are those of its default),
and changes nothing else but DONE and what the load writes. -/
def Obligations.FcalcCompletes : Prop :=
  encode (.fcalc .plain) = 0x00000001 ∧
  ∀ (o : Operands) (s : State), Ready s →
    exec (.fcalc o) s = .next { loaded o s with fmtWord := formatWord s.params.g15 (loaded o s).fmtId, done := true } ∧
    ((loaded o s).fmtId = 0 → ∃ t, exec (.fcalc o) s = .next t ∧ t.fmtWord = 0x5412) ∧
    (o = .ld 0 0 15 → s.params.g15 = 0x537 → ∃ t, exec (.fcalc o) s = .next t ∧ t.fmtId = 15 ∧ t.fmtWord = 0x6976)

/-- 40_format_version.md R121: FCALCM, its word, and that it completes for every operand, whatever VERSION is, with
FMT_ID = 8 + MASK and FMT_WORD = FORMATS[FMT_ID] (the values are those of the default generator). -/
def Obligations.FcalcmCompletes : Prop :=
  encode (.fcalcm .plain) = 0x00000002 ∧
  ∀ (o : Operands) (s : State), Ready s →
    exec (.fcalcm o) s = .next
      { loaded o s with
        fmtId := BitVec.ofNat 5 (8 + (loaded o s).mask.toNat)
        fmtWord := formatWord s.params.g15 (BitVec.ofNat 5 (8 + (loaded o s).mask.toNat))
        done := true } ∧
    (s.params.g15 = 0x537 → ∃ t, exec (.fcalcm o) s = .next t ∧
      [0x77C4#15, 0x72F3, 0x7DAA, 0x789D, 0x662F, 0x6318, 0x6C41, 0x6976][(loaded o s).mask.toNat]? = some t.fmtWord) ∧
    (o = .ld 1 3 0 → s.params.g15 = 0x537 → ∃ t, exec (.fcalcm o) s = .next t ∧ t.mask = 3 ∧ t.fmtId = 11 ∧ t.fmtWord = 0x789D)

/-- 40_format_version.md R122: VCALC, its word, and that it completes for every version 1 to 40, with the table's word and
VER_VALID = 1 from 7 on, with 0 and VER_VALID = 0 below; for any other version it raises BAD_VERSION and writes
nothing. -/
def Obligations.VcalcCompletes : Prop :=
  encode (.vcalc .plain) = 0x00000003 ∧
  ∀ (o : Operands) (s : State), Ready s →
    let v := (loaded o s).version
    (1 ≤ v.toNat → v.toNat ≤ 40 →
      exec (.vcalc o) s = .next
        { loaded o s with
          verWord := if 7 ≤ v.toNat then versionWord v else 0, verValid := decide (7 ≤ v.toNat), done := true }) ∧
    (v.toNat < 1 ∨ 40 < v.toNat → exec (.vcalc o) s = .next (withError .badVersion (encode (.vcalc o)) s)) ∧
    (v = 40 → ∃ t, exec (.vcalc o) s = .next t ∧ t.verWord = 0x28C69) ∧
    (o = .ld 7 0 0 → ∃ t, exec (.vcalc o) s = .next t ∧ t.verWord = 0x07C94 ∧ t.verValid = true)

/-- 41_penalty.md R155: BESTCLR, its word, and that it completes for every operand with the tracker empty, so that the next
score takes the tracker whatever its total. -/
def Obligations.BestclrCompletes : Prop :=
  encode (.bestclr .plain) = 0x00000008 ∧
  ∀ (o : Operands) (s : State), Ready s →
    let t := { loaded o s with bestPenalty := 0xFFFFFFFF#32, bestMask := 0, bestValid := false, done := true }
    exec (.bestclr o) s = .next t ∧
    (readRegister t .bestPenalty = 0xFFFFFFFF ∧ readRegister t .bestMask = 0 ∧
      (readRegister t .status).getLsbD 9 = false) ∧
    ∀ (total : Word) (mask : BitVec 3),
      trackBest total mask t = { t with bestPenalty := total, bestMask := mask, bestValid := true }

/-- 40_format_version.md R123: FWRITE, its word, and that it completes for every version 1 to 40: the 30 format cells hold
the bits of FMT_WORD as held and are Functional, every other byte of the matrix memory reads as before, and no register
changes but DONE and what the load writes; for any other version it raises BAD_VERSION and writes nothing. -/
def Obligations.FwriteCompletes : Prop :=
  encode (.fwrite .plain) = 0x00000004 ∧
  ∀ (o : Operands) (s : State), Ready s →
    let v := (loaded o s).version
    let n := 4 * v.toNat + 17
    (s.mem.wf = true → 1 ≤ v.toNat → v.toNat ≤ 40 →
      ∃ m, exec (.fwrite o) s = .next { loaded o s with mem := m, done := true } ∧
        (∀ i < 15,
          matRead m (copyA i).1 (copyA i).2 = { color := s.fmtWord.getLsbD i, kind := .functional } ∧
          matRead m (copyB n i).1 (copyB n i).2 = { color := s.fmtWord.getLsbD i, kind := .functional }) ∧
        (∀ a, (∀ i < 15, a ≠ cellAddress (copyA i).1 (copyA i).2 ∧ a ≠ cellAddress (copyB n i).1 (copyB n i).2) →
          m.read a = s.mem.read a) ∧
        (v = 1 → s.fmtWord = 0x77C4 →
          colorAt m 8 0 = true ∧ colorAt m 0 8 = false ∧ colorAt m 8 20 = false)) ∧
    (v.toNat < 1 ∨ 40 < v.toNat → exec (.fwrite o) s = .next (withError .badVersion (encode (.fwrite o)) s))

/-- 40_format_version.md R124: VWRITE, its word, and that it completes for a version 7 to 40 with VER_VALID: the 36 version
cells hold the bits of VER_WORD and are Functional, every other byte reads as before; for a version 1 to 6 it completes
and writes no cell. For any other version it raises BAD_VERSION, and from 7 on without VER_VALID it raises NO_VER_WORD,
and writes nothing. -/
def Obligations.VwriteCompletes : Prop :=
  encode (.vwrite .plain) = 0x00000005 ∧
  ∀ (o : Operands) (s : State), Ready s →
    let v := (loaded o s).version
    let n := 4 * v.toNat + 17
    (s.mem.wf = true → 7 ≤ v.toNat → v.toNat ≤ 40 → (loaded o s).verValid = true →
      ∃ m, exec (.vwrite o) s = .next { loaded o s with mem := m, done := true } ∧
        (∀ i < 18,
          matRead m (i / 3) (n - 11 + i % 3) = { color := s.verWord.getLsbD i, kind := .functional } ∧
          matRead m (n - 11 + i % 3) (i / 3) = { color := s.verWord.getLsbD i, kind := .functional }) ∧
        (∀ a, (∀ i < 18, a ≠ cellAddress (i / 3) (n - 11 + i % 3) ∧ a ≠ cellAddress (n - 11 + i % 3) (i / 3)) →
          m.read a = s.mem.read a) ∧
        (v = 7 → s.verWord = 0x07C94 →
          (colorAt m 0 36 = true ∧ colorAt m 36 0 = true) ∧ colorAt m 0 34 = false ∧ colorAt m 34 0 = false)) ∧
    (1 ≤ v.toNat → v.toNat ≤ 6 → exec (.vwrite o) s = .next { loaded o s with done := true }) ∧
    (v.toNat < 1 ∨ 40 < v.toNat → exec (.vwrite o) s = .next (withError .badVersion (encode (.vwrite o)) s)) ∧
    (7 ≤ v.toNat → v.toNat ≤ 40 → (loaded o s).verValid = false →
      exec (.vwrite o) s = .next (withError .noVerWord (encode (.vwrite o)) s))

/-- 40_format_version.md R125: ENCFV, its words, and that it completes for every version 1 to 40, VER_VALID or not, with
the registers of FCALCM and VCALC, the 30 format cells holding the new FMT_WORD and, from version 7 on, the 36 version
cells holding the new VER_WORD, all Functional; every other byte reads as before. For any other version it raises
BAD_VERSION and writes nothing. -/
def Obligations.EncfvCompletes : Prop :=
  encode (.encfv .plain) = 0x00000006 ∧
  (∀ v m, v ≤ 63 → m ≤ 7 → encode (.encfv (.ld v m 0)) =
    0x80000006#32 ||| (BitVec.ofNat 32 m <<< 16) ||| (BitVec.ofNat 32 v <<< 8)) ∧
  ∀ (o : Operands) (s : State), Ready s →
    let v := (loaded o s).version
    let n := 4 * v.toNat + 17
    let fid := BitVec.ofNat 5 (8 + (loaded o s).mask.toNat)
    let word := formatWord s.params.g15 fid
    (s.mem.wf = true → 1 ≤ v.toNat → v.toNat ≤ 40 →
      ∃ m, exec (.encfv o) s = .next
          { loaded o s with
            fmtId := fid, fmtWord := word
            verWord := if 7 ≤ v.toNat then versionWord v else 0, verValid := decide (7 ≤ v.toNat)
            mem := m, done := true } ∧
        (∀ i < 15,
          matRead m (copyA i).1 (copyA i).2 = { color := word.getLsbD i, kind := .functional } ∧
          matRead m (copyB n i).1 (copyB n i).2 = { color := word.getLsbD i, kind := .functional }) ∧
        (7 ≤ v.toNat → ∀ i < 18,
          matRead m (i / 3) (n - 11 + i % 3) = { color := (versionWord v).getLsbD i, kind := .functional } ∧
          matRead m (n - 11 + i % 3) (i / 3) = { color := (versionWord v).getLsbD i, kind := .functional }) ∧
        (∀ a, (∀ i < 15, a ≠ cellAddress (copyA i).1 (copyA i).2 ∧ a ≠ cellAddress (copyB n i).1 (copyB n i).2) →
          (7 ≤ v.toNat → ∀ i < 18, a ≠ cellAddress (i / 3) (n - 11 + i % 3) ∧
            a ≠ cellAddress (n - 11 + i % 3) (i / 3)) →
          m.read a = s.mem.read a) ∧
        (o = .ld 7 2 0 → s.mem = [] → s.params.g15 = 0x537 →
          m.length = 66 ∧ (m.countP fun c => (CellRec.ofByte c.2).color) = 36 ∧ fid = 10 ∧ word = 0x7DAA ∧
            versionWord v = 0x07C94)) ∧
    (v.toNat < 1 ∨ 40 < v.toNat → exec (.encfv o) s = .next (withError .badVersion (encode (.encfv o)) s))

/-- 41_penalty.md R150: SCORE, its word, and that it completes for every version 1 to 40 with the penalties of the matrix's
colors, the dark count, and the tracker's content replaced when it held nothing or a higher penalty; the matrix is
unchanged. For any other version it raises BAD_VERSION and changes nothing. What the hidden scan (10_state.md R41) is
left at is the model's choice (notes/assumptions/13.md): the statement leaves it open. -/
def Obligations.ScoreCompletes : Prop :=
  encode (.score .plain) = 0x00000007 ∧
  (∀ dark : Bool, penaltyTotal .omitted 21 (fun _ _ => dark) = 2098) ∧
  penaltyTotal .omitted 21 (fun r c => (r + c) % 2 == 1) = 0 ∧
  ∀ (o : Operands) (s : State), Ready s →
    let v := (loaded o s).version
    let n := 4 * v.toNat + 17
    let color := fun r c => (matRead s.mem r c).color
    let p1 := penaltyRuns n color
    let p2 := penaltyBlocks n color
    let p3 := penaltyPatterns s.rule3Mode n color
    let d := darkModules n color
    let p4 := penaltyBalance n d
    let takes := s.bestValid = false ∨ p1 + p2 + p3 + p4 < s.bestPenalty.toNat
    (1 ≤ v.toNat → v.toNat ≤ 40 →
      ∃ p, exec (.score o) s = .next
        { loaded o s with
          penR1 := BitVec.ofNat 32 p1, penR2 := BitVec.ofNat 32 p2, penR3 := BitVec.ofNat 32 p3
          penR4 := BitVec.ofNat 32 p4, penTotal := BitVec.ofNat 32 (p1 + p2 + p3 + p4), darkCount := BitVec.ofNat 15 d
          bestPenalty := if takes then BitVec.ofNat 32 (p1 + p2 + p3 + p4) else s.bestPenalty
          bestMask := if takes then (loaded o s).mask else s.bestMask
          bestValid := true
          psc := p
          done := true }) ∧
    (v.toNat < 1 ∨ 40 < v.toNat → exec (.score o) s = .next (withError .badVersion (encode (.score o)) s)) ∧
    (o = .ld 1 0 0 → s.rule3Mode = .omitted → (∀ r c, r < 21 → c < 21 → color r c = false) →
      ∃ t, exec (.score o) s = .next t ∧ t.penR1 = 798 ∧ t.penR2 = 1200 ∧ t.penR3 = 0 ∧ t.penR4 = 100 ∧
        t.penTotal = 2098 ∧ t.darkCount = 0)

/-- What 40_format_version.md R125 and 41_penalty.md R150 derive of a command issued again: ENCFV with the same operands
leaves the same state, and so does SCORE, the tracker included, the hidden scan left open. -/
def Obligations.RepeatingACommandChangesNothing : Prop :=
  ∀ (o : Operands) (s t : State), Ready s → s.mem.wf = true → 1 ≤ (loaded o s).version.toNat →
    (loaded o s).version.toNat ≤ 40 →
    (exec (.encfv o) s = .next t → exec (.encfv o) t = .next t) ∧
    (exec (.score o) s = .next t → ∃ p, exec (.score o) t = .next { t with psc := p })

/-- What 40_format_version.md R124 and 70_reset_and_hazards.md R240 derive: a VWRITE writes the word of the present VERSION
or none: when it raises no error, VER_WORD is that word; with L = 1 and a version from 7 on, and after any write of
VERSION, it raises NO_VER_WORD, until a VCALC. -/
def Obligations.VwriteWritesOnlyThePresentVersionsWord : Prop :=
  ∀ (o : Operands) (s : State), Inv s → Ready s →
    (7 ≤ s.version.toNat → (∃ t, exec (.vwrite .plain) s = .next t ∧ t.err = false) →
      s.verWord = versionWord s.version) ∧
    (o.load = true → 7 ≤ (loaded o s).version.toNat → (loaded o s).version.toNat ≤ 40 →
      exec (.vwrite o) s = .next (withError .noVerWord (encode (.vwrite o)) s)) ∧
    ∀ v : Word, 7 ≤ (v.extractLsb' 0 6).toNat → (v.extractLsb' 0 6).toNat ≤ 40 →
      let t := writeRegister .version v s
      exec (.vwrite .plain) t = .next (withError .noVerWord (encode (.vwrite .plain)) t) ∧
      ∃ u, exec (.vcalc .plain) t = .next u ∧ ∃ u', exec (.vwrite .plain) u = .next u' ∧ u'.err = false

/-! ## The code words and their cells -/

/-- 40_format_version.md R104, R106: the format table under the default generator 0x537 (00_scope.md R6), and that no entry
is 0. -/
def Obligations.FormatTableIsTheSpecs : Prop :=
  ((List.range 32).map fun i => (formatWord 0x537 (BitVec.ofNat 5 i)).toNat) =
    [0x5412, 0x5125, 0x5E7C, 0x5B4B, 0x45F9, 0x40CE, 0x4F97, 0x4AA0, 0x77C4, 0x72F3, 0x7DAA, 0x789D, 0x662F, 0x6318,
      0x6C41, 0x6976, 0x1689, 0x13BE, 0x1CE7, 0x19D0, 0x0762, 0x0255, 0x0D0C, 0x083B, 0x355F, 0x3068, 0x3F31, 0x3A06,
      0x24B4, 0x2183, 0x2EDA, 0x2BED] ∧
  (∀ fid : BitVec 5, formatWord 0x537 fid ≠ 0) ∧ State.reset.params.g15 = 0x537

/-- 40_format_version.md R108: the version table, indices 7 to 40. -/
def Obligations.VersionTableIsTheSpecs : Prop :=
  ((List.range 34).map fun i => (versionWord (BitVec.ofNat 6 (i + 7))).toNat) =
    [0x07C94, 0x085BC, 0x09A99, 0x0A4D3, 0x0BBF6, 0x0C762, 0x0D847, 0x0E60D, 0x0F928, 0x10B78, 0x1145D, 0x12A17,
      0x13532, 0x149A6, 0x15683, 0x168C9, 0x177EC, 0x18EC4, 0x191E1, 0x1AFAB, 0x1B08E, 0x1CC1A, 0x1D33F, 0x1ED75,
      0x1F250, 0x209D5, 0x216F0, 0x228BA, 0x2379F, 0x24B0B, 0x2542E, 0x26A64, 0x27541, 0x28C69]

/-- 40_format_version.md R105: for every generator with bit 10 set, the loop's result is the remainder of
`fid(x)·x^10` divided by it over GF(2), and the only one: any correct division gives the same. -/
def Obligations.FormatRemainderIsThePolynomialRemainder : Prop :=
  ∀ (g : BitVec 11) (fid : BitVec 5), g.getLsbD 10 = true →
    (formatRemainder g fid).toNat < 2 ^ 10 ∧
    (∃ q, fid.setWidth 15 <<< 10 = formatProduct q g ^^^ formatRemainder g fid) ∧
    ∀ q r, r.toNat < 2 ^ 10 → fid.setWidth 15 <<< 10 = formatProduct q g ^^^ r → r = formatRemainder g fid

/-- 40_format_version.md R107: the version loop's result is the remainder of `v(x)·x^12` divided by 0x1F25 over GF(2), and
the version word is the version above it, with no XOR. -/
def Obligations.VersionRemainderIsThePolynomialRemainder : Prop :=
  ∀ v : BitVec 6,
    (versionRemainder v).toNat < 2 ^ 12 ∧
    (versionWord v).toNat = v.toNat * 2 ^ 12 + (versionRemainder v).toNat ∧
    (∃ q, v.setWidth 18 <<< 12 = versionProduct q ^^^ versionRemainder v) ∧
    ∀ q r, r.toNat < 2 ^ 12 → v.setWidth 18 <<< 12 = versionProduct q ^^^ r → r = versionRemainder v

/-- 40_format_version.md R110, R111, R114, R115: where the bits go; block BL is the transpose of block TR. -/
def Obligations.BitPositionsAreTheSpecs : Prop :=
  (∀ i, i ≤ 5 → copyA i = (i, 8)) ∧ copyA 6 = (7, 8) ∧ copyA 7 = (8, 8) ∧ copyA 8 = (8, 7) ∧
  (∀ i, 9 ≤ i → i ≤ 14 → copyA i = (8, 14 - i)) ∧
  (∀ n i, i ≤ 7 → copyB n i = (8, n - 1 - i)) ∧ (∀ n i, 8 ≤ i → i ≤ 14 → copyB n i = (n - 15 + i, 8)) ∧
  (∀ n i, blockTR n i = (i / 3, n - 11 + i % 3)) ∧ (∀ n i, blockBL n i = (n - 11 + i % 3, i / 3)) ∧
  (∀ n i, i < 18 → (blockTR n i).1 ≤ 5 ∧ n - 11 ≤ (blockTR n i).2 ∧ (blockTR n i).2 ≤ n - 11 + 2 ∧
    blockBL n i = ((blockTR n i).2, (blockTR n i).1))

/-- 40_format_version.md R116: for every legal version, the cells a command writes are all different and inside the
matrix; FWRITE's are 30 and, from version 7 on, VWRITE's are 36, none of them one of FWRITE's. With it, R117's table for
N = 21. -/
def Obligations.WrittenCellsAreDistinctAndInside : Prop :=
  ((List.range 15).map copyA =
    [(0, 8), (1, 8), (2, 8), (3, 8), (4, 8), (5, 8), (7, 8), (8, 8), (8, 7), (8, 5), (8, 4), (8, 3), (8, 2), (8, 1),
      (8, 0)] ∧
  (List.range 15).map (copyB 21) =
    [(8, 20), (8, 19), (8, 18), (8, 17), (8, 16), (8, 15), (8, 14), (8, 13), (14, 8), (15, 8), (16, 8), (17, 8),
      (18, 8), (19, 8), (20, 8)]) ∧
  ∀ (l : Latched) (s : State), legalVersion l.version = true →
    ((runningWrites l s).map fun w => (w.row, w.col)).Nodup ∧
    (∀ w ∈ runningWrites l s, w.row < sideOf l.version ∧ w.col < sideOf l.version) ∧
    (fwriteCells l s).length = 30 ∧
    (45 ≤ sideOf l.version → (vwriteCells l s).length = 36) ∧
    (((fwriteCells l s ++ vwriteCells l s)).map fun w => (w.row, w.col)).Nodup

/-- 40_format_version.md R112: no command ever writes the fixed dark module at (N − 8, 8), which stands next to copy B's
bit 8 at (N − 7, 8). -/
def Obligations.DarkModuleIsNeverWritten : Prop :=
  ∀ (l : Latched) (s : State), legalVersion l.version = true →
    copyB (sideOf l.version) 8 = (sideOf l.version - 7, 8) ∧
    ∀ w ∈ runningWrites l s, (w.row, w.col) ≠ (sideOf l.version - 8, 8)

/-- 20_memory.md R65, R67: whatever a step of the block itself changes in the matrix memory is a cell inside the matrix
of the present version, and that cell is Functional afterwards. -/
def Obligations.BlockWritesOnlyFunctionalCellsInside : Prop :=
  ∀ s t : State, Inv s → step s = .next t →
    (∀ row col c, nextTurn s ≠ .hostCellWrite row col c) →
    t.mem.wf = true ∧
    ∀ a, t.mem.read a ≠ s.mem.read a →
      ∃ r c, r < sideOf t.version ∧ c < sideOf t.version ∧ cellAddress r c = a ∧
        (matRead t.mem r c).kind = .functional

/-! ## The penalties -/

/-- 41_penalty.md R142: the rule-1 penalty of a line is the sum over its runs (R141) of length 5 or more of the length
minus 2. -/
def Obligations.RunPenaltyIsTheSumOverMaximalRuns : Prop :=
  ∀ colors : List Bool,
    lineRunPenalty colors =
      ∑ k ∈ Finset.range colors.length, ∑ len ∈ Finset.range (colors.length + 1),
        if isRun colors k len ∧ 5 ≤ len then len - 2 else 0

/-- 41_penalty.md R143: P1 is the sum of the rule-1 penalties of all rows and all columns, and the reference scan gives
each line's. -/
def Obligations.RunPenaltyIsTheReferenceScans : Prop :=
  (∀ (n : Nat) (color : Nat → Nat → Bool),
    penaltyRuns n color =
      ∑ r ∈ Finset.range n, lineRunPenalty ((List.range n).map fun c => color r c) +
      ∑ c ∈ Finset.range n, lineRunPenalty ((List.range n).map fun r => color r c)) ∧
  ∀ colors : List Bool, referenceScan colors = lineRunPenalty colors

/-- 41_penalty.md R144, R148: P2 is three times the number of 2×2 windows of one color (a solid 3×3 area adds 12), D the
number of dark cells. -/
def Obligations.BlockPenaltyAndDarkCountAreCardinalities : Prop :=
  (∀ dark : Bool, penaltyBlocks 3 (fun _ _ => dark) = 12) ∧
  ∀ (n : Nat) (color : Nat → Nat → Bool),
    penaltyBlocks n color =
      3 * ((Finset.range (n - 1) ×ˢ Finset.range (n - 1)).filter fun p =>
        color p.1 p.2 = color p.1 (p.2 + 1) ∧ color p.1 p.2 = color (p.1 + 1) p.2 ∧
          color p.1 p.2 = color (p.1 + 1) (p.2 + 1)).card ∧
    darkModules n color = ((Finset.range n ×ˢ Finset.range n).filter fun p => color p.1 p.2 = true).card

/-- 41_penalty.md R146, R147: P3 is 0 in mode 0; in mode 1 it is 40 for every 11-module window of a row or a column that
reads as one of the two patterns. -/
def Obligations.PatternPenaltyCountsMatchingWindows : Prop :=
  ∀ (n : Nat) (color : Nat → Nat → Bool),
    penaltyPatterns .omitted n color = 0 ∧
    penaltyPatterns .patterns n color =
      40 * ∑ x ∈ Finset.range n, ∑ k ∈ Finset.range (n - 10),
        ((if reads patA (fun j => color x (k + j)) then 1 else 0) +
          (if reads patB (fun j => color x (k + j)) then 1 else 0) +
          (if reads patA (fun j => color (k + j) x) then 1 else 0) +
          (if reads patB (fun j => color (k + j) x) then 1 else 0))

/-- 41_penalty.md R149: P4 is the source's formula computed in real arithmetic; it is a multiple of 10 up to 100, 0 well
inside T/2 ± T/20 and 100 at the ends. -/
def Obligations.BalancePenaltyIsTheExactFloor : Prop :=
  ∀ n d : Nat, 0 < n → d ≤ n * n →
    (penaltyBalance n d : ℤ) = 10 * ⌊|(10 : ℚ) - 20 * d / (n * n)|⌋ ∧
    (∃ k, k ≤ 10 ∧ penaltyBalance n d = 10 * k) ∧
    (9 * (n * n) < 20 * d → 20 * d < 11 * (n * n) → penaltyBalance n d = 0) ∧
    penaltyBalance n 0 = 100 ∧ penaltyBalance n (n * n) = 100

/-- 41_penalty.md R152: the bounds for N ≤ 177, the register widths that hold them, and the matrices that reach the bound
of mode 0. -/
def Obligations.PenaltiesStayWithinTheirBounds : Prop :=
  (∀ (n : Nat) (color : Nat → Nat → Bool) (mode : Rule3Mode), n ≤ 177 →
    penaltyRuns n color ≤ 2 * n * (n - 2) ∧ penaltyRuns n color ≤ 61950 ∧
    penaltyBlocks n color ≤ 3 * (n - 1) ^ 2 ∧ penaltyBlocks n color ≤ 92928 ∧
    penaltyPatterns mode n color ≤ 2 * n * 40 * (n - 10) ∧ penaltyPatterns mode n color ≤ 2364720 ∧
    darkModules n color ≤ n ^ 2 ∧ darkModules n color ≤ 31329 ∧ darkModules n color < 2 ^ 15 ∧
    penaltyBalance n (darkModules n color) ≤ 100 ∧
    penaltyTotal mode n color < 2 ^ 32 ∧ penaltyTotal .omitted n color ≤ 154978) ∧
  ∀ dark : Bool, penaltyTotal .omitted 177 (fun _ _ => dark) = 154978

/-- 41_penalty.md R153: every penalty is unchanged when the matrix is transposed. -/
def Obligations.PenaltiesAreInvariantUnderTransposition : Prop :=
  ∀ (n : Nat) (color : Nat → Nat → Bool) (mode : Rule3Mode),
    penaltyRuns n (fun r c => color c r) = penaltyRuns n color ∧
    penaltyBlocks n (fun r c => color c r) = penaltyBlocks n color ∧
    penaltyPatterns mode n (fun r c => color c r) = penaltyPatterns mode n color ∧
    darkModules n (fun r c => color c r) = darkModules n color ∧
    penaltyTotal mode n (fun r c => color c r) = penaltyTotal mode n color

/-- 41_penalty.md R140, 20_memory.md R67: a score depends on the colors of the N × N cells alone: another matrix memory
with the same colors there, whatever its kinds and its cells outside, gives the same registers. -/
def Obligations.ScoreDependsOnlyOnTheColorsInside : Prop :=
  ∀ (l : Latched) (s : State) (m : Memory),
    (∀ r c, r < sideOf l.version → c < sideOf l.version → colorAt m r c = colorAt s.mem r c) →
    { scoreEffect l { s with mem := m } with mem := s.mem, psc := s.psc } = { scoreEffect l s with psc := s.psc }

/-- 41_penalty.md R154: the tracker replaces its content only on a strictly lower total, so scoring the masks 0, 1, 2, … in
order leaves the lowest-numbered mask of those with the minimum total. -/
def Obligations.TrackerKeepsTheFirstMinimum : Prop :=
  (∀ (s : State) (total : Word) (mask : BitVec 3), s.bestValid = true →
    trackBest total mask s =
      if total.toNat < s.bestPenalty.toNat then { s with bestPenalty := total, bestMask := mask } else s) ∧
  ∀ (totals : List Word) (s : State), totals ≠ [] → totals.length ≤ 8 → s.bestValid = false →
    ∃ k best, totals[k]? = some best ∧
      trackInOrder totals s = { s with bestPenalty := best, bestMask := BitVec.ofNat 3 k, bestValid := true } ∧
      (∀ (j : Nat) (x : Word), totals[j]? = some x → best.toNat ≤ x.toNat ∧ (j < k → best.toNat < x.toNat))

/-! ## The sequencer, the schedule, the invariants -/

/-- 10_state.md R45, 70_reset_and_hazards.md R230: the state after reset meets the invariants. -/
def Obligations.ResetMeetsTheInvariants : Prop :=
  Inv State.reset ∧ PenaltiesBounded State.reset ∧ ScanOnTrack State.reset

/-- Every step keeps the invariant: the memory canonical, the error fields consistent, VER_VALID only with the present
version's word (10_state.md R26), an empty tracker as BESTCLR leaves it, a legal mode, the latch and the operand
registers in agreement while a command runs, a legal generator (00_scope.md R6). No step changes the parameters. -/
def Obligations.EveryStepKeepsTheInvariant : Prop :=
  ∀ s t : State, Inv s → step s = .next t → Inv t ∧ t.params = s.params

/-- Every step keeps the penalty registers within the bounds of 41_penalty.md R152 and PEN_TOTAL their sum (R151). -/
def Obligations.EveryStepKeepsThePenaltiesBounded : Prop :=
  ∀ s t : State, Inv s → PenaltiesBounded s → step s = .next t → PenaltiesBounded t

/-- 10_state.md R41: every step keeps the hidden scan of a running SCORE the scan of the matrix held, whatever the host
does to cells it may touch. The scan's order is the model's choice (notes/assumptions/13.md). -/
def Obligations.EveryStepKeepsTheScanOnTrack : Prop :=
  ∀ s t : State, Inv s → ScanOnTrack s → step s = .next t → ScanOnTrack t

/-- 10_state.md R41, 20_memory.md R66: the hidden scan, reading one module at a time, ends with the penalties and the dark
count that the rules define of the whole matrix. The scan's order is the model's choice (notes/assumptions/13.md). -/
def Obligations.TheScanComputesThePenalties : Prop :=
  ∀ (mode : Rule3Mode) (n : Nat) (color : Nat → Nat → Bool), 0 < n →
    let p := scanToEnd mode n color (PscWork.start n)
    scanFinished n p = true ∧ p.sum1 = penaltyRuns n color ∧ p.sum2 = penaltyBlocks n color ∧
      p.sum3 = penaltyPatterns mode n color ∧ p.sum4 = penaltyBalance n (darkModules n color) ∧
      p.dark = darkModules n color

/-- 10_state.md R40: what the running command does before its completion, its matrix accesses and its write of FMT_ID, in any
order and any number, does not change what the completion leaves. The equality is of the whole state: it rests on the
model's choices that a completion makes every cell write again (notes/assumptions/16.md), makes a write of FMT_ID not
made yet (23.md), and leaves the hidden scan finished (13.md). -/
def Obligations.EarlyAccessesDoNotChangeTheOutcome : Prop :=
  ∀ (s : State) (ks : List (Option Nat)), Inv s → completeRunning (moves ks s) = completeRunning s

/-- 10_state.md R40: the two forms of a command agree: the CMD write, then any moves of the running command, then the
completion, as a turn of its own or within the host's `wait`, leave the state that the command issued and run at once
leaves, the answer to the host's last read apart. R40 promises it of the registers; that it holds of the whole state
rests on the model's choices for the atomic turn (notes/assumptions/2.md), the hidden scan (13.md), the completion (16.md,
23.md) and `wait` (26.md). -/
def Obligations.TheTwoFormsOfACommandAgree : Prop :=
  ∀ (s : State) (w : Word) (ks : List (Option Nat)) (rest : List Turn), Inv s → s.seq = .idle →
    ∃ t : State,
      Host.Core.run Sys2Proof.core 1 { s with schedule := .command w :: rest } = .next t ∧
      Host.Core.run Sys2Proof.core (ks.length + 2)
        { s with schedule := .hostWrite Reg.cmd.address 4 w :: (ks.map moveTurn ++ .blockCompletes :: rest) } =
          .next t ∧
      Host.Core.run Sys2Proof.core (ks.length + 2)
        { s with schedule := .hostWrite Reg.cmd.address 4 w :: (ks.map moveTurn ++ .hostWait :: rest) } =
          .next { t with reply := .data (readRegister t .status) }

/-- 70_reset_and_hazards.md R244: a command abandoned by a reset: every register at its reset value, every cell it would
have written at its old or its new record, independently per cell, every other cell as it was; an abandoned SCORE
changes no cell. The hidden scan, the parameters, the schedule and the host's last answer are left open. -/
def Obligations.AbandonedCommandsLeaveOldOrNewCells : Prop :=
  ∀ (s : State) (l : Latched), Inv s → s.seq = .run l →
    (∀ ks,
      (∃ p q ts r, resetBlock (moves ks s) =
        { State.reset with
          psc := p, mem := (moves ks s).mem, params := q, schedule := ts, reply := r }) ∧
      (∀ a, (moves ks s).mem.read a = s.mem.read a ∨
        ∃ w ∈ runningWrites l s, cellAddress w.row w.col = a ∧ (moves ks s).mem.read a = w.cell.toByte) ∧
      (readsMatrix l = true → (moves ks s).mem = s.mem)) ∧
    ∀ landed : Nat → Bool, ∃ ks, ∀ k w, (runningWrites l s)[k]? = some w →
      matRead (resetBlock (moves ks s)).mem w.row w.col =
        if landed k then w.cell else matRead s.mem w.row w.col

/-- 20_memory.md R69: which cells the running command owns, and that a host access of one of them is a fault. That an access
of any other cell goes on while the command runs is the model's reading of R69 against R237
(notes/assumptions/7.md). -/
def Obligations.HostAccessOfAnOwnedCellIsAFault : Prop :=
  (∀ s : State, ∀ row col : Nat,
    (s.seq = .idle → ownsCell s row col = false) ∧
    ∀ l, s.seq = .run l →
      let n := sideOf l.version
      let inFormat := ∃ i < 15, copyA i = (row, col) ∨ copyB n i = (row, col)
      let inVersion := 7 ≤ l.version.toNat ∧ ∃ i < 18, blockTR n i = (row, col) ∨ blockBL n i = (row, col)
      (ownsCell s row col = true ↔
        (∃ o, l.command = .score o ∧ row < n ∧ col < n) ∨ (∃ o, l.command = .fwrite o ∧ inFormat) ∨
        (∃ o, l.command = .vwrite o ∧ inVersion) ∨ (∃ o, l.command = .encfv o ∧ (inFormat ∨ inVersion)))) ∧
  ∀ (s : State) (row col : Coord) (c : CellRec) (rest : List Turn),
    (s.schedule = .hostCellWrite row col c :: rest →
      step s = if ownsCell s row.toNat col.toNat then .fault (.matrixRace row col)
        else .next { s with schedule := rest, reply := .ack, mem := matWrite s.mem row.toNat col.toNat c }) ∧
    (s.schedule = .hostCellRead row col :: rest →
      step s = if ownsCell s row.toNat col.toNat then .fault (.matrixRace row col)
        else .next { s with schedule := rest, reply := .cell (matRead s.mem row.toNat col.toNat) })

/-- The machine stops in no other way: a step answers a next state exactly when its turn is no host access of an owned
cell, and what stops it is that fault; no instruction is refused. That accesses of cells not owned and illegal accesses of
the window go on is the model's reading (notes/assumptions/7.md, 8.md). -/
def Obligations.OnlyAMatrixRaceStopsTheMachine : Prop :=
  ∀ s : State,
    (StepsOn s ↔ respectsOwnership (nextTurn s) (popTurn s) = true) ∧
    (¬ StepsOn s → ∃ row col, step s = .fault (.matrixRace row col)) ∧
    ∀ i : Instr, ∃ t, exec i s = .next t

/-- 10_state.md R33, 70_reset_and_hazards.md R238: the result registers change only at a completion (in a turn of its own,
in a command turn or within a `wait`) and at a reset, but for VER_VALID, which a write of VERSION in IDLE and the operand
load of an accepted CMD write with L = 1 clear (10_state.md R29, 30_encoding.md R82; notes/assumptions/22.md), and which
nothing else changes. 20_memory.md R74: at a completion no other register than STATUS and the result registers changes
what it reads as, once FMT_ID is written (notes/assumptions/23.md). -/
def Obligations.ResultsChangeOnlyAtCompletionAndReset : Prop :=
  (∀ s t : State, step s = .next t →
    nextTurn s ≠ .blockCompletes → nextTurn s ≠ .hostWait → nextTurn s ≠ .hardwareReset →
    (∀ w, nextTurn s ≠ .command w) →
    (∀ v, nextTurn s = .hostWrite Reg.ctrl.address 4 v → v.getLsbD 31 = false) →
    t.fmtWord = s.fmtWord ∧ t.verWord = s.verWord ∧ t.penTotal = s.penTotal ∧ t.penR1 = s.penR1 ∧
    t.penR2 = s.penR2 ∧ t.penR3 = s.penR3 ∧ t.penR4 = s.penR4 ∧ t.darkCount = s.darkCount ∧
    t.bestPenalty = s.bestPenalty ∧ t.bestMask = s.bestMask ∧ t.bestValid = s.bestValid ∧
    (t.verValid ≠ s.verValid → t.verValid = false ∧ s.busy = false ∧
      ((∃ v, nextTurn s = .hostWrite Reg.version.address 4 v) ∨
        ∃ w, nextTurn s = .hostWrite Reg.cmd.address 4 w ∧ w.getLsbD 31 = true ∧ t.busy = true)) ∧
    t.done = (s.done && t.done)) ∧
  ∀ s : State, ∀ r ∈ [Reg.id, .cmd, .ctrl, .version, .mask, .fmtId, .size, .errInfo],
    readRegister (completeRunning (runFmtId s)) r = readRegister (runFmtId s) r
end

