-- ==== Sys2Proof/Laws/Assembler.lean ====
section
/-! SUPPORT. What the assembler gives: its commands fit their words, whatever line it takes (R86, R88). -/

namespace Sys2Proof.Machine

theorem fitting_eq_some {is js : List Instr} :
    fitting is = some js ↔ is = js ∧ ∀ i ∈ js, i.wf = true := by
  unfold fitting
  split <;> rename_i h
  · simp only [List.all_eq_true] at h
    constructor
    · rintro ⟨⟩; exact ⟨rfl, h⟩
    · rintro ⟨rfl, -⟩; rfl
  · simp only [List.all_eq_true] at h
    constructor
    · rintro ⟨⟩
    · rintro ⟨rfl, h'⟩; exact absurd h' h

theorem fitting_wf {is js : List Instr} (h : fitting is = some js) : ∀ i ∈ js, i.wf = true :=
  (fitting_eq_some.mp h).2

/-- R86: operands as they stand in a `.ld` line fit exactly when each is in its range. -/
theorem ld_wf_iff {v m f : Nat} : (Operands.ld v m f).wf = true ↔ v ≤ 63 ∧ m ≤ 7 ∧ f ≤ 31 := by
  simp only [Operands.wf, Bool.and_eq_true, decide_eq_true_eq, and_assoc]
  exact Iff.rfl

/-- R88: LOAD takes exactly the values of R86, and is the one command of its expansion. -/
theorem pseudoLoad_eq_some {v m f : Nat} {is : List Instr} :
    pseudoLoad v m f = some is ↔ (v ≤ 63 ∧ m ≤ 7 ∧ f ≤ 31) ∧ is = [.nop (.ld v m f)] := by
  rw [pseudoLoad, fitting_eq_some, ← ld_wf_iff, and_comm, eq_comm]
  exact and_congr_left fun h => by subst h; exact List.forall_mem_singleton

/-- R88: TRYMASK takes exactly the values of R86, and scores after it has written the matrix. -/
theorem pseudoTryMask_eq_some {v m : Nat} {is : List Instr} :
    pseudoTryMask v m = some is ↔ (v ≤ 63 ∧ m ≤ 7) ∧ is = [.encfv (.ld v m 0), .score .plain] := by
  have hwf : (∀ i ∈ [Instr.encfv (.ld v m 0), .score .plain], i.wf = true) ↔ v ≤ 63 ∧ m ≤ 7 := by
    have hs : (Instr.score .plain).wf = true := rfl
    have he : (Instr.encfv (.ld v m 0)).wf = true ↔ _ := ld_wf_iff
    simp [hs, he]
  rw [pseudoTryMask, fitting_eq_some, ← hwf, and_comm, eq_comm]
  exact and_congr_left fun h => by subst h; exact Iff.rfl

/-- R88: FORMAT takes exactly the values of R86, and is the one command of its expansion. -/
theorem pseudoFormat_eq_some {m : Nat} {is : List Instr} :
    pseudoFormat m = some is ↔ m ≤ 7 ∧ is = [.fcalcm (.ld 0 m 0)] := by
  have hwf : (Operands.ld 0 m 0).wf = true ↔ m ≤ 7 := by rw [ld_wf_iff]; omega
  rw [pseudoFormat, fitting_eq_some, ← hwf, and_comm, eq_comm]
  exact and_congr_left fun h => by subst h; exact List.forall_mem_singleton

theorem mnemonicInstr_plain_wf {name : List Char} {i : Instr} (h : mnemonicInstr name Operands.plain = some i) :
    i.wf = true := by
  unfold mnemonicInstr at h
  repeat' split at h
  all_goals cases h
  all_goals rfl

theorem plainLine_wf {name args : List Char} {is : List Instr} (h : plainLine name args = some is) :
    ∀ i ∈ is, i.wf = true := by
  unfold plainLine at h
  split at h
  · split at h
    · obtain ⟨i, hi, rfl⟩ := Option.map_eq_some_iff.mp h
      simpa using mnemonicInstr_plain_wf hi
    · cases h
  · split at h
    · obtain ⟨i, -, hi⟩ := Option.bind_eq_some_iff.mp h
      exact fitting_wf hi
    · cases h

theorem pseudoLine_wf {name args : List Char} {is : List Instr} (h : pseudoLine name args = some is) :
    ∀ i ∈ is, i.wf = true := by
  unfold pseudoLine pseudoLoad pseudoTryMask pseudoFormat at h
  repeat' split at h
  all_goals first | exact fitting_wf h | cases h

/-- Every command of a line the assembler takes fits its word. -/
theorem assembleLine_wf {line : List Char} {is : List Instr} (h : assembleLine line = some is) :
    ∀ i ∈ is, i.wf = true := by
  rcases Option.or_eq_some_iff.mp h with h | ⟨-, h⟩
  · exact plainLine_wf h
  · exact pseudoLine_wf h

end Sys2Proof.Machine
end

