-- ==== Sys2Proof/Laws/Memory.lean ====
section
/-! SUPPORT. The laws of the matrix memory: read after write, writes elsewhere, every write keeps the canonical form, and
two canonical memories that read alike are equal. -/

namespace Sys2Proof.Machine

/-! ## Cells as bytes -/

@[simp] theorem CellKind.ofBits_toBits (k : CellKind) : CellKind.ofBits k.toBits = k := by cases k <;> rfl

@[simp] theorem CellRec.ofByte_toByte (c : CellRec) : CellRec.ofByte c.toByte = c := by
  obtain ⟨color, kind⟩ := c
  cases color <;> cases kind <;> rfl

theorem CellRec.toByte_lt (c : CellRec) : c.toByte.toNat < 8 := by
  obtain ⟨color, kind⟩ := c
  cases color <;> cases kind <;> decide

/-! ## Reading and writing bytes -/

theorem Memory.read_cons_ne {k a : Nat} (b : BitVec 8) (m : Memory) (h : k ≠ a) :
    Memory.read ((k, b) :: m) a = Memory.read m a := if_neg h

@[simp] theorem Memory.read_cons_eq (k : Nat) (b : BitVec 8) (m : Memory) : Memory.read ((k, b) :: m) k = b :=
  if_pos rfl

/-- The parts of the canonical form of a non-empty memory. -/
theorem Memory.wf_cons {k : Nat} {b : BitVec 8} {m : Memory} :
    Memory.wf ((k, b) :: m) = true ↔
      k < 65536 ∧ b.toNat < 8 ∧ b ≠ unwrittenByte ∧ startsAbove k m = true ∧ Memory.wf m = true := by
  simp only [Memory.wf, Bool.and_eq_true, decide_eq_true_eq, and_assoc]

theorem startsAbove_trans {a k : Nat} {m : Memory} (h : a < k) (hm : startsAbove k m = true) :
    startsAbove a m = true := by
  cases m with
  | nil => rfl
  | cons c _ => simp only [startsAbove, decide_eq_true_eq] at hm ⊢; omega

/-- Nothing is listed below where a canonical memory starts. -/
theorem Memory.read_of_startsAbove {a : Nat} {m : Memory} (hm : m.wf = true) (h : startsAbove a m = true) :
    m.read a = unwrittenByte := by
  induction m with
  | nil => rfl
  | cons c rest ih =>
    obtain ⟨k, b⟩ := c
    obtain ⟨-, -, -, hk, hrest⟩ := Memory.wf_cons.mp hm
    have hak : a < k := by simpa [startsAbove] using h
    rw [Memory.read_cons_ne b rest (by omega)]
    exact ih hrest (startsAbove_trans hak hk)

theorem Memory.read_write_same {m : Memory} (hm : m.wf = true) (a : Nat) (x : BitVec 8) :
    (m.write a x).read a = x := by
  induction m with
  | nil =>
    by_cases hx : x = unwrittenByte
    · simp [Memory.write, Memory.read, hx]
    · simp [Memory.write, hx]
  | cons c rest ih =>
    obtain ⟨k, b⟩ := c
    have hp := Memory.wf_cons.mp hm
    unfold Memory.write
    split
    · rename_i hak
      split
      · rename_i hx
        rw [hx]
        exact Memory.read_of_startsAbove hm (by simpa [startsAbove] using hak)
      · simp
    · split
      · rename_i hak
        split
        · rename_i hx
          rw [hx, hak]
          exact Memory.read_of_startsAbove hp.2.2.2.2 hp.2.2.2.1
        · simp [hak]
      · rw [Memory.read_cons_ne _ _ (by omega)]
        exact ih hp.2.2.2.2

theorem Memory.read_write_ne (m : Memory) {a a' : Nat} (x : BitVec 8) (h : a ≠ a') :
    (m.write a x).read a' = m.read a' := by
  induction m with
  | nil =>
    by_cases hx : x = unwrittenByte
    · simp [Memory.write, hx]
    · simp only [Memory.write, if_neg hx]; exact Memory.read_cons_ne _ _ h
  | cons c rest ih =>
    obtain ⟨k, b⟩ := c
    unfold Memory.write
    split
    · split
      · rfl
      · exact Memory.read_cons_ne _ _ h
    · split
      · rename_i hak
        split
        · exact (Memory.read_cons_ne _ _ (by omega)).symm
        · rw [Memory.read_cons_ne _ _ (by omega), Memory.read_cons_ne _ _ (by omega)]
      · by_cases hk : k = a'
        · simp [Memory.read, hk]
        · rw [Memory.read_cons_ne _ _ hk, Memory.read_cons_ne _ _ hk, ih]

/-! ## The canonical form -/

theorem startsAbove_write {j a : Nat} (m : Memory) (x : BitVec 8) (ha : j < a) (hwf : m.wf = true)
    (hm : startsAbove j m = true) : startsAbove j (m.write a x) = true := by
  cases m with
  | nil =>
    by_cases hx : x = unwrittenByte
    · simp [Memory.write, hx, startsAbove]
    · simp [Memory.write, hx, startsAbove, ha]
  | cons c rest =>
    obtain ⟨k, b⟩ := c
    have hp := Memory.wf_cons.mp hwf
    have hjk : j < k := by simpa [startsAbove] using hm
    unfold Memory.write
    split
    · split
      · exact hm
      · simpa [startsAbove] using ha
    · split
      · split
        · exact startsAbove_trans hjk hp.2.2.2.1
        · simpa [startsAbove] using hjk
      · simpa [startsAbove] using hjk

/-- Writing a cell's byte at a cell's address keeps the canonical form. -/
theorem Memory.write_wf {m : Memory} (hm : m.wf = true) {a : Nat} {x : BitVec 8} (ha : a < 65536) (hx : x.toNat < 8) :
    (m.write a x).wf = true := by
  induction m with
  | nil =>
    by_cases h0 : x = unwrittenByte
    · simp [Memory.write, h0, Memory.wf]
    · simp only [Memory.write, if_neg h0]
      exact Memory.wf_cons.mpr ⟨ha, hx, h0, rfl, rfl⟩
  | cons c rest ih =>
    obtain ⟨k, b⟩ := c
    have hp := Memory.wf_cons.mp hm
    unfold Memory.write
    split
    · rename_i hak
      split
      · exact hm
      · rename_i h0
        exact Memory.wf_cons.mpr ⟨ha, hx, h0, by simpa [startsAbove] using hak, hm⟩
    · split
      · split
        · exact hp.2.2.2.2
        · rename_i h0
          exact Memory.wf_cons.mpr ⟨hp.1, hx, h0, hp.2.2.2.1, hp.2.2.2.2⟩
      · exact Memory.wf_cons.mpr ⟨hp.1, hp.2.1, hp.2.2.1,
          startsAbove_write rest x (by omega) hp.2.2.2.2 hp.2.2.2.1, ih hp.2.2.2.2⟩

/-- Equal memories are equal data: canonical memories that read alike are one list. -/
theorem Memory.eq_of_read_eq {m m' : Memory} (hm : m.wf = true) (hm' : m'.wf = true)
    (h : ∀ a, m.read a = m'.read a) : m = m' := by
  induction m generalizing m' with
  | nil =>
    cases m' with
    | nil => rfl
    | cons c rest =>
      obtain ⟨k, b⟩ := c
      have := h k
      rw [Memory.read_cons_eq] at this
      exact absurd this.symm (Memory.wf_cons.mp hm').2.2.1
  | cons c rest ih =>
    obtain ⟨k, b⟩ := c
    have hp := Memory.wf_cons.mp hm
    cases m' with
    | nil =>
      have := h k
      rw [Memory.read_cons_eq] at this
      exact absurd this hp.2.2.1
    | cons c' rest' =>
      obtain ⟨k', b'⟩ := c'
      have hp' := Memory.wf_cons.mp hm'
      have hkk : k = k' := by
        rcases Nat.lt_trichotomy k k' with hlt | heq | hgt
        · have hk := h k
          rw [Memory.read_cons_eq,
            Memory.read_of_startsAbove hm' (by simpa [startsAbove] using hlt)] at hk
          exact absurd hk hp.2.2.1
        · exact heq
        · have hk := h k'
          rw [Memory.read_cons_eq,
            Memory.read_of_startsAbove hm (by simpa [startsAbove] using hgt)] at hk
          exact absurd hk.symm hp'.2.2.1
      subst hkk
      have hb : b = b' := by simpa using h k
      subst hb
      have hrest : rest = rest' := by
        refine ih hp.2.2.2.2 hp'.2.2.2.2 fun a => ?_
        by_cases ha : k = a
        · subst ha
          rw [Memory.read_of_startsAbove hp.2.2.2.2 hp.2.2.2.1,
            Memory.read_of_startsAbove hp'.2.2.2.2 hp'.2.2.2.1]
        · simpa [Memory.read_cons_ne _ _ ha] using h a
      rw [hrest]

/-! ## Cells -/

theorem cellAddress_lt {r c : Nat} (hr : r < 256) (hc : c < 256) : cellAddress r c < 65536 := by
  unfold cellAddress; omega

/-- The host and the block address one cell for one `(row, col)` (20_memory.md R63). -/
theorem cellAddress_inj {r c r' c' : Nat} (hc : c < 256) (hc' : c' < 256)
    (h : cellAddress r c = cellAddress r' c') : r = r' ∧ c = c' := by
  unfold cellAddress at h; omega

theorem matRead_matWrite_same {m : Memory} (hm : m.wf = true) (r c : Nat) (x : CellRec) :
    matRead (matWrite m r c x) r c = x := by
  simp [matRead, matWrite, Memory.read_write_same hm]

theorem matRead_matWrite_ne (m : Memory) {r c r' c' : Nat} (x : CellRec) (hc : c < 256) (hc' : c' < 256)
    (h : (r, c) ≠ (r', c')) : matRead (matWrite m r c x) r' c' = matRead m r' c' := by
  unfold matRead matWrite
  rw [Memory.read_write_ne]
  intro he
  obtain ⟨h1, h2⟩ := cellAddress_inj hc hc' he
  exact h (by rw [h1, h2])

theorem matWrite_wf {m : Memory} (hm : m.wf = true) {r c : Nat} (x : CellRec) (hr : r < 256) (hc : c < 256) :
    (matWrite m r c x).wf = true := Memory.write_wf hm (cellAddress_lt hr hc) x.toByte_lt

/-! ## Several cell writes -/

@[simp] theorem writeCells_nil (m : Memory) : writeCells m [] = m := rfl

@[simp] theorem writeCells_cons (m : Memory) (w : CellWrite) (ws : List CellWrite) :
    writeCells m (w :: ws) = writeCells (matWrite m w.row w.col w.cell) ws := rfl

theorem writeCells_append (m : Memory) (ws ws' : List CellWrite) :
    writeCells m (ws ++ ws') = writeCells (writeCells m ws) ws' := List.foldl_append

theorem writeCells_wf {m : Memory} (hm : m.wf = true) {ws : List CellWrite}
    (h : ∀ w ∈ ws, w.row < 256 ∧ w.col < 256) : (writeCells m ws).wf = true := by
  induction ws generalizing m with
  | nil => exact hm
  | cons w ws ih =>
    have hw := h w List.mem_cons_self
    exact ih (matWrite_wf hm w.cell hw.1 hw.2) fun v hv => h v (List.mem_cons_of_mem _ hv)

/-- Cell writes leave every other byte alone. -/
theorem writeCells_read_other (m : Memory) (ws : List CellWrite) {a : Nat}
    (h : ∀ w ∈ ws, cellAddress w.row w.col ≠ a) : (writeCells m ws).read a = m.read a := by
  induction ws generalizing m with
  | nil => rfl
  | cons w ws ih =>
    rw [writeCells_cons, ih _ fun v hv => h v (List.mem_cons_of_mem _ hv)]
    exact Memory.read_write_ne m _ (h w List.mem_cons_self)

/-- Writes to different cells: each written cell reads as written. -/
theorem writeCells_read_written {m : Memory} (hm : m.wf = true) {ws : List CellWrite}
    (hlt : ∀ w ∈ ws, w.row < 256 ∧ w.col < 256) (hd : (ws.map fun w => cellAddress w.row w.col).Nodup)
    {w : CellWrite} (hw : w ∈ ws) : matRead (writeCells m ws) w.row w.col = w.cell := by
  induction ws generalizing m with
  | nil => simp at hw
  | cons v vs ih =>
    have hv := hlt v List.mem_cons_self
    rw [List.map_cons, List.nodup_cons] at hd
    rcases List.mem_cons.mp hw with rfl | hmem
    · unfold matRead
      rw [writeCells_cons, writeCells_read_other]
      · exact matRead_matWrite_same hm _ _ _
      · intro u hu he
        exact hd.1 (he ▸ List.mem_map_of_mem hu)
    · exact ih (matWrite_wf hm v.cell hv.1 hv.2) (fun u hu => hlt u (List.mem_cons_of_mem _ hu)) hd.2 hmem

end Sys2Proof.Machine
end

