-- ==== Sys2Proof/Laws/State.lean ====
section
/-! SUPPORT. The small lemmas of State: for every named update, what each field holds after it. -/

namespace Sys2Proof.Machine

variable (s : State)

/-! ## finish -/

@[simp] theorem finish_done : (finish s).done = true := rfl
@[simp] theorem finish_err : (finish s).err = s.err := rfl
@[simp] theorem finish_errCode : (finish s).errCode = s.errCode := rfl
@[simp] theorem finish_verValid : (finish s).verValid = s.verValid := rfl
@[simp] theorem finish_bestValid : (finish s).bestValid = s.bestValid := rfl
@[simp] theorem finish_irqEn : (finish s).irqEn = s.irqEn := rfl
@[simp] theorem finish_rule3Mode : (finish s).rule3Mode = s.rule3Mode := rfl
@[simp] theorem finish_version : (finish s).version = s.version := rfl
@[simp] theorem finish_mask : (finish s).mask = s.mask := rfl
@[simp] theorem finish_fmtId : (finish s).fmtId = s.fmtId := rfl
@[simp] theorem finish_fmtWord : (finish s).fmtWord = s.fmtWord := rfl
@[simp] theorem finish_verWord : (finish s).verWord = s.verWord := rfl
@[simp] theorem finish_penTotal : (finish s).penTotal = s.penTotal := rfl
@[simp] theorem finish_penR1 : (finish s).penR1 = s.penR1 := rfl
@[simp] theorem finish_penR2 : (finish s).penR2 = s.penR2 := rfl
@[simp] theorem finish_penR3 : (finish s).penR3 = s.penR3 := rfl
@[simp] theorem finish_penR4 : (finish s).penR4 = s.penR4 := rfl
@[simp] theorem finish_darkCount : (finish s).darkCount = s.darkCount := rfl
@[simp] theorem finish_bestPenalty : (finish s).bestPenalty = s.bestPenalty := rfl
@[simp] theorem finish_bestMask : (finish s).bestMask = s.bestMask := rfl
@[simp] theorem finish_errInfo : (finish s).errInfo = s.errInfo := rfl
@[simp] theorem finish_seq : (finish s).seq = .idle := rfl
@[simp] theorem finish_psc : (finish s).psc = s.psc := rfl
@[simp] theorem finish_mem : (finish s).mem = s.mem := rfl
@[simp] theorem finish_params : (finish s).params = s.params := rfl
@[simp] theorem finish_schedule : (finish s).schedule = s.schedule := rfl
@[simp] theorem finish_reply : (finish s).reply = s.reply := rfl

/-! ## answer -/

@[simp] theorem answer_done (r : Reply) : (answer r s).done = s.done := rfl
@[simp] theorem answer_err (r : Reply) : (answer r s).err = s.err := rfl
@[simp] theorem answer_errCode (r : Reply) : (answer r s).errCode = s.errCode := rfl
@[simp] theorem answer_verValid (r : Reply) : (answer r s).verValid = s.verValid := rfl
@[simp] theorem answer_bestValid (r : Reply) : (answer r s).bestValid = s.bestValid := rfl
@[simp] theorem answer_irqEn (r : Reply) : (answer r s).irqEn = s.irqEn := rfl
@[simp] theorem answer_rule3Mode (r : Reply) : (answer r s).rule3Mode = s.rule3Mode := rfl
@[simp] theorem answer_version (r : Reply) : (answer r s).version = s.version := rfl
@[simp] theorem answer_mask (r : Reply) : (answer r s).mask = s.mask := rfl
@[simp] theorem answer_fmtId (r : Reply) : (answer r s).fmtId = s.fmtId := rfl
@[simp] theorem answer_fmtWord (r : Reply) : (answer r s).fmtWord = s.fmtWord := rfl
@[simp] theorem answer_verWord (r : Reply) : (answer r s).verWord = s.verWord := rfl
@[simp] theorem answer_penTotal (r : Reply) : (answer r s).penTotal = s.penTotal := rfl
@[simp] theorem answer_penR1 (r : Reply) : (answer r s).penR1 = s.penR1 := rfl
@[simp] theorem answer_penR2 (r : Reply) : (answer r s).penR2 = s.penR2 := rfl
@[simp] theorem answer_penR3 (r : Reply) : (answer r s).penR3 = s.penR3 := rfl
@[simp] theorem answer_penR4 (r : Reply) : (answer r s).penR4 = s.penR4 := rfl
@[simp] theorem answer_darkCount (r : Reply) : (answer r s).darkCount = s.darkCount := rfl
@[simp] theorem answer_bestPenalty (r : Reply) : (answer r s).bestPenalty = s.bestPenalty := rfl
@[simp] theorem answer_bestMask (r : Reply) : (answer r s).bestMask = s.bestMask := rfl
@[simp] theorem answer_errInfo (r : Reply) : (answer r s).errInfo = s.errInfo := rfl
@[simp] theorem answer_seq (r : Reply) : (answer r s).seq = s.seq := rfl
@[simp] theorem answer_psc (r : Reply) : (answer r s).psc = s.psc := rfl
@[simp] theorem answer_mem (r : Reply) : (answer r s).mem = s.mem := rfl
@[simp] theorem answer_params (r : Reply) : (answer r s).params = s.params := rfl
@[simp] theorem answer_schedule (r : Reply) : (answer r s).schedule = s.schedule := rfl
@[simp] theorem answer_reply (r : Reply) : (answer r s).reply = r := rfl

/-! ## storeMatrix -/

@[simp] theorem storeMatrix_done (m : Memory) : (storeMatrix m s).done = s.done := rfl
@[simp] theorem storeMatrix_err (m : Memory) : (storeMatrix m s).err = s.err := rfl
@[simp] theorem storeMatrix_errCode (m : Memory) : (storeMatrix m s).errCode = s.errCode := rfl
@[simp] theorem storeMatrix_verValid (m : Memory) : (storeMatrix m s).verValid = s.verValid := rfl
@[simp] theorem storeMatrix_bestValid (m : Memory) : (storeMatrix m s).bestValid = s.bestValid := rfl
@[simp] theorem storeMatrix_irqEn (m : Memory) : (storeMatrix m s).irqEn = s.irqEn := rfl
@[simp] theorem storeMatrix_rule3Mode (m : Memory) : (storeMatrix m s).rule3Mode = s.rule3Mode := rfl
@[simp] theorem storeMatrix_version (m : Memory) : (storeMatrix m s).version = s.version := rfl
@[simp] theorem storeMatrix_mask (m : Memory) : (storeMatrix m s).mask = s.mask := rfl
@[simp] theorem storeMatrix_fmtId (m : Memory) : (storeMatrix m s).fmtId = s.fmtId := rfl
@[simp] theorem storeMatrix_fmtWord (m : Memory) : (storeMatrix m s).fmtWord = s.fmtWord := rfl
@[simp] theorem storeMatrix_verWord (m : Memory) : (storeMatrix m s).verWord = s.verWord := rfl
@[simp] theorem storeMatrix_penTotal (m : Memory) : (storeMatrix m s).penTotal = s.penTotal := rfl
@[simp] theorem storeMatrix_penR1 (m : Memory) : (storeMatrix m s).penR1 = s.penR1 := rfl
@[simp] theorem storeMatrix_penR2 (m : Memory) : (storeMatrix m s).penR2 = s.penR2 := rfl
@[simp] theorem storeMatrix_penR3 (m : Memory) : (storeMatrix m s).penR3 = s.penR3 := rfl
@[simp] theorem storeMatrix_penR4 (m : Memory) : (storeMatrix m s).penR4 = s.penR4 := rfl
@[simp] theorem storeMatrix_darkCount (m : Memory) : (storeMatrix m s).darkCount = s.darkCount := rfl
@[simp] theorem storeMatrix_bestPenalty (m : Memory) : (storeMatrix m s).bestPenalty = s.bestPenalty := rfl
@[simp] theorem storeMatrix_bestMask (m : Memory) : (storeMatrix m s).bestMask = s.bestMask := rfl
@[simp] theorem storeMatrix_errInfo (m : Memory) : (storeMatrix m s).errInfo = s.errInfo := rfl
@[simp] theorem storeMatrix_seq (m : Memory) : (storeMatrix m s).seq = s.seq := rfl
@[simp] theorem storeMatrix_psc (m : Memory) : (storeMatrix m s).psc = s.psc := rfl
@[simp] theorem storeMatrix_mem (m : Memory) : (storeMatrix m s).mem = m := rfl
@[simp] theorem storeMatrix_params (m : Memory) : (storeMatrix m s).params = s.params := rfl
@[simp] theorem storeMatrix_schedule (m : Memory) : (storeMatrix m s).schedule = s.schedule := rfl
@[simp] theorem storeMatrix_reply (m : Memory) : (storeMatrix m s).reply = s.reply := rfl

/-! ## withSchedule -/

@[simp] theorem withSchedule_done (ts : List Turn) : (withSchedule ts s).done = s.done := rfl
@[simp] theorem withSchedule_err (ts : List Turn) : (withSchedule ts s).err = s.err := rfl
@[simp] theorem withSchedule_errCode (ts : List Turn) : (withSchedule ts s).errCode = s.errCode := rfl
@[simp] theorem withSchedule_verValid (ts : List Turn) : (withSchedule ts s).verValid = s.verValid := rfl
@[simp] theorem withSchedule_bestValid (ts : List Turn) : (withSchedule ts s).bestValid = s.bestValid := rfl
@[simp] theorem withSchedule_irqEn (ts : List Turn) : (withSchedule ts s).irqEn = s.irqEn := rfl
@[simp] theorem withSchedule_rule3Mode (ts : List Turn) : (withSchedule ts s).rule3Mode = s.rule3Mode := rfl
@[simp] theorem withSchedule_version (ts : List Turn) : (withSchedule ts s).version = s.version := rfl
@[simp] theorem withSchedule_mask (ts : List Turn) : (withSchedule ts s).mask = s.mask := rfl
@[simp] theorem withSchedule_fmtId (ts : List Turn) : (withSchedule ts s).fmtId = s.fmtId := rfl
@[simp] theorem withSchedule_fmtWord (ts : List Turn) : (withSchedule ts s).fmtWord = s.fmtWord := rfl
@[simp] theorem withSchedule_verWord (ts : List Turn) : (withSchedule ts s).verWord = s.verWord := rfl
@[simp] theorem withSchedule_penTotal (ts : List Turn) : (withSchedule ts s).penTotal = s.penTotal := rfl
@[simp] theorem withSchedule_penR1 (ts : List Turn) : (withSchedule ts s).penR1 = s.penR1 := rfl
@[simp] theorem withSchedule_penR2 (ts : List Turn) : (withSchedule ts s).penR2 = s.penR2 := rfl
@[simp] theorem withSchedule_penR3 (ts : List Turn) : (withSchedule ts s).penR3 = s.penR3 := rfl
@[simp] theorem withSchedule_penR4 (ts : List Turn) : (withSchedule ts s).penR4 = s.penR4 := rfl
@[simp] theorem withSchedule_darkCount (ts : List Turn) : (withSchedule ts s).darkCount = s.darkCount := rfl
@[simp] theorem withSchedule_bestPenalty (ts : List Turn) : (withSchedule ts s).bestPenalty = s.bestPenalty := rfl
@[simp] theorem withSchedule_bestMask (ts : List Turn) : (withSchedule ts s).bestMask = s.bestMask := rfl
@[simp] theorem withSchedule_errInfo (ts : List Turn) : (withSchedule ts s).errInfo = s.errInfo := rfl
@[simp] theorem withSchedule_seq (ts : List Turn) : (withSchedule ts s).seq = s.seq := rfl
@[simp] theorem withSchedule_psc (ts : List Turn) : (withSchedule ts s).psc = s.psc := rfl
@[simp] theorem withSchedule_mem (ts : List Turn) : (withSchedule ts s).mem = s.mem := rfl
@[simp] theorem withSchedule_params (ts : List Turn) : (withSchedule ts s).params = s.params := rfl
@[simp] theorem withSchedule_schedule (ts : List Turn) : (withSchedule ts s).schedule = ts := rfl
@[simp] theorem withSchedule_reply (ts : List Turn) : (withSchedule ts s).reply = s.reply := rfl

/-! ## clearError -/

@[simp] theorem clearError_done : (clearError s).done = s.done := rfl
@[simp] theorem clearError_err : (clearError s).err = false := rfl
@[simp] theorem clearError_errCode : (clearError s).errCode = .none := rfl
@[simp] theorem clearError_verValid : (clearError s).verValid = s.verValid := rfl
@[simp] theorem clearError_bestValid : (clearError s).bestValid = s.bestValid := rfl
@[simp] theorem clearError_irqEn : (clearError s).irqEn = s.irqEn := rfl
@[simp] theorem clearError_rule3Mode : (clearError s).rule3Mode = s.rule3Mode := rfl
@[simp] theorem clearError_version : (clearError s).version = s.version := rfl
@[simp] theorem clearError_mask : (clearError s).mask = s.mask := rfl
@[simp] theorem clearError_fmtId : (clearError s).fmtId = s.fmtId := rfl
@[simp] theorem clearError_fmtWord : (clearError s).fmtWord = s.fmtWord := rfl
@[simp] theorem clearError_verWord : (clearError s).verWord = s.verWord := rfl
@[simp] theorem clearError_penTotal : (clearError s).penTotal = s.penTotal := rfl
@[simp] theorem clearError_penR1 : (clearError s).penR1 = s.penR1 := rfl
@[simp] theorem clearError_penR2 : (clearError s).penR2 = s.penR2 := rfl
@[simp] theorem clearError_penR3 : (clearError s).penR3 = s.penR3 := rfl
@[simp] theorem clearError_penR4 : (clearError s).penR4 = s.penR4 := rfl
@[simp] theorem clearError_darkCount : (clearError s).darkCount = s.darkCount := rfl
@[simp] theorem clearError_bestPenalty : (clearError s).bestPenalty = s.bestPenalty := rfl
@[simp] theorem clearError_bestMask : (clearError s).bestMask = s.bestMask := rfl
@[simp] theorem clearError_errInfo : (clearError s).errInfo = 0 := rfl
@[simp] theorem clearError_seq : (clearError s).seq = s.seq := rfl
@[simp] theorem clearError_psc : (clearError s).psc = s.psc := rfl
@[simp] theorem clearError_mem : (clearError s).mem = s.mem := rfl
@[simp] theorem clearError_params : (clearError s).params = s.params := rfl
@[simp] theorem clearError_schedule : (clearError s).schedule = s.schedule := rfl
@[simp] theorem clearError_reply : (clearError s).reply = s.reply := rfl

/-! ## clearDone -/

@[simp] theorem clearDone_done : (clearDone s).done = false := rfl
@[simp] theorem clearDone_err : (clearDone s).err = s.err := rfl
@[simp] theorem clearDone_errCode : (clearDone s).errCode = s.errCode := rfl
@[simp] theorem clearDone_verValid : (clearDone s).verValid = s.verValid := rfl
@[simp] theorem clearDone_bestValid : (clearDone s).bestValid = s.bestValid := rfl
@[simp] theorem clearDone_irqEn : (clearDone s).irqEn = s.irqEn := rfl
@[simp] theorem clearDone_rule3Mode : (clearDone s).rule3Mode = s.rule3Mode := rfl
@[simp] theorem clearDone_version : (clearDone s).version = s.version := rfl
@[simp] theorem clearDone_mask : (clearDone s).mask = s.mask := rfl
@[simp] theorem clearDone_fmtId : (clearDone s).fmtId = s.fmtId := rfl
@[simp] theorem clearDone_fmtWord : (clearDone s).fmtWord = s.fmtWord := rfl
@[simp] theorem clearDone_verWord : (clearDone s).verWord = s.verWord := rfl
@[simp] theorem clearDone_penTotal : (clearDone s).penTotal = s.penTotal := rfl
@[simp] theorem clearDone_penR1 : (clearDone s).penR1 = s.penR1 := rfl
@[simp] theorem clearDone_penR2 : (clearDone s).penR2 = s.penR2 := rfl
@[simp] theorem clearDone_penR3 : (clearDone s).penR3 = s.penR3 := rfl
@[simp] theorem clearDone_penR4 : (clearDone s).penR4 = s.penR4 := rfl
@[simp] theorem clearDone_darkCount : (clearDone s).darkCount = s.darkCount := rfl
@[simp] theorem clearDone_bestPenalty : (clearDone s).bestPenalty = s.bestPenalty := rfl
@[simp] theorem clearDone_bestMask : (clearDone s).bestMask = s.bestMask := rfl
@[simp] theorem clearDone_errInfo : (clearDone s).errInfo = s.errInfo := rfl
@[simp] theorem clearDone_seq : (clearDone s).seq = s.seq := rfl
@[simp] theorem clearDone_psc : (clearDone s).psc = s.psc := rfl
@[simp] theorem clearDone_mem : (clearDone s).mem = s.mem := rfl
@[simp] theorem clearDone_params : (clearDone s).params = s.params := rfl
@[simp] theorem clearDone_schedule : (clearDone s).schedule = s.schedule := rfl
@[simp] theorem clearDone_reply : (clearDone s).reply = s.reply := rfl

/-! ## storeCtrl -/

@[simp] theorem storeCtrl_done (v : Word) : (storeCtrl v s).done = s.done := rfl
@[simp] theorem storeCtrl_err (v : Word) : (storeCtrl v s).err = s.err := rfl
@[simp] theorem storeCtrl_errCode (v : Word) : (storeCtrl v s).errCode = s.errCode := rfl
@[simp] theorem storeCtrl_verValid (v : Word) : (storeCtrl v s).verValid = s.verValid := rfl
@[simp] theorem storeCtrl_bestValid (v : Word) : (storeCtrl v s).bestValid = s.bestValid := rfl
@[simp] theorem storeCtrl_irqEn (v : Word) : (storeCtrl v s).irqEn = v.getLsbD 0 := rfl
@[simp] theorem storeCtrl_rule3Mode (v : Word) : (storeCtrl v s).rule3Mode = Rule3Mode.ofBits (v.extractLsb' 1 2) := rfl
@[simp] theorem storeCtrl_version (v : Word) : (storeCtrl v s).version = s.version := rfl
@[simp] theorem storeCtrl_mask (v : Word) : (storeCtrl v s).mask = s.mask := rfl
@[simp] theorem storeCtrl_fmtId (v : Word) : (storeCtrl v s).fmtId = s.fmtId := rfl
@[simp] theorem storeCtrl_fmtWord (v : Word) : (storeCtrl v s).fmtWord = s.fmtWord := rfl
@[simp] theorem storeCtrl_verWord (v : Word) : (storeCtrl v s).verWord = s.verWord := rfl
@[simp] theorem storeCtrl_penTotal (v : Word) : (storeCtrl v s).penTotal = s.penTotal := rfl
@[simp] theorem storeCtrl_penR1 (v : Word) : (storeCtrl v s).penR1 = s.penR1 := rfl
@[simp] theorem storeCtrl_penR2 (v : Word) : (storeCtrl v s).penR2 = s.penR2 := rfl
@[simp] theorem storeCtrl_penR3 (v : Word) : (storeCtrl v s).penR3 = s.penR3 := rfl
@[simp] theorem storeCtrl_penR4 (v : Word) : (storeCtrl v s).penR4 = s.penR4 := rfl
@[simp] theorem storeCtrl_darkCount (v : Word) : (storeCtrl v s).darkCount = s.darkCount := rfl
@[simp] theorem storeCtrl_bestPenalty (v : Word) : (storeCtrl v s).bestPenalty = s.bestPenalty := rfl
@[simp] theorem storeCtrl_bestMask (v : Word) : (storeCtrl v s).bestMask = s.bestMask := rfl
@[simp] theorem storeCtrl_errInfo (v : Word) : (storeCtrl v s).errInfo = s.errInfo := rfl
@[simp] theorem storeCtrl_seq (v : Word) : (storeCtrl v s).seq = s.seq := rfl
@[simp] theorem storeCtrl_psc (v : Word) : (storeCtrl v s).psc = s.psc := rfl
@[simp] theorem storeCtrl_mem (v : Word) : (storeCtrl v s).mem = s.mem := rfl
@[simp] theorem storeCtrl_params (v : Word) : (storeCtrl v s).params = s.params := rfl
@[simp] theorem storeCtrl_schedule (v : Word) : (storeCtrl v s).schedule = s.schedule := rfl
@[simp] theorem storeCtrl_reply (v : Word) : (storeCtrl v s).reply = s.reply := rfl

/-! ## storeVersion -/

@[simp] theorem storeVersion_done (v : BitVec 6) : (storeVersion v s).done = s.done := rfl
@[simp] theorem storeVersion_err (v : BitVec 6) : (storeVersion v s).err = s.err := rfl
@[simp] theorem storeVersion_errCode (v : BitVec 6) : (storeVersion v s).errCode = s.errCode := rfl
@[simp] theorem storeVersion_verValid (v : BitVec 6) : (storeVersion v s).verValid = false := rfl
@[simp] theorem storeVersion_bestValid (v : BitVec 6) : (storeVersion v s).bestValid = s.bestValid := rfl
@[simp] theorem storeVersion_irqEn (v : BitVec 6) : (storeVersion v s).irqEn = s.irqEn := rfl
@[simp] theorem storeVersion_rule3Mode (v : BitVec 6) : (storeVersion v s).rule3Mode = s.rule3Mode := rfl
@[simp] theorem storeVersion_version (v : BitVec 6) : (storeVersion v s).version = v := rfl
@[simp] theorem storeVersion_mask (v : BitVec 6) : (storeVersion v s).mask = s.mask := rfl
@[simp] theorem storeVersion_fmtId (v : BitVec 6) : (storeVersion v s).fmtId = s.fmtId := rfl
@[simp] theorem storeVersion_fmtWord (v : BitVec 6) : (storeVersion v s).fmtWord = s.fmtWord := rfl
@[simp] theorem storeVersion_verWord (v : BitVec 6) : (storeVersion v s).verWord = s.verWord := rfl
@[simp] theorem storeVersion_penTotal (v : BitVec 6) : (storeVersion v s).penTotal = s.penTotal := rfl
@[simp] theorem storeVersion_penR1 (v : BitVec 6) : (storeVersion v s).penR1 = s.penR1 := rfl
@[simp] theorem storeVersion_penR2 (v : BitVec 6) : (storeVersion v s).penR2 = s.penR2 := rfl
@[simp] theorem storeVersion_penR3 (v : BitVec 6) : (storeVersion v s).penR3 = s.penR3 := rfl
@[simp] theorem storeVersion_penR4 (v : BitVec 6) : (storeVersion v s).penR4 = s.penR4 := rfl
@[simp] theorem storeVersion_darkCount (v : BitVec 6) : (storeVersion v s).darkCount = s.darkCount := rfl
@[simp] theorem storeVersion_bestPenalty (v : BitVec 6) : (storeVersion v s).bestPenalty = s.bestPenalty := rfl
@[simp] theorem storeVersion_bestMask (v : BitVec 6) : (storeVersion v s).bestMask = s.bestMask := rfl
@[simp] theorem storeVersion_errInfo (v : BitVec 6) : (storeVersion v s).errInfo = s.errInfo := rfl
@[simp] theorem storeVersion_seq (v : BitVec 6) : (storeVersion v s).seq = s.seq := rfl
@[simp] theorem storeVersion_psc (v : BitVec 6) : (storeVersion v s).psc = s.psc := rfl
@[simp] theorem storeVersion_mem (v : BitVec 6) : (storeVersion v s).mem = s.mem := rfl
@[simp] theorem storeVersion_params (v : BitVec 6) : (storeVersion v s).params = s.params := rfl
@[simp] theorem storeVersion_schedule (v : BitVec 6) : (storeVersion v s).schedule = s.schedule := rfl
@[simp] theorem storeVersion_reply (v : BitVec 6) : (storeVersion v s).reply = s.reply := rfl

/-! ## storeMask -/

@[simp] theorem storeMask_done (m : BitVec 3) : (storeMask m s).done = s.done := rfl
@[simp] theorem storeMask_err (m : BitVec 3) : (storeMask m s).err = s.err := rfl
@[simp] theorem storeMask_errCode (m : BitVec 3) : (storeMask m s).errCode = s.errCode := rfl
@[simp] theorem storeMask_verValid (m : BitVec 3) : (storeMask m s).verValid = s.verValid := rfl
@[simp] theorem storeMask_bestValid (m : BitVec 3) : (storeMask m s).bestValid = s.bestValid := rfl
@[simp] theorem storeMask_irqEn (m : BitVec 3) : (storeMask m s).irqEn = s.irqEn := rfl
@[simp] theorem storeMask_rule3Mode (m : BitVec 3) : (storeMask m s).rule3Mode = s.rule3Mode := rfl
@[simp] theorem storeMask_version (m : BitVec 3) : (storeMask m s).version = s.version := rfl
@[simp] theorem storeMask_mask (m : BitVec 3) : (storeMask m s).mask = m := rfl
@[simp] theorem storeMask_fmtId (m : BitVec 3) : (storeMask m s).fmtId = s.fmtId := rfl
@[simp] theorem storeMask_fmtWord (m : BitVec 3) : (storeMask m s).fmtWord = s.fmtWord := rfl
@[simp] theorem storeMask_verWord (m : BitVec 3) : (storeMask m s).verWord = s.verWord := rfl
@[simp] theorem storeMask_penTotal (m : BitVec 3) : (storeMask m s).penTotal = s.penTotal := rfl
@[simp] theorem storeMask_penR1 (m : BitVec 3) : (storeMask m s).penR1 = s.penR1 := rfl
@[simp] theorem storeMask_penR2 (m : BitVec 3) : (storeMask m s).penR2 = s.penR2 := rfl
@[simp] theorem storeMask_penR3 (m : BitVec 3) : (storeMask m s).penR3 = s.penR3 := rfl
@[simp] theorem storeMask_penR4 (m : BitVec 3) : (storeMask m s).penR4 = s.penR4 := rfl
@[simp] theorem storeMask_darkCount (m : BitVec 3) : (storeMask m s).darkCount = s.darkCount := rfl
@[simp] theorem storeMask_bestPenalty (m : BitVec 3) : (storeMask m s).bestPenalty = s.bestPenalty := rfl
@[simp] theorem storeMask_bestMask (m : BitVec 3) : (storeMask m s).bestMask = s.bestMask := rfl
@[simp] theorem storeMask_errInfo (m : BitVec 3) : (storeMask m s).errInfo = s.errInfo := rfl
@[simp] theorem storeMask_seq (m : BitVec 3) : (storeMask m s).seq = s.seq := rfl
@[simp] theorem storeMask_psc (m : BitVec 3) : (storeMask m s).psc = s.psc := rfl
@[simp] theorem storeMask_mem (m : BitVec 3) : (storeMask m s).mem = s.mem := rfl
@[simp] theorem storeMask_params (m : BitVec 3) : (storeMask m s).params = s.params := rfl
@[simp] theorem storeMask_schedule (m : BitVec 3) : (storeMask m s).schedule = s.schedule := rfl
@[simp] theorem storeMask_reply (m : BitVec 3) : (storeMask m s).reply = s.reply := rfl

/-! ## storeFmtId -/

@[simp] theorem storeFmtId_done (f : BitVec 5) : (storeFmtId f s).done = s.done := rfl
@[simp] theorem storeFmtId_err (f : BitVec 5) : (storeFmtId f s).err = s.err := rfl
@[simp] theorem storeFmtId_errCode (f : BitVec 5) : (storeFmtId f s).errCode = s.errCode := rfl
@[simp] theorem storeFmtId_verValid (f : BitVec 5) : (storeFmtId f s).verValid = s.verValid := rfl
@[simp] theorem storeFmtId_bestValid (f : BitVec 5) : (storeFmtId f s).bestValid = s.bestValid := rfl
@[simp] theorem storeFmtId_irqEn (f : BitVec 5) : (storeFmtId f s).irqEn = s.irqEn := rfl
@[simp] theorem storeFmtId_rule3Mode (f : BitVec 5) : (storeFmtId f s).rule3Mode = s.rule3Mode := rfl
@[simp] theorem storeFmtId_version (f : BitVec 5) : (storeFmtId f s).version = s.version := rfl
@[simp] theorem storeFmtId_mask (f : BitVec 5) : (storeFmtId f s).mask = s.mask := rfl
@[simp] theorem storeFmtId_fmtId (f : BitVec 5) : (storeFmtId f s).fmtId = f := rfl
@[simp] theorem storeFmtId_fmtWord (f : BitVec 5) : (storeFmtId f s).fmtWord = s.fmtWord := rfl
@[simp] theorem storeFmtId_verWord (f : BitVec 5) : (storeFmtId f s).verWord = s.verWord := rfl
@[simp] theorem storeFmtId_penTotal (f : BitVec 5) : (storeFmtId f s).penTotal = s.penTotal := rfl
@[simp] theorem storeFmtId_penR1 (f : BitVec 5) : (storeFmtId f s).penR1 = s.penR1 := rfl
@[simp] theorem storeFmtId_penR2 (f : BitVec 5) : (storeFmtId f s).penR2 = s.penR2 := rfl
@[simp] theorem storeFmtId_penR3 (f : BitVec 5) : (storeFmtId f s).penR3 = s.penR3 := rfl
@[simp] theorem storeFmtId_penR4 (f : BitVec 5) : (storeFmtId f s).penR4 = s.penR4 := rfl
@[simp] theorem storeFmtId_darkCount (f : BitVec 5) : (storeFmtId f s).darkCount = s.darkCount := rfl
@[simp] theorem storeFmtId_bestPenalty (f : BitVec 5) : (storeFmtId f s).bestPenalty = s.bestPenalty := rfl
@[simp] theorem storeFmtId_bestMask (f : BitVec 5) : (storeFmtId f s).bestMask = s.bestMask := rfl
@[simp] theorem storeFmtId_errInfo (f : BitVec 5) : (storeFmtId f s).errInfo = s.errInfo := rfl
@[simp] theorem storeFmtId_seq (f : BitVec 5) : (storeFmtId f s).seq = s.seq := rfl
@[simp] theorem storeFmtId_psc (f : BitVec 5) : (storeFmtId f s).psc = s.psc := rfl
@[simp] theorem storeFmtId_mem (f : BitVec 5) : (storeFmtId f s).mem = s.mem := rfl
@[simp] theorem storeFmtId_params (f : BitVec 5) : (storeFmtId f s).params = s.params := rfl
@[simp] theorem storeFmtId_schedule (f : BitVec 5) : (storeFmtId f s).schedule = s.schedule := rfl
@[simp] theorem storeFmtId_reply (f : BitVec 5) : (storeFmtId f s).reply = s.reply := rfl

/-! ## startCommand -/

@[simp] theorem startCommand_done (l : Latched) : (startCommand l s).done = s.done := rfl
@[simp] theorem startCommand_err (l : Latched) : (startCommand l s).err = s.err := rfl
@[simp] theorem startCommand_errCode (l : Latched) : (startCommand l s).errCode = s.errCode := rfl
@[simp] theorem startCommand_verValid (l : Latched) : (startCommand l s).verValid = s.verValid := rfl
@[simp] theorem startCommand_bestValid (l : Latched) : (startCommand l s).bestValid = s.bestValid := rfl
@[simp] theorem startCommand_irqEn (l : Latched) : (startCommand l s).irqEn = s.irqEn := rfl
@[simp] theorem startCommand_rule3Mode (l : Latched) : (startCommand l s).rule3Mode = s.rule3Mode := rfl
@[simp] theorem startCommand_version (l : Latched) : (startCommand l s).version = s.version := rfl
@[simp] theorem startCommand_mask (l : Latched) : (startCommand l s).mask = s.mask := rfl
@[simp] theorem startCommand_fmtId (l : Latched) : (startCommand l s).fmtId = s.fmtId := rfl
@[simp] theorem startCommand_fmtWord (l : Latched) : (startCommand l s).fmtWord = s.fmtWord := rfl
@[simp] theorem startCommand_verWord (l : Latched) : (startCommand l s).verWord = s.verWord := rfl
@[simp] theorem startCommand_penTotal (l : Latched) : (startCommand l s).penTotal = s.penTotal := rfl
@[simp] theorem startCommand_penR1 (l : Latched) : (startCommand l s).penR1 = s.penR1 := rfl
@[simp] theorem startCommand_penR2 (l : Latched) : (startCommand l s).penR2 = s.penR2 := rfl
@[simp] theorem startCommand_penR3 (l : Latched) : (startCommand l s).penR3 = s.penR3 := rfl
@[simp] theorem startCommand_penR4 (l : Latched) : (startCommand l s).penR4 = s.penR4 := rfl
@[simp] theorem startCommand_darkCount (l : Latched) : (startCommand l s).darkCount = s.darkCount := rfl
@[simp] theorem startCommand_bestPenalty (l : Latched) : (startCommand l s).bestPenalty = s.bestPenalty := rfl
@[simp] theorem startCommand_bestMask (l : Latched) : (startCommand l s).bestMask = s.bestMask := rfl
@[simp] theorem startCommand_errInfo (l : Latched) : (startCommand l s).errInfo = s.errInfo := rfl
@[simp] theorem startCommand_seq (l : Latched) : (startCommand l s).seq = .run l := rfl
@[simp] theorem startCommand_psc (l : Latched) : (startCommand l s).psc = startScan l s.psc := rfl
@[simp] theorem startCommand_mem (l : Latched) : (startCommand l s).mem = s.mem := rfl
@[simp] theorem startCommand_params (l : Latched) : (startCommand l s).params = s.params := rfl
@[simp] theorem startCommand_schedule (l : Latched) : (startCommand l s).schedule = s.schedule := rfl
@[simp] theorem startCommand_reply (l : Latched) : (startCommand l s).reply = s.reply := rfl

/-! ## fcalcEffect -/

@[simp] theorem fcalcEffect_done (l : Latched) : (fcalcEffect l s).done = s.done := rfl
@[simp] theorem fcalcEffect_err (l : Latched) : (fcalcEffect l s).err = s.err := rfl
@[simp] theorem fcalcEffect_errCode (l : Latched) : (fcalcEffect l s).errCode = s.errCode := rfl
@[simp] theorem fcalcEffect_verValid (l : Latched) : (fcalcEffect l s).verValid = s.verValid := rfl
@[simp] theorem fcalcEffect_bestValid (l : Latched) : (fcalcEffect l s).bestValid = s.bestValid := rfl
@[simp] theorem fcalcEffect_irqEn (l : Latched) : (fcalcEffect l s).irqEn = s.irqEn := rfl
@[simp] theorem fcalcEffect_rule3Mode (l : Latched) : (fcalcEffect l s).rule3Mode = s.rule3Mode := rfl
@[simp] theorem fcalcEffect_version (l : Latched) : (fcalcEffect l s).version = s.version := rfl
@[simp] theorem fcalcEffect_mask (l : Latched) : (fcalcEffect l s).mask = s.mask := rfl
@[simp] theorem fcalcEffect_fmtId (l : Latched) : (fcalcEffect l s).fmtId = s.fmtId := rfl
@[simp] theorem fcalcEffect_fmtWord (l : Latched) : (fcalcEffect l s).fmtWord = formatWord s.params.g15 l.fmtId := rfl
@[simp] theorem fcalcEffect_verWord (l : Latched) : (fcalcEffect l s).verWord = s.verWord := rfl
@[simp] theorem fcalcEffect_penTotal (l : Latched) : (fcalcEffect l s).penTotal = s.penTotal := rfl
@[simp] theorem fcalcEffect_penR1 (l : Latched) : (fcalcEffect l s).penR1 = s.penR1 := rfl
@[simp] theorem fcalcEffect_penR2 (l : Latched) : (fcalcEffect l s).penR2 = s.penR2 := rfl
@[simp] theorem fcalcEffect_penR3 (l : Latched) : (fcalcEffect l s).penR3 = s.penR3 := rfl
@[simp] theorem fcalcEffect_penR4 (l : Latched) : (fcalcEffect l s).penR4 = s.penR4 := rfl
@[simp] theorem fcalcEffect_darkCount (l : Latched) : (fcalcEffect l s).darkCount = s.darkCount := rfl
@[simp] theorem fcalcEffect_bestPenalty (l : Latched) : (fcalcEffect l s).bestPenalty = s.bestPenalty := rfl
@[simp] theorem fcalcEffect_bestMask (l : Latched) : (fcalcEffect l s).bestMask = s.bestMask := rfl
@[simp] theorem fcalcEffect_errInfo (l : Latched) : (fcalcEffect l s).errInfo = s.errInfo := rfl
@[simp] theorem fcalcEffect_seq (l : Latched) : (fcalcEffect l s).seq = s.seq := rfl
@[simp] theorem fcalcEffect_psc (l : Latched) : (fcalcEffect l s).psc = s.psc := rfl
@[simp] theorem fcalcEffect_mem (l : Latched) : (fcalcEffect l s).mem = s.mem := rfl
@[simp] theorem fcalcEffect_params (l : Latched) : (fcalcEffect l s).params = s.params := rfl
@[simp] theorem fcalcEffect_schedule (l : Latched) : (fcalcEffect l s).schedule = s.schedule := rfl
@[simp] theorem fcalcEffect_reply (l : Latched) : (fcalcEffect l s).reply = s.reply := rfl

/-! ## fcalcmEffect -/

@[simp] theorem fcalcmEffect_done (l : Latched) : (fcalcmEffect l s).done = s.done := rfl
@[simp] theorem fcalcmEffect_err (l : Latched) : (fcalcmEffect l s).err = s.err := rfl
@[simp] theorem fcalcmEffect_errCode (l : Latched) : (fcalcmEffect l s).errCode = s.errCode := rfl
@[simp] theorem fcalcmEffect_verValid (l : Latched) : (fcalcmEffect l s).verValid = s.verValid := rfl
@[simp] theorem fcalcmEffect_bestValid (l : Latched) : (fcalcmEffect l s).bestValid = s.bestValid := rfl
@[simp] theorem fcalcmEffect_irqEn (l : Latched) : (fcalcmEffect l s).irqEn = s.irqEn := rfl
@[simp] theorem fcalcmEffect_rule3Mode (l : Latched) : (fcalcmEffect l s).rule3Mode = s.rule3Mode := rfl
@[simp] theorem fcalcmEffect_version (l : Latched) : (fcalcmEffect l s).version = s.version := rfl
@[simp] theorem fcalcmEffect_mask (l : Latched) : (fcalcmEffect l s).mask = s.mask := rfl
@[simp] theorem fcalcmEffect_fmtId (l : Latched) : (fcalcmEffect l s).fmtId = s.fmtId := rfl
@[simp] theorem fcalcmEffect_fmtWord (l : Latched) : (fcalcmEffect l s).fmtWord = formatWord s.params.g15 (formatId Config.ecl l.mask) := rfl
@[simp] theorem fcalcmEffect_verWord (l : Latched) : (fcalcmEffect l s).verWord = s.verWord := rfl
@[simp] theorem fcalcmEffect_penTotal (l : Latched) : (fcalcmEffect l s).penTotal = s.penTotal := rfl
@[simp] theorem fcalcmEffect_penR1 (l : Latched) : (fcalcmEffect l s).penR1 = s.penR1 := rfl
@[simp] theorem fcalcmEffect_penR2 (l : Latched) : (fcalcmEffect l s).penR2 = s.penR2 := rfl
@[simp] theorem fcalcmEffect_penR3 (l : Latched) : (fcalcmEffect l s).penR3 = s.penR3 := rfl
@[simp] theorem fcalcmEffect_penR4 (l : Latched) : (fcalcmEffect l s).penR4 = s.penR4 := rfl
@[simp] theorem fcalcmEffect_darkCount (l : Latched) : (fcalcmEffect l s).darkCount = s.darkCount := rfl
@[simp] theorem fcalcmEffect_bestPenalty (l : Latched) : (fcalcmEffect l s).bestPenalty = s.bestPenalty := rfl
@[simp] theorem fcalcmEffect_bestMask (l : Latched) : (fcalcmEffect l s).bestMask = s.bestMask := rfl
@[simp] theorem fcalcmEffect_errInfo (l : Latched) : (fcalcmEffect l s).errInfo = s.errInfo := rfl
@[simp] theorem fcalcmEffect_seq (l : Latched) : (fcalcmEffect l s).seq = s.seq := rfl
@[simp] theorem fcalcmEffect_psc (l : Latched) : (fcalcmEffect l s).psc = s.psc := rfl
@[simp] theorem fcalcmEffect_mem (l : Latched) : (fcalcmEffect l s).mem = s.mem := rfl
@[simp] theorem fcalcmEffect_params (l : Latched) : (fcalcmEffect l s).params = s.params := rfl
@[simp] theorem fcalcmEffect_schedule (l : Latched) : (fcalcmEffect l s).schedule = s.schedule := rfl
@[simp] theorem fcalcmEffect_reply (l : Latched) : (fcalcmEffect l s).reply = s.reply := rfl

/-! ## vcalcEffect -/

@[simp] theorem vcalcEffect_done (l : Latched) : (vcalcEffect l s).done = s.done := rfl
@[simp] theorem vcalcEffect_err (l : Latched) : (vcalcEffect l s).err = s.err := rfl
@[simp] theorem vcalcEffect_errCode (l : Latched) : (vcalcEffect l s).errCode = s.errCode := rfl
@[simp] theorem vcalcEffect_verValid (l : Latched) : (vcalcEffect l s).verValid = hasVersionWord l.version := rfl
@[simp] theorem vcalcEffect_bestValid (l : Latched) : (vcalcEffect l s).bestValid = s.bestValid := rfl
@[simp] theorem vcalcEffect_irqEn (l : Latched) : (vcalcEffect l s).irqEn = s.irqEn := rfl
@[simp] theorem vcalcEffect_rule3Mode (l : Latched) : (vcalcEffect l s).rule3Mode = s.rule3Mode := rfl
@[simp] theorem vcalcEffect_version (l : Latched) : (vcalcEffect l s).version = s.version := rfl
@[simp] theorem vcalcEffect_mask (l : Latched) : (vcalcEffect l s).mask = s.mask := rfl
@[simp] theorem vcalcEffect_fmtId (l : Latched) : (vcalcEffect l s).fmtId = s.fmtId := rfl
@[simp] theorem vcalcEffect_fmtWord (l : Latched) : (vcalcEffect l s).fmtWord = s.fmtWord := rfl
@[simp] theorem vcalcEffect_verWord (l : Latched) : (vcalcEffect l s).verWord = versionEntry l.version := rfl
@[simp] theorem vcalcEffect_penTotal (l : Latched) : (vcalcEffect l s).penTotal = s.penTotal := rfl
@[simp] theorem vcalcEffect_penR1 (l : Latched) : (vcalcEffect l s).penR1 = s.penR1 := rfl
@[simp] theorem vcalcEffect_penR2 (l : Latched) : (vcalcEffect l s).penR2 = s.penR2 := rfl
@[simp] theorem vcalcEffect_penR3 (l : Latched) : (vcalcEffect l s).penR3 = s.penR3 := rfl
@[simp] theorem vcalcEffect_penR4 (l : Latched) : (vcalcEffect l s).penR4 = s.penR4 := rfl
@[simp] theorem vcalcEffect_darkCount (l : Latched) : (vcalcEffect l s).darkCount = s.darkCount := rfl
@[simp] theorem vcalcEffect_bestPenalty (l : Latched) : (vcalcEffect l s).bestPenalty = s.bestPenalty := rfl
@[simp] theorem vcalcEffect_bestMask (l : Latched) : (vcalcEffect l s).bestMask = s.bestMask := rfl
@[simp] theorem vcalcEffect_errInfo (l : Latched) : (vcalcEffect l s).errInfo = s.errInfo := rfl
@[simp] theorem vcalcEffect_seq (l : Latched) : (vcalcEffect l s).seq = s.seq := rfl
@[simp] theorem vcalcEffect_psc (l : Latched) : (vcalcEffect l s).psc = s.psc := rfl
@[simp] theorem vcalcEffect_mem (l : Latched) : (vcalcEffect l s).mem = s.mem := rfl
@[simp] theorem vcalcEffect_params (l : Latched) : (vcalcEffect l s).params = s.params := rfl
@[simp] theorem vcalcEffect_schedule (l : Latched) : (vcalcEffect l s).schedule = s.schedule := rfl
@[simp] theorem vcalcEffect_reply (l : Latched) : (vcalcEffect l s).reply = s.reply := rfl

/-! ## bestclrEffect -/

@[simp] theorem bestclrEffect_done (l : Latched) : (bestclrEffect l s).done = s.done := rfl
@[simp] theorem bestclrEffect_err (l : Latched) : (bestclrEffect l s).err = s.err := rfl
@[simp] theorem bestclrEffect_errCode (l : Latched) : (bestclrEffect l s).errCode = s.errCode := rfl
@[simp] theorem bestclrEffect_verValid (l : Latched) : (bestclrEffect l s).verValid = s.verValid := rfl
@[simp] theorem bestclrEffect_bestValid (l : Latched) : (bestclrEffect l s).bestValid = false := rfl
@[simp] theorem bestclrEffect_irqEn (l : Latched) : (bestclrEffect l s).irqEn = s.irqEn := rfl
@[simp] theorem bestclrEffect_rule3Mode (l : Latched) : (bestclrEffect l s).rule3Mode = s.rule3Mode := rfl
@[simp] theorem bestclrEffect_version (l : Latched) : (bestclrEffect l s).version = s.version := rfl
@[simp] theorem bestclrEffect_mask (l : Latched) : (bestclrEffect l s).mask = s.mask := rfl
@[simp] theorem bestclrEffect_fmtId (l : Latched) : (bestclrEffect l s).fmtId = s.fmtId := rfl
@[simp] theorem bestclrEffect_fmtWord (l : Latched) : (bestclrEffect l s).fmtWord = s.fmtWord := rfl
@[simp] theorem bestclrEffect_verWord (l : Latched) : (bestclrEffect l s).verWord = s.verWord := rfl
@[simp] theorem bestclrEffect_penTotal (l : Latched) : (bestclrEffect l s).penTotal = s.penTotal := rfl
@[simp] theorem bestclrEffect_penR1 (l : Latched) : (bestclrEffect l s).penR1 = s.penR1 := rfl
@[simp] theorem bestclrEffect_penR2 (l : Latched) : (bestclrEffect l s).penR2 = s.penR2 := rfl
@[simp] theorem bestclrEffect_penR3 (l : Latched) : (bestclrEffect l s).penR3 = s.penR3 := rfl
@[simp] theorem bestclrEffect_penR4 (l : Latched) : (bestclrEffect l s).penR4 = s.penR4 := rfl
@[simp] theorem bestclrEffect_darkCount (l : Latched) : (bestclrEffect l s).darkCount = s.darkCount := rfl
@[simp] theorem bestclrEffect_bestPenalty (l : Latched) : (bestclrEffect l s).bestPenalty = 0xFFFFFFFF := rfl
@[simp] theorem bestclrEffect_bestMask (l : Latched) : (bestclrEffect l s).bestMask = 0 := rfl
@[simp] theorem bestclrEffect_errInfo (l : Latched) : (bestclrEffect l s).errInfo = s.errInfo := rfl
@[simp] theorem bestclrEffect_seq (l : Latched) : (bestclrEffect l s).seq = s.seq := rfl
@[simp] theorem bestclrEffect_psc (l : Latched) : (bestclrEffect l s).psc = s.psc := rfl
@[simp] theorem bestclrEffect_mem (l : Latched) : (bestclrEffect l s).mem = s.mem := rfl
@[simp] theorem bestclrEffect_params (l : Latched) : (bestclrEffect l s).params = s.params := rfl
@[simp] theorem bestclrEffect_schedule (l : Latched) : (bestclrEffect l s).schedule = s.schedule := rfl
@[simp] theorem bestclrEffect_reply (l : Latched) : (bestclrEffect l s).reply = s.reply := rfl

/-! ## endScan -/

@[simp] theorem endScan_done (mode : Rule3Mode) (n : Nat) (color : Nat → Nat → Bool) : (endScan mode n color s).done = s.done := rfl
@[simp] theorem endScan_err (mode : Rule3Mode) (n : Nat) (color : Nat → Nat → Bool) : (endScan mode n color s).err = s.err := rfl
@[simp] theorem endScan_errCode (mode : Rule3Mode) (n : Nat) (color : Nat → Nat → Bool) : (endScan mode n color s).errCode = s.errCode := rfl
@[simp] theorem endScan_verValid (mode : Rule3Mode) (n : Nat) (color : Nat → Nat → Bool) : (endScan mode n color s).verValid = s.verValid := rfl
@[simp] theorem endScan_bestValid (mode : Rule3Mode) (n : Nat) (color : Nat → Nat → Bool) : (endScan mode n color s).bestValid = s.bestValid := rfl
@[simp] theorem endScan_irqEn (mode : Rule3Mode) (n : Nat) (color : Nat → Nat → Bool) : (endScan mode n color s).irqEn = s.irqEn := rfl
@[simp] theorem endScan_rule3Mode (mode : Rule3Mode) (n : Nat) (color : Nat → Nat → Bool) : (endScan mode n color s).rule3Mode = s.rule3Mode := rfl
@[simp] theorem endScan_version (mode : Rule3Mode) (n : Nat) (color : Nat → Nat → Bool) : (endScan mode n color s).version = s.version := rfl
@[simp] theorem endScan_mask (mode : Rule3Mode) (n : Nat) (color : Nat → Nat → Bool) : (endScan mode n color s).mask = s.mask := rfl
@[simp] theorem endScan_fmtId (mode : Rule3Mode) (n : Nat) (color : Nat → Nat → Bool) : (endScan mode n color s).fmtId = s.fmtId := rfl
@[simp] theorem endScan_fmtWord (mode : Rule3Mode) (n : Nat) (color : Nat → Nat → Bool) : (endScan mode n color s).fmtWord = s.fmtWord := rfl
@[simp] theorem endScan_verWord (mode : Rule3Mode) (n : Nat) (color : Nat → Nat → Bool) : (endScan mode n color s).verWord = s.verWord := rfl
@[simp] theorem endScan_penTotal (mode : Rule3Mode) (n : Nat) (color : Nat → Nat → Bool) : (endScan mode n color s).penTotal = s.penTotal := rfl
@[simp] theorem endScan_penR1 (mode : Rule3Mode) (n : Nat) (color : Nat → Nat → Bool) : (endScan mode n color s).penR1 = s.penR1 := rfl
@[simp] theorem endScan_penR2 (mode : Rule3Mode) (n : Nat) (color : Nat → Nat → Bool) : (endScan mode n color s).penR2 = s.penR2 := rfl
@[simp] theorem endScan_penR3 (mode : Rule3Mode) (n : Nat) (color : Nat → Nat → Bool) : (endScan mode n color s).penR3 = s.penR3 := rfl
@[simp] theorem endScan_penR4 (mode : Rule3Mode) (n : Nat) (color : Nat → Nat → Bool) : (endScan mode n color s).penR4 = s.penR4 := rfl
@[simp] theorem endScan_darkCount (mode : Rule3Mode) (n : Nat) (color : Nat → Nat → Bool) : (endScan mode n color s).darkCount = s.darkCount := rfl
@[simp] theorem endScan_bestPenalty (mode : Rule3Mode) (n : Nat) (color : Nat → Nat → Bool) : (endScan mode n color s).bestPenalty = s.bestPenalty := rfl
@[simp] theorem endScan_bestMask (mode : Rule3Mode) (n : Nat) (color : Nat → Nat → Bool) : (endScan mode n color s).bestMask = s.bestMask := rfl
@[simp] theorem endScan_errInfo (mode : Rule3Mode) (n : Nat) (color : Nat → Nat → Bool) : (endScan mode n color s).errInfo = s.errInfo := rfl
@[simp] theorem endScan_seq (mode : Rule3Mode) (n : Nat) (color : Nat → Nat → Bool) : (endScan mode n color s).seq = s.seq := rfl
@[simp] theorem endScan_psc (mode : Rule3Mode) (n : Nat) (color : Nat → Nat → Bool) : (endScan mode n color s).psc = scanToEnd mode n color s.psc := rfl
@[simp] theorem endScan_mem (mode : Rule3Mode) (n : Nat) (color : Nat → Nat → Bool) : (endScan mode n color s).mem = s.mem := rfl
@[simp] theorem endScan_params (mode : Rule3Mode) (n : Nat) (color : Nat → Nat → Bool) : (endScan mode n color s).params = s.params := rfl
@[simp] theorem endScan_schedule (mode : Rule3Mode) (n : Nat) (color : Nat → Nat → Bool) : (endScan mode n color s).schedule = s.schedule := rfl
@[simp] theorem endScan_reply (mode : Rule3Mode) (n : Nat) (color : Nat → Nat → Bool) : (endScan mode n color s).reply = s.reply := rfl

/-! ## storePenalties -/

@[simp] theorem storePenalties_done (mode : Rule3Mode) (n : Nat) (color : Nat → Nat → Bool) : (storePenalties mode n color s).done = s.done := rfl
@[simp] theorem storePenalties_err (mode : Rule3Mode) (n : Nat) (color : Nat → Nat → Bool) : (storePenalties mode n color s).err = s.err := rfl
@[simp] theorem storePenalties_errCode (mode : Rule3Mode) (n : Nat) (color : Nat → Nat → Bool) : (storePenalties mode n color s).errCode = s.errCode := rfl
@[simp] theorem storePenalties_verValid (mode : Rule3Mode) (n : Nat) (color : Nat → Nat → Bool) : (storePenalties mode n color s).verValid = s.verValid := rfl
@[simp] theorem storePenalties_bestValid (mode : Rule3Mode) (n : Nat) (color : Nat → Nat → Bool) : (storePenalties mode n color s).bestValid = s.bestValid := rfl
@[simp] theorem storePenalties_irqEn (mode : Rule3Mode) (n : Nat) (color : Nat → Nat → Bool) : (storePenalties mode n color s).irqEn = s.irqEn := rfl
@[simp] theorem storePenalties_rule3Mode (mode : Rule3Mode) (n : Nat) (color : Nat → Nat → Bool) : (storePenalties mode n color s).rule3Mode = s.rule3Mode := rfl
@[simp] theorem storePenalties_version (mode : Rule3Mode) (n : Nat) (color : Nat → Nat → Bool) : (storePenalties mode n color s).version = s.version := rfl
@[simp] theorem storePenalties_mask (mode : Rule3Mode) (n : Nat) (color : Nat → Nat → Bool) : (storePenalties mode n color s).mask = s.mask := rfl
@[simp] theorem storePenalties_fmtId (mode : Rule3Mode) (n : Nat) (color : Nat → Nat → Bool) : (storePenalties mode n color s).fmtId = s.fmtId := rfl
@[simp] theorem storePenalties_fmtWord (mode : Rule3Mode) (n : Nat) (color : Nat → Nat → Bool) : (storePenalties mode n color s).fmtWord = s.fmtWord := rfl
@[simp] theorem storePenalties_verWord (mode : Rule3Mode) (n : Nat) (color : Nat → Nat → Bool) : (storePenalties mode n color s).verWord = s.verWord := rfl
@[simp] theorem storePenalties_penTotal (mode : Rule3Mode) (n : Nat) (color : Nat → Nat → Bool) : (storePenalties mode n color s).penTotal = BitVec.ofNat 32 (penaltyTotal mode n color) := rfl
@[simp] theorem storePenalties_penR1 (mode : Rule3Mode) (n : Nat) (color : Nat → Nat → Bool) : (storePenalties mode n color s).penR1 = BitVec.ofNat 32 (penaltyRuns n color) := rfl
@[simp] theorem storePenalties_penR2 (mode : Rule3Mode) (n : Nat) (color : Nat → Nat → Bool) : (storePenalties mode n color s).penR2 = BitVec.ofNat 32 (penaltyBlocks n color) := rfl
@[simp] theorem storePenalties_penR3 (mode : Rule3Mode) (n : Nat) (color : Nat → Nat → Bool) : (storePenalties mode n color s).penR3 = BitVec.ofNat 32 (penaltyPatterns mode n color) := rfl
@[simp] theorem storePenalties_penR4 (mode : Rule3Mode) (n : Nat) (color : Nat → Nat → Bool) : (storePenalties mode n color s).penR4 = BitVec.ofNat 32 (penaltyBalance n (darkModules n color)) := rfl
@[simp] theorem storePenalties_darkCount (mode : Rule3Mode) (n : Nat) (color : Nat → Nat → Bool) : (storePenalties mode n color s).darkCount = BitVec.ofNat 15 (darkModules n color) := rfl
@[simp] theorem storePenalties_bestPenalty (mode : Rule3Mode) (n : Nat) (color : Nat → Nat → Bool) : (storePenalties mode n color s).bestPenalty = s.bestPenalty := rfl
@[simp] theorem storePenalties_bestMask (mode : Rule3Mode) (n : Nat) (color : Nat → Nat → Bool) : (storePenalties mode n color s).bestMask = s.bestMask := rfl
@[simp] theorem storePenalties_errInfo (mode : Rule3Mode) (n : Nat) (color : Nat → Nat → Bool) : (storePenalties mode n color s).errInfo = s.errInfo := rfl
@[simp] theorem storePenalties_seq (mode : Rule3Mode) (n : Nat) (color : Nat → Nat → Bool) : (storePenalties mode n color s).seq = s.seq := rfl
@[simp] theorem storePenalties_psc (mode : Rule3Mode) (n : Nat) (color : Nat → Nat → Bool) : (storePenalties mode n color s).psc = s.psc := rfl
@[simp] theorem storePenalties_mem (mode : Rule3Mode) (n : Nat) (color : Nat → Nat → Bool) : (storePenalties mode n color s).mem = s.mem := rfl
@[simp] theorem storePenalties_params (mode : Rule3Mode) (n : Nat) (color : Nat → Nat → Bool) : (storePenalties mode n color s).params = s.params := rfl
@[simp] theorem storePenalties_schedule (mode : Rule3Mode) (n : Nat) (color : Nat → Nat → Bool) : (storePenalties mode n color s).schedule = s.schedule := rfl
@[simp] theorem storePenalties_reply (mode : Rule3Mode) (n : Nat) (color : Nat → Nat → Bool) : (storePenalties mode n color s).reply = s.reply := rfl

/-! ## resetBlock -/

@[simp] theorem resetBlock_done : (resetBlock s).done = State.reset.done := rfl
@[simp] theorem resetBlock_err : (resetBlock s).err = State.reset.err := rfl
@[simp] theorem resetBlock_errCode : (resetBlock s).errCode = State.reset.errCode := rfl
@[simp] theorem resetBlock_verValid : (resetBlock s).verValid = State.reset.verValid := rfl
@[simp] theorem resetBlock_bestValid : (resetBlock s).bestValid = State.reset.bestValid := rfl
@[simp] theorem resetBlock_irqEn : (resetBlock s).irqEn = State.reset.irqEn := rfl
@[simp] theorem resetBlock_rule3Mode : (resetBlock s).rule3Mode = State.reset.rule3Mode := rfl
@[simp] theorem resetBlock_version : (resetBlock s).version = State.reset.version := rfl
@[simp] theorem resetBlock_mask : (resetBlock s).mask = State.reset.mask := rfl
@[simp] theorem resetBlock_fmtId : (resetBlock s).fmtId = State.reset.fmtId := rfl
@[simp] theorem resetBlock_fmtWord : (resetBlock s).fmtWord = State.reset.fmtWord := rfl
@[simp] theorem resetBlock_verWord : (resetBlock s).verWord = State.reset.verWord := rfl
@[simp] theorem resetBlock_penTotal : (resetBlock s).penTotal = State.reset.penTotal := rfl
@[simp] theorem resetBlock_penR1 : (resetBlock s).penR1 = State.reset.penR1 := rfl
@[simp] theorem resetBlock_penR2 : (resetBlock s).penR2 = State.reset.penR2 := rfl
@[simp] theorem resetBlock_penR3 : (resetBlock s).penR3 = State.reset.penR3 := rfl
@[simp] theorem resetBlock_penR4 : (resetBlock s).penR4 = State.reset.penR4 := rfl
@[simp] theorem resetBlock_darkCount : (resetBlock s).darkCount = State.reset.darkCount := rfl
@[simp] theorem resetBlock_bestPenalty : (resetBlock s).bestPenalty = State.reset.bestPenalty := rfl
@[simp] theorem resetBlock_bestMask : (resetBlock s).bestMask = State.reset.bestMask := rfl
@[simp] theorem resetBlock_errInfo : (resetBlock s).errInfo = State.reset.errInfo := rfl
@[simp] theorem resetBlock_seq : (resetBlock s).seq = State.reset.seq := rfl
@[simp] theorem resetBlock_psc : (resetBlock s).psc = s.psc := rfl
@[simp] theorem resetBlock_mem : (resetBlock s).mem = s.mem := rfl
@[simp] theorem resetBlock_params : (resetBlock s).params = s.params := rfl
@[simp] theorem resetBlock_schedule : (resetBlock s).schedule = s.schedule := rfl
@[simp] theorem resetBlock_reply : (resetBlock s).reply = s.reply := rfl

/-! ## raiseError -/

@[simp] theorem raiseError_done (code : ErrorCode) (info : Word) :
    (raiseError code info s).done = s.done := by unfold raiseError; split <;> simp_all
@[simp] theorem raiseError_err (code : ErrorCode) (info : Word) :
    (raiseError code info s).err = true := by unfold raiseError; split <;> simp_all
@[simp] theorem raiseError_errCode (code : ErrorCode) (info : Word) :
    (raiseError code info s).errCode = if s.err then s.errCode else code := by unfold raiseError; split <;> simp_all
@[simp] theorem raiseError_verValid (code : ErrorCode) (info : Word) :
    (raiseError code info s).verValid = s.verValid := by unfold raiseError; split <;> simp_all
@[simp] theorem raiseError_bestValid (code : ErrorCode) (info : Word) :
    (raiseError code info s).bestValid = s.bestValid := by unfold raiseError; split <;> simp_all
@[simp] theorem raiseError_irqEn (code : ErrorCode) (info : Word) :
    (raiseError code info s).irqEn = s.irqEn := by unfold raiseError; split <;> simp_all
@[simp] theorem raiseError_rule3Mode (code : ErrorCode) (info : Word) :
    (raiseError code info s).rule3Mode = s.rule3Mode := by unfold raiseError; split <;> simp_all
@[simp] theorem raiseError_version (code : ErrorCode) (info : Word) :
    (raiseError code info s).version = s.version := by unfold raiseError; split <;> simp_all
@[simp] theorem raiseError_mask (code : ErrorCode) (info : Word) :
    (raiseError code info s).mask = s.mask := by unfold raiseError; split <;> simp_all
@[simp] theorem raiseError_fmtId (code : ErrorCode) (info : Word) :
    (raiseError code info s).fmtId = s.fmtId := by unfold raiseError; split <;> simp_all
@[simp] theorem raiseError_fmtWord (code : ErrorCode) (info : Word) :
    (raiseError code info s).fmtWord = s.fmtWord := by unfold raiseError; split <;> simp_all
@[simp] theorem raiseError_verWord (code : ErrorCode) (info : Word) :
    (raiseError code info s).verWord = s.verWord := by unfold raiseError; split <;> simp_all
@[simp] theorem raiseError_penTotal (code : ErrorCode) (info : Word) :
    (raiseError code info s).penTotal = s.penTotal := by unfold raiseError; split <;> simp_all
@[simp] theorem raiseError_penR1 (code : ErrorCode) (info : Word) :
    (raiseError code info s).penR1 = s.penR1 := by unfold raiseError; split <;> simp_all
@[simp] theorem raiseError_penR2 (code : ErrorCode) (info : Word) :
    (raiseError code info s).penR2 = s.penR2 := by unfold raiseError; split <;> simp_all
@[simp] theorem raiseError_penR3 (code : ErrorCode) (info : Word) :
    (raiseError code info s).penR3 = s.penR3 := by unfold raiseError; split <;> simp_all
@[simp] theorem raiseError_penR4 (code : ErrorCode) (info : Word) :
    (raiseError code info s).penR4 = s.penR4 := by unfold raiseError; split <;> simp_all
@[simp] theorem raiseError_darkCount (code : ErrorCode) (info : Word) :
    (raiseError code info s).darkCount = s.darkCount := by unfold raiseError; split <;> simp_all
@[simp] theorem raiseError_bestPenalty (code : ErrorCode) (info : Word) :
    (raiseError code info s).bestPenalty = s.bestPenalty := by unfold raiseError; split <;> simp_all
@[simp] theorem raiseError_bestMask (code : ErrorCode) (info : Word) :
    (raiseError code info s).bestMask = s.bestMask := by unfold raiseError; split <;> simp_all
@[simp] theorem raiseError_errInfo (code : ErrorCode) (info : Word) :
    (raiseError code info s).errInfo = if s.err then s.errInfo else info := by unfold raiseError; split <;> simp_all
@[simp] theorem raiseError_seq (code : ErrorCode) (info : Word) :
    (raiseError code info s).seq = s.seq := by unfold raiseError; split <;> simp_all
@[simp] theorem raiseError_psc (code : ErrorCode) (info : Word) :
    (raiseError code info s).psc = s.psc := by unfold raiseError; split <;> simp_all
@[simp] theorem raiseError_mem (code : ErrorCode) (info : Word) :
    (raiseError code info s).mem = s.mem := by unfold raiseError; split <;> simp_all
@[simp] theorem raiseError_params (code : ErrorCode) (info : Word) :
    (raiseError code info s).params = s.params := by unfold raiseError; split <;> simp_all
@[simp] theorem raiseError_schedule (code : ErrorCode) (info : Word) :
    (raiseError code info s).schedule = s.schedule := by unfold raiseError; split <;> simp_all
@[simp] theorem raiseError_reply (code : ErrorCode) (info : Word) :
    (raiseError code info s).reply = s.reply := by unfold raiseError; split <;> simp_all

/-! ## loadOperands -/

@[simp] theorem loadOperands_done (o : Operands) :
    (loadOperands o s).done = s.done := by unfold loadOperands; split <;> rfl
@[simp] theorem loadOperands_err (o : Operands) :
    (loadOperands o s).err = s.err := by unfold loadOperands; split <;> rfl
@[simp] theorem loadOperands_errCode (o : Operands) :
    (loadOperands o s).errCode = s.errCode := by unfold loadOperands; split <;> rfl
@[simp] theorem loadOperands_verValid (o : Operands) :
    (loadOperands o s).verValid = if o.load then false else s.verValid := by unfold loadOperands; split <;> rfl
@[simp] theorem loadOperands_bestValid (o : Operands) :
    (loadOperands o s).bestValid = s.bestValid := by unfold loadOperands; split <;> rfl
@[simp] theorem loadOperands_irqEn (o : Operands) :
    (loadOperands o s).irqEn = s.irqEn := by unfold loadOperands; split <;> rfl
@[simp] theorem loadOperands_rule3Mode (o : Operands) :
    (loadOperands o s).rule3Mode = s.rule3Mode := by unfold loadOperands; split <;> rfl
@[simp] theorem loadOperands_version (o : Operands) :
    (loadOperands o s).version = if o.load then BitVec.ofNat 6 o.v else s.version := by unfold loadOperands; split <;> rfl
@[simp] theorem loadOperands_mask (o : Operands) :
    (loadOperands o s).mask = if o.load then BitVec.ofNat 3 o.m else s.mask := by unfold loadOperands; split <;> rfl
@[simp] theorem loadOperands_fmtId (o : Operands) :
    (loadOperands o s).fmtId = if o.load then BitVec.ofNat 5 o.f else s.fmtId := by unfold loadOperands; split <;> rfl
@[simp] theorem loadOperands_fmtWord (o : Operands) :
    (loadOperands o s).fmtWord = s.fmtWord := by unfold loadOperands; split <;> rfl
@[simp] theorem loadOperands_verWord (o : Operands) :
    (loadOperands o s).verWord = s.verWord := by unfold loadOperands; split <;> rfl
@[simp] theorem loadOperands_penTotal (o : Operands) :
    (loadOperands o s).penTotal = s.penTotal := by unfold loadOperands; split <;> rfl
@[simp] theorem loadOperands_penR1 (o : Operands) :
    (loadOperands o s).penR1 = s.penR1 := by unfold loadOperands; split <;> rfl
@[simp] theorem loadOperands_penR2 (o : Operands) :
    (loadOperands o s).penR2 = s.penR2 := by unfold loadOperands; split <;> rfl
@[simp] theorem loadOperands_penR3 (o : Operands) :
    (loadOperands o s).penR3 = s.penR3 := by unfold loadOperands; split <;> rfl
@[simp] theorem loadOperands_penR4 (o : Operands) :
    (loadOperands o s).penR4 = s.penR4 := by unfold loadOperands; split <;> rfl
@[simp] theorem loadOperands_darkCount (o : Operands) :
    (loadOperands o s).darkCount = s.darkCount := by unfold loadOperands; split <;> rfl
@[simp] theorem loadOperands_bestPenalty (o : Operands) :
    (loadOperands o s).bestPenalty = s.bestPenalty := by unfold loadOperands; split <;> rfl
@[simp] theorem loadOperands_bestMask (o : Operands) :
    (loadOperands o s).bestMask = s.bestMask := by unfold loadOperands; split <;> rfl
@[simp] theorem loadOperands_errInfo (o : Operands) :
    (loadOperands o s).errInfo = s.errInfo := by unfold loadOperands; split <;> rfl
@[simp] theorem loadOperands_seq (o : Operands) :
    (loadOperands o s).seq = s.seq := by unfold loadOperands; split <;> rfl
@[simp] theorem loadOperands_psc (o : Operands) :
    (loadOperands o s).psc = s.psc := by unfold loadOperands; split <;> rfl
@[simp] theorem loadOperands_mem (o : Operands) :
    (loadOperands o s).mem = s.mem := by unfold loadOperands; split <;> rfl
@[simp] theorem loadOperands_params (o : Operands) :
    (loadOperands o s).params = s.params := by unfold loadOperands; split <;> rfl
@[simp] theorem loadOperands_schedule (o : Operands) :
    (loadOperands o s).schedule = s.schedule := by unfold loadOperands; split <;> rfl
@[simp] theorem loadOperands_reply (o : Operands) :
    (loadOperands o s).reply = s.reply := by unfold loadOperands; split <;> rfl

/-! ## writeFmtId -/

@[simp] theorem writeFmtId_done (l : Latched) :
    (writeFmtId l s).done = s.done := by unfold writeFmtId; cases commandFmtId l <;> rfl
@[simp] theorem writeFmtId_err (l : Latched) :
    (writeFmtId l s).err = s.err := by unfold writeFmtId; cases commandFmtId l <;> rfl
@[simp] theorem writeFmtId_errCode (l : Latched) :
    (writeFmtId l s).errCode = s.errCode := by unfold writeFmtId; cases commandFmtId l <;> rfl
@[simp] theorem writeFmtId_verValid (l : Latched) :
    (writeFmtId l s).verValid = s.verValid := by unfold writeFmtId; cases commandFmtId l <;> rfl
@[simp] theorem writeFmtId_bestValid (l : Latched) :
    (writeFmtId l s).bestValid = s.bestValid := by unfold writeFmtId; cases commandFmtId l <;> rfl
@[simp] theorem writeFmtId_irqEn (l : Latched) :
    (writeFmtId l s).irqEn = s.irqEn := by unfold writeFmtId; cases commandFmtId l <;> rfl
@[simp] theorem writeFmtId_rule3Mode (l : Latched) :
    (writeFmtId l s).rule3Mode = s.rule3Mode := by unfold writeFmtId; cases commandFmtId l <;> rfl
@[simp] theorem writeFmtId_version (l : Latched) :
    (writeFmtId l s).version = s.version := by unfold writeFmtId; cases commandFmtId l <;> rfl
@[simp] theorem writeFmtId_mask (l : Latched) :
    (writeFmtId l s).mask = s.mask := by unfold writeFmtId; cases commandFmtId l <;> rfl
@[simp] theorem writeFmtId_fmtId (l : Latched) :
    (writeFmtId l s).fmtId = (commandFmtId l).getD s.fmtId := by unfold writeFmtId; cases commandFmtId l <;> rfl
@[simp] theorem writeFmtId_fmtWord (l : Latched) :
    (writeFmtId l s).fmtWord = s.fmtWord := by unfold writeFmtId; cases commandFmtId l <;> rfl
@[simp] theorem writeFmtId_verWord (l : Latched) :
    (writeFmtId l s).verWord = s.verWord := by unfold writeFmtId; cases commandFmtId l <;> rfl
@[simp] theorem writeFmtId_penTotal (l : Latched) :
    (writeFmtId l s).penTotal = s.penTotal := by unfold writeFmtId; cases commandFmtId l <;> rfl
@[simp] theorem writeFmtId_penR1 (l : Latched) :
    (writeFmtId l s).penR1 = s.penR1 := by unfold writeFmtId; cases commandFmtId l <;> rfl
@[simp] theorem writeFmtId_penR2 (l : Latched) :
    (writeFmtId l s).penR2 = s.penR2 := by unfold writeFmtId; cases commandFmtId l <;> rfl
@[simp] theorem writeFmtId_penR3 (l : Latched) :
    (writeFmtId l s).penR3 = s.penR3 := by unfold writeFmtId; cases commandFmtId l <;> rfl
@[simp] theorem writeFmtId_penR4 (l : Latched) :
    (writeFmtId l s).penR4 = s.penR4 := by unfold writeFmtId; cases commandFmtId l <;> rfl
@[simp] theorem writeFmtId_darkCount (l : Latched) :
    (writeFmtId l s).darkCount = s.darkCount := by unfold writeFmtId; cases commandFmtId l <;> rfl
@[simp] theorem writeFmtId_bestPenalty (l : Latched) :
    (writeFmtId l s).bestPenalty = s.bestPenalty := by unfold writeFmtId; cases commandFmtId l <;> rfl
@[simp] theorem writeFmtId_bestMask (l : Latched) :
    (writeFmtId l s).bestMask = s.bestMask := by unfold writeFmtId; cases commandFmtId l <;> rfl
@[simp] theorem writeFmtId_errInfo (l : Latched) :
    (writeFmtId l s).errInfo = s.errInfo := by unfold writeFmtId; cases commandFmtId l <;> rfl
@[simp] theorem writeFmtId_seq (l : Latched) :
    (writeFmtId l s).seq = s.seq := by unfold writeFmtId; cases commandFmtId l <;> rfl
@[simp] theorem writeFmtId_psc (l : Latched) :
    (writeFmtId l s).psc = s.psc := by unfold writeFmtId; cases commandFmtId l <;> rfl
@[simp] theorem writeFmtId_mem (l : Latched) :
    (writeFmtId l s).mem = s.mem := by unfold writeFmtId; cases commandFmtId l <;> rfl
@[simp] theorem writeFmtId_params (l : Latched) :
    (writeFmtId l s).params = s.params := by unfold writeFmtId; cases commandFmtId l <;> rfl
@[simp] theorem writeFmtId_schedule (l : Latched) :
    (writeFmtId l s).schedule = s.schedule := by unfold writeFmtId; cases commandFmtId l <;> rfl
@[simp] theorem writeFmtId_reply (l : Latched) :
    (writeFmtId l s).reply = s.reply := by unfold writeFmtId; cases commandFmtId l <;> rfl

/-! ## storeStatus -/

@[simp] theorem storeStatus_done (v : Word) :
    (storeStatus v s).done = if v.getLsbD 1 then false else s.done := by unfold storeStatus; cases v.getLsbD 1 <;> cases v.getLsbD 2 <;> rfl
@[simp] theorem storeStatus_err (v : Word) :
    (storeStatus v s).err = if v.getLsbD 2 then false else s.err := by unfold storeStatus; cases v.getLsbD 1 <;> cases v.getLsbD 2 <;> rfl
@[simp] theorem storeStatus_errCode (v : Word) :
    (storeStatus v s).errCode = if v.getLsbD 2 then .none else s.errCode := by unfold storeStatus; cases v.getLsbD 1 <;> cases v.getLsbD 2 <;> rfl
@[simp] theorem storeStatus_verValid (v : Word) :
    (storeStatus v s).verValid = s.verValid := by unfold storeStatus; cases v.getLsbD 1 <;> cases v.getLsbD 2 <;> rfl
@[simp] theorem storeStatus_bestValid (v : Word) :
    (storeStatus v s).bestValid = s.bestValid := by unfold storeStatus; cases v.getLsbD 1 <;> cases v.getLsbD 2 <;> rfl
@[simp] theorem storeStatus_irqEn (v : Word) :
    (storeStatus v s).irqEn = s.irqEn := by unfold storeStatus; cases v.getLsbD 1 <;> cases v.getLsbD 2 <;> rfl
@[simp] theorem storeStatus_rule3Mode (v : Word) :
    (storeStatus v s).rule3Mode = s.rule3Mode := by unfold storeStatus; cases v.getLsbD 1 <;> cases v.getLsbD 2 <;> rfl
@[simp] theorem storeStatus_version (v : Word) :
    (storeStatus v s).version = s.version := by unfold storeStatus; cases v.getLsbD 1 <;> cases v.getLsbD 2 <;> rfl
@[simp] theorem storeStatus_mask (v : Word) :
    (storeStatus v s).mask = s.mask := by unfold storeStatus; cases v.getLsbD 1 <;> cases v.getLsbD 2 <;> rfl
@[simp] theorem storeStatus_fmtId (v : Word) :
    (storeStatus v s).fmtId = s.fmtId := by unfold storeStatus; cases v.getLsbD 1 <;> cases v.getLsbD 2 <;> rfl
@[simp] theorem storeStatus_fmtWord (v : Word) :
    (storeStatus v s).fmtWord = s.fmtWord := by unfold storeStatus; cases v.getLsbD 1 <;> cases v.getLsbD 2 <;> rfl
@[simp] theorem storeStatus_verWord (v : Word) :
    (storeStatus v s).verWord = s.verWord := by unfold storeStatus; cases v.getLsbD 1 <;> cases v.getLsbD 2 <;> rfl
@[simp] theorem storeStatus_penTotal (v : Word) :
    (storeStatus v s).penTotal = s.penTotal := by unfold storeStatus; cases v.getLsbD 1 <;> cases v.getLsbD 2 <;> rfl
@[simp] theorem storeStatus_penR1 (v : Word) :
    (storeStatus v s).penR1 = s.penR1 := by unfold storeStatus; cases v.getLsbD 1 <;> cases v.getLsbD 2 <;> rfl
@[simp] theorem storeStatus_penR2 (v : Word) :
    (storeStatus v s).penR2 = s.penR2 := by unfold storeStatus; cases v.getLsbD 1 <;> cases v.getLsbD 2 <;> rfl
@[simp] theorem storeStatus_penR3 (v : Word) :
    (storeStatus v s).penR3 = s.penR3 := by unfold storeStatus; cases v.getLsbD 1 <;> cases v.getLsbD 2 <;> rfl
@[simp] theorem storeStatus_penR4 (v : Word) :
    (storeStatus v s).penR4 = s.penR4 := by unfold storeStatus; cases v.getLsbD 1 <;> cases v.getLsbD 2 <;> rfl
@[simp] theorem storeStatus_darkCount (v : Word) :
    (storeStatus v s).darkCount = s.darkCount := by unfold storeStatus; cases v.getLsbD 1 <;> cases v.getLsbD 2 <;> rfl
@[simp] theorem storeStatus_bestPenalty (v : Word) :
    (storeStatus v s).bestPenalty = s.bestPenalty := by unfold storeStatus; cases v.getLsbD 1 <;> cases v.getLsbD 2 <;> rfl
@[simp] theorem storeStatus_bestMask (v : Word) :
    (storeStatus v s).bestMask = s.bestMask := by unfold storeStatus; cases v.getLsbD 1 <;> cases v.getLsbD 2 <;> rfl
@[simp] theorem storeStatus_errInfo (v : Word) :
    (storeStatus v s).errInfo = if v.getLsbD 2 then 0 else s.errInfo := by unfold storeStatus; cases v.getLsbD 1 <;> cases v.getLsbD 2 <;> rfl
@[simp] theorem storeStatus_seq (v : Word) :
    (storeStatus v s).seq = s.seq := by unfold storeStatus; cases v.getLsbD 1 <;> cases v.getLsbD 2 <;> rfl
@[simp] theorem storeStatus_psc (v : Word) :
    (storeStatus v s).psc = s.psc := by unfold storeStatus; cases v.getLsbD 1 <;> cases v.getLsbD 2 <;> rfl
@[simp] theorem storeStatus_mem (v : Word) :
    (storeStatus v s).mem = s.mem := by unfold storeStatus; cases v.getLsbD 1 <;> cases v.getLsbD 2 <;> rfl
@[simp] theorem storeStatus_params (v : Word) :
    (storeStatus v s).params = s.params := by unfold storeStatus; cases v.getLsbD 1 <;> cases v.getLsbD 2 <;> rfl
@[simp] theorem storeStatus_schedule (v : Word) :
    (storeStatus v s).schedule = s.schedule := by unfold storeStatus; cases v.getLsbD 1 <;> cases v.getLsbD 2 <;> rfl
@[simp] theorem storeStatus_reply (v : Word) :
    (storeStatus v s).reply = s.reply := by unfold storeStatus; cases v.getLsbD 1 <;> cases v.getLsbD 2 <;> rfl

/-! ## trackBest -/

@[simp] theorem trackBest_done (total : Word) (mask : BitVec 3) :
    (trackBest total mask s).done = s.done := by unfold trackBest; split <;> rfl
@[simp] theorem trackBest_err (total : Word) (mask : BitVec 3) :
    (trackBest total mask s).err = s.err := by unfold trackBest; split <;> rfl
@[simp] theorem trackBest_errCode (total : Word) (mask : BitVec 3) :
    (trackBest total mask s).errCode = s.errCode := by unfold trackBest; split <;> rfl
@[simp] theorem trackBest_verValid (total : Word) (mask : BitVec 3) :
    (trackBest total mask s).verValid = s.verValid := by unfold trackBest; split <;> rfl
@[simp] theorem trackBest_bestValid (total : Word) (mask : BitVec 3) :
    (trackBest total mask s).bestValid = if trackerTakes total s then true else s.bestValid := by unfold trackBest; split <;> rfl
@[simp] theorem trackBest_irqEn (total : Word) (mask : BitVec 3) :
    (trackBest total mask s).irqEn = s.irqEn := by unfold trackBest; split <;> rfl
@[simp] theorem trackBest_rule3Mode (total : Word) (mask : BitVec 3) :
    (trackBest total mask s).rule3Mode = s.rule3Mode := by unfold trackBest; split <;> rfl
@[simp] theorem trackBest_version (total : Word) (mask : BitVec 3) :
    (trackBest total mask s).version = s.version := by unfold trackBest; split <;> rfl
@[simp] theorem trackBest_mask (total : Word) (mask : BitVec 3) :
    (trackBest total mask s).mask = s.mask := by unfold trackBest; split <;> rfl
@[simp] theorem trackBest_fmtId (total : Word) (mask : BitVec 3) :
    (trackBest total mask s).fmtId = s.fmtId := by unfold trackBest; split <;> rfl
@[simp] theorem trackBest_fmtWord (total : Word) (mask : BitVec 3) :
    (trackBest total mask s).fmtWord = s.fmtWord := by unfold trackBest; split <;> rfl
@[simp] theorem trackBest_verWord (total : Word) (mask : BitVec 3) :
    (trackBest total mask s).verWord = s.verWord := by unfold trackBest; split <;> rfl
@[simp] theorem trackBest_penTotal (total : Word) (mask : BitVec 3) :
    (trackBest total mask s).penTotal = s.penTotal := by unfold trackBest; split <;> rfl
@[simp] theorem trackBest_penR1 (total : Word) (mask : BitVec 3) :
    (trackBest total mask s).penR1 = s.penR1 := by unfold trackBest; split <;> rfl
@[simp] theorem trackBest_penR2 (total : Word) (mask : BitVec 3) :
    (trackBest total mask s).penR2 = s.penR2 := by unfold trackBest; split <;> rfl
@[simp] theorem trackBest_penR3 (total : Word) (mask : BitVec 3) :
    (trackBest total mask s).penR3 = s.penR3 := by unfold trackBest; split <;> rfl
@[simp] theorem trackBest_penR4 (total : Word) (mask : BitVec 3) :
    (trackBest total mask s).penR4 = s.penR4 := by unfold trackBest; split <;> rfl
@[simp] theorem trackBest_darkCount (total : Word) (mask : BitVec 3) :
    (trackBest total mask s).darkCount = s.darkCount := by unfold trackBest; split <;> rfl
@[simp] theorem trackBest_bestPenalty (total : Word) (mask : BitVec 3) :
    (trackBest total mask s).bestPenalty = if trackerTakes total s then total else s.bestPenalty := by unfold trackBest; split <;> rfl
@[simp] theorem trackBest_bestMask (total : Word) (mask : BitVec 3) :
    (trackBest total mask s).bestMask = if trackerTakes total s then mask else s.bestMask := by unfold trackBest; split <;> rfl
@[simp] theorem trackBest_errInfo (total : Word) (mask : BitVec 3) :
    (trackBest total mask s).errInfo = s.errInfo := by unfold trackBest; split <;> rfl
@[simp] theorem trackBest_seq (total : Word) (mask : BitVec 3) :
    (trackBest total mask s).seq = s.seq := by unfold trackBest; split <;> rfl
@[simp] theorem trackBest_psc (total : Word) (mask : BitVec 3) :
    (trackBest total mask s).psc = s.psc := by unfold trackBest; split <;> rfl
@[simp] theorem trackBest_mem (total : Word) (mask : BitVec 3) :
    (trackBest total mask s).mem = s.mem := by unfold trackBest; split <;> rfl
@[simp] theorem trackBest_params (total : Word) (mask : BitVec 3) :
    (trackBest total mask s).params = s.params := by unfold trackBest; split <;> rfl
@[simp] theorem trackBest_schedule (total : Word) (mask : BitVec 3) :
    (trackBest total mask s).schedule = s.schedule := by unfold trackBest; split <;> rfl
@[simp] theorem trackBest_reply (total : Word) (mask : BitVec 3) :
    (trackBest total mask s).reply = s.reply := by unfold trackBest; split <;> rfl

end Sys2Proof.Machine
end

