-- ==== Sys2Proof/Laws/Ops.lean ====
section
/-! SUPPORT. One lemma per shared operation that says once everything it can do; later proofs cite these and do not
unfold the operations. -/

namespace Sys2Proof.Machine

/-! ## The sequencer's state -/

theorem busy_eq_false_iff (s : State) : s.busy = false ↔ s.seq = .idle := by
  unfold State.busy; cases s.seq <;> simp

theorem busy_eq_true_iff (s : State) : s.busy = true ↔ ∃ l, s.seq = .run l := by
  unfold State.busy; cases s.seq <;> simp

/-! ## Raising an error -/

theorem raiseError_of_err {s : State} (h : s.err = true) (code : ErrorCode) (info : Word) :
    raiseError code info s = s := by simp [raiseError, h]

theorem raiseError_of_no_err {s : State} (h : s.err = false) (code : ErrorCode) (info : Word) :
    raiseError code info s = { s with err := true, errCode := code, errInfo := info } := by simp [raiseError, h]

/-! ## Admitting and issuing a command -/

/-- The four ways a command word that is a command can fare (60_exceptions.md R205). -/
theorem admission_cases (i : Instr) (s : State) :
    (s.err = true ∧ admission i s = .rejected s) ∨
    (s.err = false ∧ s.busy = true ∧ admission i s = .rejected (raiseError .busyCmd (encode i) s)) ∨
    (s.err = false ∧ s.busy = false ∧ operandError i s ≠ .none ∧
      admission i s = .rejected (raiseError (operandError i s) (encode i) s)) ∨
    (s.err = false ∧ s.busy = false ∧ operandError i s = .none ∧
      admission i s = .accepted (latch i (loadOperands i.operands s))
        (startCommand (latch i (loadOperands i.operands s)) (loadOperands i.operands s))) := by
  unfold admission
  cases he : s.err
  · cases hb : s.busy
    · cases ho : operandError i s <;> simp
    · simp
  · simp

theorem admission_of_ready {i : Instr} {s : State} (he : s.err = false) (hb : s.seq = .idle)
    (ho : operandError i s = .none) :
    admission i s = .accepted (latch i (loadOperands i.operands s))
      (startCommand (latch i (loadOperands i.operands s)) (loadOperands i.operands s)) := by
  unfold admission
  simp [he, (busy_eq_false_iff s).mpr hb, ho]

theorem issue_of_ready {i : Instr} {s : State} (effect : Latched → State → State) (he : s.err = false)
    (hb : s.seq = .idle) (ho : operandError i s = .none) :
    issue i effect s = .next (finish (effect (latch i (loadOperands i.operands s))
      (writeFmtId (latch i (loadOperands i.operands s))
        (startCommand (latch i (loadOperands i.operands s)) (loadOperands i.operands s))))) := by
  unfold issue; rw [admission_of_ready he hb ho]

theorem issue_of_rejected {i : Instr} {s s' : State} (effect : Latched → State → State)
    (h : admission i s = .rejected s') : issue i effect s = .next s' := by unfold issue; rw [h]

@[simp] theorem latch_command (i : Instr) (s : State) : (latch i s).command = i := rfl
@[simp] theorem latch_version (i : Instr) (s : State) : (latch i s).version = s.version := rfl
@[simp] theorem latch_mask (i : Instr) (s : State) : (latch i s).mask = s.mask := rfl
@[simp] theorem latch_fmtId (i : Instr) (s : State) : (latch i s).fmtId = s.fmtId := rfl
@[simp] theorem latch_rule3Mode (i : Instr) (s : State) : (latch i s).rule3Mode = s.rule3Mode := rfl

/-- The acceptance check uses the values the registers hold after the load (30_encoding.md R82). -/
theorem effectiveVersion_eq (o : Operands) (s : State) : effectiveVersion o s = (loadOperands o s).version := by
  simp [effectiveVersion]

theorem effectiveVerValid_eq (o : Operands) (s : State) : effectiveVerValid o s = (loadOperands o s).verValid := by
  simp [effectiveVerValid]

/-- The meaning of every instruction is its command issued with the effect the sequencer gives it: the two forms of
10_state.md R40 share their effects. -/
theorem exec_eq_issue (i : Instr) (s : State) : exec i s = issue i effectOf s := by
  rcases admission_cases i s with ⟨-, h⟩ | ⟨-, -, h⟩ | ⟨-, -, -, h⟩ | ⟨-, -, -, h⟩ <;>
    cases i <;>
    simp only [exec, execNop, execFcalc, execFcalcm, execVcalc, execFwrite, execVwrite, execEncfv, execScore,
      execBestclr, issue, h, effectOf, latch_command]

/-- The four ways a command can fare when it is issued and run. -/
theorem exec_cases (i : Instr) (s : State) :
    (s.err = true ∧ exec i s = .next s) ∨
    (s.err = false ∧ s.busy = true ∧ exec i s = .next (raiseError .busyCmd (encode i) s)) ∨
    (s.err = false ∧ s.busy = false ∧ operandError i s ≠ .none ∧
      exec i s = .next (raiseError (operandError i s) (encode i) s)) ∨
    (s.err = false ∧ s.busy = false ∧ operandError i s = .none ∧
      exec i s = .next (finish (effectOf (latch i (loadOperands i.operands s))
        (writeFmtId (latch i (loadOperands i.operands s))
          (startCommand (latch i (loadOperands i.operands s)) (loadOperands i.operands s)))))) := by
  rw [exec_eq_issue]
  rcases admission_cases i s with ⟨h1, h⟩ | ⟨h1, h2, h⟩ | ⟨h1, h2, h3, h⟩ | ⟨h1, h2, h3, h⟩
  · exact .inl ⟨h1, issue_of_rejected _ h⟩
  · exact .inr (.inl ⟨h1, h2, issue_of_rejected _ h⟩)
  · exact .inr (.inr (.inl ⟨h1, h2, h3, issue_of_rejected _ h⟩))
  · exact .inr (.inr (.inr ⟨h1, h2, h3, issue_of_ready _ h1 ((busy_eq_false_iff s).mp h2) h3⟩))

/-! ## The two-phase form -/

theorem cmdWrite_of_command {w : Word} {i : Instr} (h : decodeWord w = .ok i) (s : State) :
    cmdWrite w s = (admission i s).state := by unfold cmdWrite; rw [h]

theorem cmdWrite_of_illegal {w : Word} {e : DecodeError} (h : decodeWord w = .error e) (s : State) :
    cmdWrite w s = rejectIllegal w s := by unfold cmdWrite; rw [h]

theorem rejectIllegal_cases (w : Word) (s : State) :
    (s.err = true ∧ rejectIllegal w s = s) ∨
    (s.err = false ∧ s.busy = true ∧ rejectIllegal w s = raiseError .busyCmd w s) ∨
    (s.err = false ∧ s.busy = false ∧ rejectIllegal w s = raiseError .illegalCmd w s) := by
  unfold rejectIllegal
  cases he : s.err
  · cases hb : s.busy <;> simp
  · left
    cases s.busy <;> simp [raiseError_of_err he]

theorem completeRunning_idle {s : State} (h : s.seq = .idle) : completeRunning s = s := by
  simp [completeRunning, h]

theorem completeRunning_run {s : State} {l : Latched} (h : s.seq = .run l) :
    completeRunning s = finish (effectOf l (writeFmtId l s)) := by simp [completeRunning, h]

/-- The FMT_ID a command writes is the same whatever it was before, so writing it again changes nothing. -/
@[simp] theorem writeFmtId_writeFmtId (l : Latched) (s : State) : writeFmtId l (writeFmtId l s) = writeFmtId l s := by
  unfold writeFmtId; cases commandFmtId l <;> rfl

/-- A command that writes no FMT_ID leaves the state as it is. -/
theorem writeFmtId_none {l : Latched} (h : commandFmtId l = none) (s : State) : writeFmtId l s = s := by
  unfold writeFmtId; rw [h]

theorem runFmtId_idle {s : State} (h : s.seq = .idle) : runFmtId s = s := by simp [runFmtId, h]

theorem runFmtId_run {s : State} {l : Latched} (h : s.seq = .run l) : runFmtId s = writeFmtId l s := by
  simp [runFmtId, h]

/-- The write of FMT_ID changes no other field. -/
theorem writeFmtId_frame (l : Latched) (s : State) : writeFmtId l s = { s with fmtId := (writeFmtId l s).fmtId } := by
  unfold writeFmtId; cases commandFmtId l <;> rfl

theorem runFmtId_frame (s : State) : runFmtId s = { s with fmtId := (runFmtId s).fmtId } := by
  unfold runFmtId
  split
  · rfl
  · exact writeFmtId_frame _ _

/-- A write of FMT_ID made before the completion does not change what the completion leaves. -/
theorem completeRunning_runFmtId (s : State) : completeRunning (runFmtId s) = completeRunning s := by
  cases h : s.seq with
  | idle => rw [runFmtId_idle h]
  | run l => rw [runFmtId_run h, completeRunning_run (s := s) h, completeRunning_run (l := l) (by simpa using h),
      writeFmtId_writeFmtId]

/-- Nothing runs after a completion. -/
theorem completeRunning_seq (s : State) : (completeRunning s).seq = .idle := by
  unfold completeRunning; split <;> simp_all

/-- Everything one matrix access of the block can do. -/
theorem accessMatrix_cases (k : Nat) (s : State) :
    accessMatrix k s = s ∨
    (∃ l w, s.seq = .run l ∧ w ∈ runningWrites l s ∧
      accessMatrix k s = storeMatrix (matWrite s.mem w.row w.col w.cell) s) ∨
    (∃ l, s.seq = .run l ∧ readsMatrix l = true ∧
      accessMatrix k s = { s with psc := scanNext l.rule3Mode (sideOf l.version) (colorAt s.mem) s.psc }) := by
  unfold accessMatrix
  cases hs : s.seq with
  | idle => exact .inl rfl
  | run l =>
    dsimp only
    cases hw : (runningWrites l s)[k]? with
    | some w => exact .inr (.inl ⟨l, w, rfl, List.mem_of_getElem? hw, rfl⟩)
    | none =>
      unfold readNextCell
      cases hr : readsMatrix l
      · exact .inl (by simp)
      · exact .inr (.inr ⟨l, rfl, hr, by simp [hs]⟩)

/-- The registers of a state: all of it but the hidden scan and the matrix memory. -/
theorem accessMatrix_frame (k : Nat) (s : State) :
    accessMatrix k s = { s with psc := (accessMatrix k s).psc, mem := (accessMatrix k s).mem } := by
  rcases accessMatrix_cases k s with h | ⟨l, w, -, -, h⟩ | ⟨l, -, -, h⟩ <;> rw [h]
  all_goals rfl

/-! ## The register window -/

/-- Everything a write of an operand register or of CTRL can do (10_state.md R32). -/
theorem writeWhenIdle_cases (r : Reg) (store : State → State) (s : State) :
    (s.busy = false ∧ writeWhenIdle r store s = store s) ∨
    (s.busy = true ∧ writeWhenIdle r store s = raiseError .busyWrite (r.offset.setWidth 32) s) := by
  unfold writeWhenIdle; cases s.busy <;> simp

/-- Everything a register write can do. -/
theorem writeRegister_cases (r : Reg) (v : Word) (s : State) :
    writeRegister r v s = s ∨
    (r = .cmd ∧ writeRegister r v s = cmdWrite v s) ∨
    (r = .status ∧ writeRegister r v s = storeStatus v s) ∨
    (r = .ctrl ∧ v.getLsbD 31 = true ∧ writeRegister r v s = resetBlock s) ∨
    (r = .ctrl ∧ v.getLsbD 31 = false ∧ writeRegister r v s = writeWhenIdle .ctrl (storeCtrl v) s) ∨
    (r = .version ∧ writeRegister r v s = writeWhenIdle .version (storeVersion (v.extractLsb' 0 6)) s) ∨
    (r = .mask ∧ writeRegister r v s = writeWhenIdle .mask (storeMask (v.extractLsb' 0 3)) s) ∨
    (r = .fmtId ∧ writeRegister r v s = writeWhenIdle .fmtId (storeFmtId (v.extractLsb' 0 5)) s) := by
  cases r
  case ctrl =>
    cases hv : v.getLsbD 31
    · exact .inr (.inr (.inr (.inr (.inl ⟨rfl, rfl, by simp only [writeRegister, hv]; rfl⟩))))
    · exact .inr (.inr (.inr (.inl ⟨rfl, rfl, by simp only [writeRegister, hv]; rfl⟩)))
  all_goals simp [writeRegister]

theorem writeOffset_cases (off : Offset) (v : Word) (s : State) :
    (∃ r, regAt off = some r ∧ writeOffset off v s = writeRegister r v s) ∨
    (regAt off = none ∧ writeOffset off v s = s) := by
  unfold writeOffset; cases regAt off <;> simp

/-- Everything a host write can do. -/
theorem hostWrite_cases (addr size : Nat) (v : Word) (s : State) :
    (windowOffset addr = none ∧ hostWrite addr size v s = answer .outsideWindow s) ∨
    (∃ off, windowOffset addr = some off ∧ legalAccess off size = true ∧
      hostWrite addr size v s = writeOffset off v (answer .ack s)) ∨
    (∃ off, windowOffset addr = some off ∧ legalAccess off size = false ∧
      hostWrite addr size v s = answer .busError s) := by
  unfold hostWrite
  cases windowOffset addr with
  | none => simp
  | some off => cases h : legalAccess off size <;> simp [h]

/-- A host read changes nothing but the answer (20_memory.md R61). -/
theorem hostRead_frame (addr size : Nat) (s : State) : ∃ r, hostRead addr size s = answer r s := by
  unfold hostRead
  split
  · exact ⟨_, rfl⟩
  · split <;> exact ⟨_, rfl⟩

/-- An offset and its address in the window (20_memory.md R60). -/
theorem windowOffset_address (off : Offset) : windowOffset (Config.qrfvBase + off.toNat) = some off := by
  have h := off.isLt
  unfold windowOffset
  rw [if_pos (by omega), Nat.add_sub_cancel_left, BitVec.ofNat_toNat, BitVec.setWidth_eq]

/-- Every register is found at its own offset (10_state.md R22). -/
theorem regAt_offset (r : Reg) : regAt r.offset = some r := by cases r <;> decide

theorem windowOffset_reg (r : Reg) : windowOffset r.address = some r.offset := windowOffset_address r.offset

/-- A 32-bit host write of a register. -/
theorem hostWrite_reg (r : Reg) (v : Word) (s : State) :
    hostWrite r.address 4 v s = writeRegister r v (answer .ack s) := by
  unfold hostWrite
  have h : legalAccess r.offset 4 = true := by cases r <;> decide
  simp [windowOffset_reg, h, writeOffset, regAt_offset]

/-- A 32-bit host read of a register. -/
theorem hostRead_reg (r : Reg) (s : State) : hostRead r.address 4 s = answer (.data (readRegister s r)) s := by
  unfold hostRead
  have h : legalAccess r.offset 4 = true := by cases r <;> decide
  simp [windowOffset_reg, h, readOffset, regAt_offset]

end Sys2Proof.Machine
end

