-- ==== Sys2Proof/Laws/PerInstr.lean ====
section
/-! SUPPORT. Statements about every command as syntax, one lemma per constructor. -/

namespace Sys2Proof.Laws.LegalWord

/-- 30_encoding.md R80, R83, R84: the word of a well-formed command has its reserved bits clear and carries its OP, at
most 8, in the four lowest bits: no operand spills over its field. -/
def Statement (i : Instr) : Prop :=
  i.wf = true → reservedClear (encode i) = true ∧ bits (encode i) 3 0 = i.opcode ∧ i.opcode ≤ 8

/-- What the statement comes down to for operands and an opcode. -/
theorem of_fields {o : Operands} {op : Nat} (ho : o.wf = true) (hop : op ≤ 8) :
    reservedClear (BitVec.ofNat 32 (encodeNat o op)) = true ∧
      bits (BitVec.ofNat 32 (encodeNat o op)) 3 0 = op ∧ op ≤ 8 := by
  simp only [Operands.wf, Bool.and_eq_true, decide_eq_true_eq] at ho
  have hw : (BitVec.ofNat 32 (encodeNat o op)).toNat = encodeNat o op := by
    rw [BitVec.toNat_ofNat]; unfold encodeNat; split <;> omega
  simp only [reservedClear, bits, hw, Bool.and_eq_true, beq_iff_eq]
  unfold encodeNat
  split <;> omega

theorem nop (o : Operands) : Statement (.nop o) := fun h => of_fields h (op := 0) (by decide)
theorem fcalc (o : Operands) : Statement (.fcalc o) := fun h => of_fields h (op := 1) (by decide)
theorem fcalcm (o : Operands) : Statement (.fcalcm o) := fun h => of_fields h (op := 2) (by decide)
theorem vcalc (o : Operands) : Statement (.vcalc o) := fun h => of_fields h (op := 3) (by decide)
theorem fwrite (o : Operands) : Statement (.fwrite o) := fun h => of_fields h (op := 4) (by decide)
theorem vwrite (o : Operands) : Statement (.vwrite o) := fun h => of_fields h (op := 5) (by decide)
theorem encfv (o : Operands) : Statement (.encfv o) := fun h => of_fields h (op := 6) (by decide)
theorem score (o : Operands) : Statement (.score o) := fun h => of_fields h (op := 7) (by decide)
theorem bestclr (o : Operands) : Statement (.bestclr o) := fun h => of_fields h (op := 8) (by decide)

end Sys2Proof.Laws.LegalWord
end

