-- ==== Sys2Proof/Laws/Step.lean ====
section
/-! SUPPORT. What one step can do. -/

namespace Sys2Proof.Machine

theorem step_of_turn {s : State} {t : Turn} {ts : List Turn} (h : s.schedule = t :: ts) :
    step s = runTurn t (withSchedule ts s) := by simp [step, nextTurn, popTurn, h]

theorem step_of_no_turn {s : State} (h : s.schedule = []) : step s = .next (completeRunning s) := by
  have hs : withSchedule [] s = s := by rw [← h]; rfl
  simp [step, nextTurn, popTurn, h, hs, runTurn]

/-- Every command answers a next state. -/
theorem exec_next (i : Instr) (s : State) : ∃ t, exec i s = .next t := by
  rcases exec_cases i s with ⟨-, h⟩ | ⟨-, -, h⟩ | ⟨-, -, -, h⟩ | ⟨-, -, -, h⟩ <;> exact ⟨_, h⟩

/-- Everything a turn can do when it answers a next state. -/
theorem runTurn_cases {t : Turn} {s s' : State} (h : runTurn t s = .next s') :
    (∃ addr size v, t = .hostWrite addr size v ∧ s' = hostWrite addr size v s) ∨
    (∃ addr size, t = .hostRead addr size ∧ s' = hostRead addr size s) ∨
    (∃ row col c, t = .hostCellWrite row col c ∧ ownsCell s row.toNat col.toNat = false ∧
      s' = storeMatrix (matWrite s.mem row.toNat col.toNat c) (answer .ack s)) ∨
    (∃ row col, t = .hostCellRead row col ∧ ownsCell s row.toNat col.toNat = false ∧
      s' = answer (.cell (matRead s.mem row.toNat col.toNat)) s) ∨
    (t = .hardwareReset ∧ s' = resetBlock s) ∨
    (∃ k, t = .blockAccess k ∧ s' = accessMatrix k s) ∨
    (t = .blockCompletes ∧ s' = completeRunning s) ∨
    (t = .blockWritesFmtId ∧ s' = runFmtId s) ∨
    (t = .hostWait ∧ s' = hostWait s) ∨
    (∃ w i, t = .command w ∧ decodeWord w = .ok i ∧ exec i (answer .ack s) = .next s') ∨
    (∃ w e, t = .command w ∧ decodeWord w = .error e ∧ s' = rejectIllegal w (answer .ack s)) := by
  cases t with
  | hostWrite addr size v => simp only [runTurn, Host.Outcome.next.injEq] at h; simp [← h]
  | hostRead addr size => simp only [runTurn, Host.Outcome.next.injEq] at h; simp [← h]
  | hostCellWrite row col c =>
    cases ho : ownsCell s row.toNat col.toNat <;> simp [runTurn, hostCellWrite, ho] at h
    simp [ho, ← h]
  | hostCellRead row col =>
    cases ho : ownsCell s row.toNat col.toNat <;> simp [runTurn, hostCellRead, ho] at h
    simp [ho, ← h]
  | hardwareReset => simp only [runTurn, Host.Outcome.next.injEq] at h; simp [← h]
  | blockAccess k => simp only [runTurn, Host.Outcome.next.injEq] at h; simp [← h]
  | blockCompletes => simp only [runTurn, Host.Outcome.next.injEq] at h; simp [← h]
  | blockWritesFmtId => simp only [runTurn, Host.Outcome.next.injEq] at h; simp [← h]
  | hostWait => simp only [runTurn, Host.Outcome.next.injEq] at h; simp [← h]
  | command w =>
    cases hd : decodeWord w with
    | ok i => simp [runTurn, runCommand, hd] at h; simp [hd, h]
    | error e => simp [runTurn, runCommand, hd] at h; simp [hd, ← h]

/-- A turn stops the machine only as a race on a cell that the running command owns (20_memory.md R69). -/
theorem runTurn_stops {t : Turn} {s : State} (h : ∀ s', runTurn t s ≠ .next s') :
    ∃ row col, runTurn t s = .fault (.matrixRace row col) ∧ ownsCell s row.toNat col.toNat = true := by
  cases t with
  | hostWrite addr size v => exact absurd rfl (h _)
  | hostRead addr size => exact absurd rfl (h _)
  | hostCellWrite row col c =>
    cases ho : ownsCell s row.toNat col.toNat
    · exact absurd (by simp [runTurn, hostCellWrite, ho]; rfl) (h _)
    · exact ⟨row, col, by simp [runTurn, hostCellWrite, ho], ho⟩
  | hostCellRead row col =>
    cases ho : ownsCell s row.toNat col.toNat
    · exact absurd (by simp [runTurn, hostCellRead, ho]; rfl) (h _)
    · exact ⟨row, col, by simp [runTurn, hostCellRead, ho], ho⟩
  | hardwareReset => exact absurd rfl (h _)
  | blockAccess k => exact absurd rfl (h _)
  | blockCompletes => exact absurd rfl (h _)
  | blockWritesFmtId => exact absurd rfl (h _)
  | hostWait => exact absurd rfl (h _)
  | command w =>
    cases hd : decodeWord w with
    | ok i =>
      obtain ⟨t, ht⟩ := exec_next i (answer .ack s)
      exact absurd (by simpa [runTurn, runCommand, hd] using ht) (h t)
    | error e => exact absurd (by simp [runTurn, runCommand, hd]; rfl) (h _)

end Sys2Proof.Machine
end

