-- ==== Sys2Proof/Tests/Slice0.lean ====
section
/-! SUPPORT. Tests, their expected values taken from 95_test_vectors.md and from words written out by hand from
30_encoding.md, and the witnesses that the hypotheses of the statements can be met. -/

namespace Sys2Proof.Tests

open Sys2Proof Sys2Proof.Machine Sys2Proof.Spec

/-! ## States used below -/

/-- The state a command leaves, from a state with nothing scheduled. -/
def after (i : Instr) (s : State) : State :=
  match exec i s with
  | .next t => t
  | .fault _ => s
  | .refused _ => s

/-- ENCFV.ld 7, 2, 0 accepted after reset and not yet complete. -/
def encoding : State :=
  { State.reset with version := 7, mask := 2, seq := .run ⟨.encfv (.ld 7 2 0), 7, 2, 0, .omitted⟩ }

/-- SCORE.ld 1, 0, 0 accepted after reset, no cell read yet. -/
def scoring : State :=
  { State.reset with version := 1, seq := .run ⟨.score (.ld 1 0 0), 1, 0, 0, .omitted⟩, psc := PscWork.start 21 }

/-- VER_WORD as VCALC for version 7 leaves it. -/
def versionReady : State := { State.reset with version := 7, verWord := 0x07C94, verValid := true }

/-- An error stands. -/
def failed : State := withError .illegalCmd 9 State.reset

/-- Two dark cells: (0, 0) Unset and (1, 1) Functional. -/
def dotted : State := { State.reset with mem := [(0, 1), (257, 3)] }

/-! ## Well-formedness -/

theorem test_wf_refuses_v_64 : (Instr.encfv (.ld 64 0 0)).wf = false := by decide
theorem test_wf_refuses_m_8 : (Instr.fcalcm (.ld 0 8 0)).wf = false := by decide
theorem test_wf_refuses_f_32 : (Instr.fcalc (.ld 0 0 32)).wf = false := by decide
theorem test_wf_takes_the_largest : (Instr.score (.ld 63 7 31)).wf = true := by decide

/-! ## Decoding: words written bit by bit from 30_encoding.md R80, R84: L 00 F 00000 M 00 V 0000 OP -/

theorem test_decode_nop : decodeWord 0b1_00_01101_00000_101_00_000001_0000_0000#32 = .ok (.nop (.ld 1 5 13)) := by decide
theorem test_decode_fcalc : decodeWord 0b1_00_11111_00000_000_00_000000_0000_0001#32 = .ok (.fcalc (.ld 0 0 31)) := by decide
theorem test_decode_fcalcm : decodeWord 0b1_00_00000_00000_111_00_000000_0000_0010#32 = .ok (.fcalcm (.ld 0 7 0)) := by decide
theorem test_decode_vcalc : decodeWord 0b1_00_00000_00000_000_00_101000_0000_0011#32 = .ok (.vcalc (.ld 40 0 0)) := by decide
theorem test_decode_fwrite : decodeWord 0b0_00_00000_00000_000_00_000000_0000_0100#32 = .ok (.fwrite .plain) := by decide
theorem test_decode_vwrite : decodeWord 0b1_00_00000_00000_000_00_000111_0000_0101#32 = .ok (.vwrite (.ld 7 0 0)) := by decide
theorem test_decode_encfv : decodeWord 0b1_00_00000_00000_010_00_000111_0000_0110#32 = .ok (.encfv (.ld 7 2 0)) := by decide
theorem test_decode_score : decodeWord 0b1_00_00001_00000_011_00_000101_0000_0111#32 = .ok (.score (.ld 5 3 1)) := by decide
theorem test_decode_bestclr : decodeWord 0b0_00_10000_00000_100_00_100000_0000_1000#32 = .ok (.bestclr ⟨false, 32, 4, 16⟩) := by decide
theorem test_decode_refuses_op_9_and_15 :
    decodeWord 0x00000009 = .error .reservedOpcode ∧ decodeWord 0x0000000F = .error .reservedOpcode := by decide
theorem test_decode_refuses_each_reserved_bit :
    ∀ i ∈ [4, 5, 6, 7, 14, 15, 19, 20, 21, 22, 23, 29, 30], decodeWord (BitVec.ofNat 32 (2 ^ i + 6)) = .error .reservedBits := by
  decide
theorem test_decode_three_bytes : decodeBytes [6, 0, 0] = .error .notFourBytes := by decide
theorem test_decode_little_endian : decodeBytes [0x06, 0x07, 0x02, 0x80] = .ok (.encfv (.ld 7 2 0)) := by decide
theorem test_decode_table_word : decodeTableWord 32 0x80020706 = some (.encfv (.ld 7 2 0)) := by decide
theorem test_assemble_ld :
    assemble "encfv.ld 7, 0x2,0".toList = some [0x80020706] := by decide
theorem test_assemble_refuses_v_64 : assemble "NOP.ld 64,0,0".toList = none := by decide
/-! R88: the pseudo-commands' lines, at the largest values R86 lets fit and just past them. -/
theorem test_assemble_load :
    assemble "LOAD 63, 7, 31".toList = some [0b1_00_11111_00000_111_00_111111_0000_0000] ∧
      assemble "LOAD 64, 0, 0".toList = none ∧ assemble "LOAD 0, 0, 32".toList = none ∧
      assemble "LOAD 1, 2".toList = none ∧ pseudoLoad 64 0 0 = none := by decide
theorem test_assemble_tryMask :
    assemble "TryMask 7, 2".toList = some [0x80020706, 0x00000007] ∧
      assemble "TRYMASK 7, 8".toList = none ∧ assemble "TRYMASK 64, 0".toList = none := by decide
theorem test_assemble_format :
    assemble "FORMAT 7".toList = some [0b1_00_00000_00000_111_00_000000_0000_0010] ∧
      assemble "FORMAT 8".toList = none ∧ assemble "FORMAT".toList = none := by decide
theorem test_cmdLine_waits_after_each_cmd_of_a_pseudo_command :
    cmdLine "TRYMASK 1, 3".toList =
      some [.hostWrite (Reg.cmd.address) 4 0x80030106, .hostWait, .hostWrite (Reg.cmd.address) 4 0x00000007, .hostWait] ∧
      cmdLine "SCORE".toList = some [.hostWrite (Reg.cmd.address) 4 0x00000007] := by
  constructor <;> rfl

/-! 95_test_vectors.md §3, program P4: a raw command word, and comments after a statement. -/
theorem test_cmdLine_takes_the_raw_word_of_P4 :
    cmdLine "0x0000000F            ; -> ERRCODE 1".toList = some [.hostWrite (Reg.cmd.address) 4 0x0000000F] ∧
      cmdLine "0x100000000".toList = none := by
  constructor <;> rfl
theorem test_assemble_takes_the_comments_of_P4 :
    assemble "VCALC.ld 7, 0, 0      ; 0x80000703 -> VER_WORD 0x07C94, VER_VALID 1".toList = some [0x80000703] ∧
      assemble "SCORE; 0x00000007".toList = some [0x00000007] ∧ assemble "; SCORE".toList = none := by decide

/-! ## One step of each command (95_test_vectors.md §2.3, §2.4, §2.8, §2.9) -/

/-- What one step makes of a command word placed as the next command after reset. -/
def stepOn (w : Nat) (s : State) : State :=
  match step (s.withFetchWord 32 w) with
  | .next t => t
  | .fault _ => s
  | .refused _ => s

theorem test_nop_E1 : stepOn 0x00000000 State.reset = { State.reset with done := true, reply := .ack } := by decide
theorem test_nop_E2 :
    let t := stepOn 0x8D050100 State.reset
    (t.version, t.mask, t.fmtId, readRegister t .size, t.verValid, t.done) = (1, 5, 13, 21, false, true) := by decide
theorem test_fcalc_F1 : (stepOn 0x00000001 State.reset).fmtWord = 0x5412 := by decide
theorem test_fcalc_F2 :
    let t := stepOn 0x9F000001 State.reset
    (t.fmtId, t.fmtWord, t.version) = (31, 0x2BED, 0) := by decide
theorem test_fcalcm_F4 :
    let t := stepOn 0x80070002 State.reset
    (t.fmtId, t.fmtWord) = (15, 0x6976) := by decide
theorem test_fcalcm_F5 :
    let t := stepOn 0x9F050002 State.reset
    (t.fmtId, t.fmtWord) = (13, 0x6318) := by decide
theorem test_vcalc_F9 :
    let t := stepOn 0x80002803 State.reset
    (t.verWord, t.verValid, readRegister t .size) = (0x28C69, true, 177) := by decide
theorem test_vcalc_F11 :
    let t := stepOn 0x80002903 State.reset
    (t.err, readRegister t .status, t.errInfo, t.version, t.done) = (true, 0x24, 0x80002903, 0, false) := by decide
theorem test_fwrite_F12 :
    let t := stepOn 0x80000104 State.reset
    t.mem.length = 30 ∧ matRead t.mem 20 8 = ⟨false, .functional⟩ ∧ matRead t.mem 13 8 = ⟨false, .unset⟩ := by decide
theorem test_fwrite_F13 :
    let t := stepOn 0x00000004 { State.reset with version := 1, fmtWord := 0x77C4 }
    (t.mem.countP fun c => c.2.getLsbD 0) = 18 ∧
      (colorAt t.mem 8 0, colorAt t.mem 8 3, colorAt t.mem 17 8, colorAt t.mem 8 13) = (true, false, false, true) := by
  decide
theorem test_vwrite_F14 :
    let t := stepOn 0x80000705 { versionReady with version := 8 }
    (t.errCode, t.errInfo, t.version, t.verValid) = (.noVerWord, 0x80000705, 8, true) := by decide
theorem test_vwrite_F15 :
    let t := stepOn 0x00000005 versionReady
    t.mem.length = 36 ∧ (t.mem.countP fun c => c.2.getLsbD 0) = 16 ∧
      (colorAt t.mem 0 36, colorAt t.mem 36 0, colorAt t.mem 3 34, colorAt t.mem 4 34) = (true, true, false, true) := by
  decide
theorem test_encfv_F17 :
    let t := stepOn 0x80020706 State.reset
    (t.fmtId, t.fmtWord, t.verWord, t.verValid, t.mem.length) = (10, 0x7DAA, 0x07C94, true, 66) := by decide
theorem test_encfv_F18 :
    let t := stepOn 0x80000106 State.reset
    (t.fmtWord, t.verWord, t.verValid, t.mem.length) = (0x77C4, 0, false, 30) := by decide
theorem test_score_S1_T2 :
    let t := stepOn 0x80040107 State.reset
    [t.penR1, t.penR2, t.penR3, t.penR4, t.penTotal, t.bestPenalty] = [798, 1200, 0, 100, 2098, 2098] ∧
      (t.darkCount, t.bestMask, t.bestValid) = (0, 4, true) := by decide +kernel
theorem test_score_S9 :
    let t := stepOn 0x80000107 { State.reset with mem := [(0, 1), (1, 1), (2, 1), (3, 1), (4, 1)] }
    (t.penR1, t.penR2, t.penR4, t.penTotal, t.darkCount) = (791, 1185, 90, 2066, 5) := by decide +kernel
theorem test_bestclr_T4 :
    let t := stepOn 0x00000008 { State.reset with bestPenalty := 2098, bestMask := 4, bestValid := true, penTotal := 2098 }
    (t.bestPenalty, t.bestMask, t.bestValid, t.penTotal) = (0xFFFFFFFF, 0, false, 2098) := by decide

/-- R6: another generator. With G15 = 0x400 the remainder of any id is 0 and the word is `fid << 10` XOR 0x5412. -/
theorem test_fcalc_other_generator :
    (stepOn 0x9F000001 { State.reset with params := { g15 := 0x400 } }).fmtWord = 0x2812 := by decide

/-! ## Errors, registers, reset (95_test_vectors.md §2.9) -/

/-- R74: FMT_ID, once written in RUN, does not change at the completion. -/
theorem test_fmt_id_before_completion :
    (runFmtId encoding).fmtId = 10 ∧ (runFmtId encoding).busy = true ∧ (completeRunning encoding).fmtId = 10 := by decide
/-- R87, E11: `wait` after a CMD write turned away while BUSY ends with BUSY = 0 all the same. -/
theorem test_wait_after_busy_cmd :
    let t := hostWait (cmdWrite 0x00000000 encoding)
    (t.busy, t.errCode, t.done, t.reply) = (false, .busyCmd, true, .data 0x136) := by decide

theorem test_illegal_E4 :
    let t := stepOn 0x00000009 State.reset
    (t.err, t.errCode, t.errInfo) = (true, .illegalCmd, 9) := by decide
theorem test_dropped_E8 : (stepOn 0x00000000 failed).done = false ∧ (stepOn 0x00000000 failed).errCode = .illegalCmd := by decide
theorem test_clear_E9 : writeRegister .status 0x4 failed = State.reset := by decide
theorem test_busy_cmd_E11 :
    let t := completeRunning (cmdWrite 0x00000000 encoding)
    (t.err, t.errCode, t.errInfo, t.done, t.fmtWord) = (true, .busyCmd, 0, true, 0x7DAA) := by decide
theorem test_busy_write_E12 :
    let t := writeRegister .mask 3 encoding
    (t.mask, t.errCode, t.errInfo) = (2, .busyWrite, 0x14) := by decide
theorem test_reserved_mode_E16 : readRegister (writeRegister .ctrl 0x00000006 State.reset) .ctrl = 0 := by decide
theorem test_irq_E15 :
    let t := stepOn 0x00000000 (writeRegister .ctrl 1 State.reset)
    irq t = true ∧ irq (writeRegister .status 0x2 t) = false := by decide
theorem test_line_run_penalty : -- §2.5: runs 5, 7, 7, 2
    lineRunPenalty ([false, false, false, false, false] ++ List.replicate 7 true ++ List.replicate 7 false ++ [true, true]) =
      13 := by decide
theorem test_line_pattern_penalty : -- §2.6: PAT_B at k = 0, PAT_A at k = 4
    linePatternPenalty ([false, false, false, false, true, false, true, true, true, false, true] ++
      [false, false, false, false, true, false, true, false, true, false]) = 80 := by decide
theorem test_balance : -- §2.7
    [0, 1, 100, 198, 199, 220, 243, 265, 441].map (penaltyBalance 21) = [100, 90, 50, 10, 0, 0, 10, 20, 100] := by decide

/-! ## Witnesses: the hypotheses of the statements can be met -/

theorem witness_DecodeReadsBackEveryEncodedCommand :
    (Instr.score (.ld 63 7 31)).wf = true ∧ (Instr.nop .plain).wf = true := by decide
theorem witness_DecodedWordsEncodeBack : decodeWord 0x9F073F08 = .ok (.bestclr (.ld 63 7 31)) := by decide
theorem witness_IllegalWordsRaiseIllegalCmd :
    Ready State.reset ∧ illegalWord 0x00000009 ∧ illegalWord 0xC0000000 ∧ ¬ illegalWord 0x9F073F08 := by decide
theorem witness_StepRunsTheDecodedCommand_command :
    ({ State.reset with schedule := [.command 0x80020706] } : State).schedule = .command 0x80020706 :: [] ∧
      decodeWord 0x80020706 = .ok (.encfv (.ld 7 2 0)) := by decide
theorem witness_StepRunsTheDecodedCommand_illegal :
    ({ State.reset with schedule := [.command 0x10] } : State).schedule = .command 0x10 :: [] ∧
      decodeWord 0x10 = .error .reservedBits := by decide
theorem witness_HostAccessesOfTheRegisterWindow_write :
    ({ State.reset with schedule := [wr .mask 5] } : State).schedule =
      .hostWrite (Config.qrfvBase + Reg.mask.offset.toNat) 4 5 :: [] := rfl
theorem witness_HostAccessesOfTheRegisterWindow_read :
    ({ State.reset with schedule := [rd .errInfo] } : State).schedule =
      .hostRead (Config.qrfvBase + Reg.errInfo.offset.toNat) 4 :: [] := rfl
theorem witness_HostAccessesOfTheRegisterWindow_bus_error :
    ((2 : Nat) ≠ 4 ∨ (0x10 : Offset).toNat % 4 ≠ 0) ∧ ((4 : Nat) ≠ 4 ∨ (0xFF : Offset).toNat % 4 ≠ 0) := by decide
theorem witness_HostAccessesOfTheRegisterWindow_reserved :
    0x4C ≤ (0x4C : Offset).toNat ∧ (0x4C : Offset).toNat % 4 = 0 ∧ 0x4C ≤ (0xFC : Offset).toNat ∧
      (0xFC : Offset).toNat % 4 = 0 := by decide
theorem witness_HostAccessesOfTheRegisterWindow_wait :
    ({ encoding with schedule := [wait] } : State).schedule = .hostWait :: [] := by decide
theorem witness_CmdWriteFollowsTheAcceptanceOrder_err : failed.err = true := by decide
theorem witness_CmdWriteFollowsTheAcceptanceOrder_busy : encoding.err = false ∧ encoding.busy = true := by decide
theorem witness_CmdWriteFollowsTheAcceptanceOrder_illegal :
    Ready State.reset ∧ illegalWord 0x00000009 ∧ illegalWord 0x80000085 := by decide
theorem witness_CmdWriteFollowsTheAcceptanceOrder_version :
    Ready State.reset ∧ ¬ illegalWord 0x00000003 ∧ badVersionWord 0x00000003 State.reset ∧
      ¬ illegalWord 0x80002907 ∧ badVersionWord 0x80002907 State.reset := by decide
theorem witness_CmdWriteFollowsTheAcceptanceOrder_word :
    Ready versionReady ∧ ¬ illegalWord 0x80000705 ∧ ¬ badVersionWord 0x80000705 versionReady ∧
      noVersionWord 0x80000705 versionReady := by decide
theorem witness_CmdWriteFollowsTheAcceptanceOrder_accepted :
    Ready versionReady ∧ ¬ illegalWord 0x00000005 ∧ ¬ badVersionWord 0x00000005 versionReady ∧
      ¬ noVersionWord 0x00000005 versionReady ∧ ¬ badVersionWord 0x80002807 versionReady := by decide
theorem witness_OperandLoadHappensExactlyOnAcceptance :
    State.reset.seq = .idle ∧ (cmdWrite 0x80020706 State.reset).busy = true ∧ (cmdWrite 1 State.reset).busy = true ∧
      (cmdWrite 0x80002903 State.reset).busy = false := by decide
theorem witness_RejectionsChangeOnlyTheErrorFields :
    (cmdWrite 0 encoding).seq = encoding.seq ∧ encoding.seq = .run ⟨.encfv (.ld 7 2 0), 7, 2, 0, .omitted⟩ ∧
      (3 : Word).getLsbD 31 = false := by decide
theorem witness_TheFirstErrorIsKept :
    failed.err = true ∧ failed.busy = false ∧ (withError .busyCmd 0 encoding).err = true ∧
      (withError .busyCmd 0 encoding).busy = true ∧ (0x80000004 : Word).getLsbD 31 = true ∧
      (0x80000004 : Word).getLsbD 2 = true := by decide
theorem witness_ClearingAnErrorRestoresNothingElse :
    (4 : Word).getLsbD 2 = true ∧ failed.seq = .idle ∧ illegalWord 0x0000000F := by decide
theorem witness_OperandWritesWhileBusyAreIgnored :
    encoding.busy = true ∧ encoding.err = false ∧ (withError .busyCmd 0 scoring).busy = true ∧
      (withError .busyCmd 0 scoring).err = true := by decide
theorem witness_ErrorsComeOnlyFromTheTwoKindsOfEvent_command :
    step { State.reset with schedule := [.command 9] } = .next { failed with reply := .ack } ∧
      State.reset.err = false ∧ failed.err = true := ⟨rfl, rfl, rfl⟩
theorem witness_ErrorsComeOnlyFromTheTwoKindsOfEvent_cmd :
    step { State.reset with schedule := [wr .cmd 9] } = .next { failed with reply := .ack } := by
  rw [step_of_turn (t := .hostWrite Reg.cmd.address 4 9) (ts := []) rfl]
  simp only [runTurn, hostWrite_reg]
  rfl
theorem witness_ErrorsComeOnlyFromTheTwoKindsOfEvent_busy :
    encoding.busy = true ∧ encoding.err = false ∧ (writeRegister .fmtId 1 encoding).err = true := by decide
theorem witness_RegisterMapIsTheSpecs : 0x4C ≤ (0x4C : Offset).toNat ∧ 0x4C ≤ (0xFF : Offset).toNat := by decide
theorem witness_UsedBitsReadInPlaceAndOthersAreInert :
    usedWidth .status ≤ 10 ∧ (readRegister { State.reset with bestValid := true } .status).getLsbD 9 = true := by decide
theorem witness_OperandRegistersStoreTheirBits :
    versionReady.seq = .idle ∧ (Operands.ld 63 7 31).load = true ∧ (Operands.ld 63 7 31).wf = true := by decide
theorem witness_ControlWritesKeepOnlyLegalModes :
    (0x80000003 : Word).getLsbD 31 = true ∧ (3 : Word).getLsbD 31 = false ∧ (3 : Word).extractLsb' 1 2 = 1#2 ∧
      (6 : Word).extractLsb' 1 2 ≠ 1#2 := by decide
theorem witness_StatusBitsAreWriteOneToClear :
    encoding.seq = .run ⟨.encfv (.ld 7 2 0), 7, 2, 0, .omitted⟩ ∧ (6 : Word).getLsbD 1 = true ∧
      (6 : Word).getLsbD 2 = true := by decide
theorem witness_SizeIsAViewOfVersion : ({ State.reset with version := 63 } : State).version = 63 := by decide
theorem witness_InterruptFollowsDoneAndErr :
    ({ encoding with irqEn := true } : State).irqEn = true ∧ failed.seq = .idle ∧ failed.err = true := by decide
theorem witness_ResetsRestoreEveryRegisterAndKeepTheMatrix : (0xFFFFFFFF : Word).getLsbD 31 = true := by decide

/-! The conditions of the completion statements, at the ends of the versions and from a state with a matrix. -/

theorem witness_NopCompletes : Ready dotted := by decide
theorem witness_FcalcCompletes : Ready dotted ∧ (loaded .plain dotted).fmtId = 0 ∧ dotted.params.g15 = 0x537 := by decide
theorem witness_FcalcmCompletes : Ready dotted ∧ dotted.params.g15 = 0x537 := by decide
theorem witness_BestclrCompletes : Ready { State.reset with bestValid := true, bestPenalty := 2098 } := by decide
theorem witness_VcalcCompletes :
    Ready dotted ∧ (loaded (.ld 1 0 0) dotted).version.toNat = 1 ∧ (loaded (.ld 40 0 0) dotted).version = 40 ∧
      (loaded .plain dotted).version.toNat < 1 ∧ 40 < (loaded (.ld 41 0 0) dotted).version.toNat := by decide
theorem witness_FwriteCompletes :
    Ready dotted ∧ dotted.mem.wf = true ∧ (loaded (.ld 1 0 0) dotted).version = 1 ∧
      (loaded (.ld 40 0 0) dotted).version.toNat = 40 ∧ (loaded .plain dotted).version.toNat < 1 := by decide
theorem witness_VwriteCompletes_word :
    Ready versionReady ∧ versionReady.mem.wf = true ∧ (loaded .plain versionReady).version = 7 ∧
      versionReady.verWord = 0x07C94 ∧ (loaded .plain versionReady).verValid = true := by decide
theorem witness_VwriteCompletes_none :
    Ready dotted ∧ (loaded (.ld 1 0 0) dotted).version.toNat = 1 ∧ (loaded (.ld 6 0 0) dotted).version.toNat = 6 := by decide
theorem witness_VwriteCompletes_errors :
    40 < (loaded (.ld 63 0 0) dotted).version.toNat ∧ 7 ≤ (loaded (.ld 7 0 0) versionReady).version.toNat ∧
      (loaded (.ld 40 0 0) versionReady).version.toNat ≤ 40 ∧ (loaded (.ld 7 0 0) versionReady).verValid = false := by
  decide
theorem witness_EncfvCompletes :
    Ready State.reset ∧ State.reset.mem.wf = true ∧ State.reset.mem = [] ∧ State.reset.params.g15 = 0x537 ∧
      (loaded (.ld 7 2 0) State.reset).version.toNat = 7 ∧ (loaded (.ld 6 0 0) State.reset).version.toNat = 6 := by decide
theorem witness_ScoreCompletes :
    Ready State.reset ∧ (loaded (.ld 1 0 0) State.reset).version.toNat = 1 ∧ State.reset.rule3Mode = .omitted ∧
      (∀ r c, r < 21 → c < 21 → (matRead State.reset.mem r c).color = false) := by
  exact ⟨by decide, by decide, by decide, fun r c _ _ => by simp [matRead, Memory.read, State.reset, CellRec.ofByte, unwrittenByte]⟩
theorem witness_RepeatingACommandChangesNothing :
    Ready dotted ∧ dotted.mem.wf = true ∧ 1 ≤ (loaded (.ld 1 0 0) dotted).version.toNat ∧
      (loaded (.ld 1 0 0) dotted).version.toNat ≤ 40 ∧
      exec (.encfv (.ld 1 0 0)) dotted = .next (after (.encfv (.ld 1 0 0)) dotted) := ⟨by decide, by decide, by decide, by decide, rfl⟩
theorem witness_VwriteWritesOnlyThePresentVersionsWord :
    Inv versionReady ∧ Ready versionReady ∧ 7 ≤ versionReady.version.toNat ∧
      (after (.vwrite .plain) versionReady).err = false ∧ 7 ≤ (loaded (.ld 40 0 0) versionReady).version.toNat ∧
      7 ≤ ((7 : Word).extractLsb' 0 6).toNat ∧ ((40 : Word).extractLsb' 0 6).toNat ≤ 40 := by
  refine ⟨⟨by decide, ⟨by decide, by decide⟩, fun _ => by decide, by unfold TrackerAgrees; decide,
    fun h => absurd h (by decide), fun _ hl => Sequencer.noConfusion hl, by decide⟩, ?_⟩
  decide
theorem witness_FormatRemainderIsThePolynomialRemainder : (0x537 : BitVec 11).getLsbD 10 = true ∧ (0x400 : BitVec 11).getLsbD 10 = true := by decide
theorem witness_WrittenCellsAreDistinctAndInside : legalVersion 1 = true ∧ legalVersion 40 = true ∧ 45 ≤ sideOf 7 := by decide
theorem witness_DarkModuleIsNeverWritten :
    legalVersion 1 = true ∧ runningWrites ⟨.encfv (.ld 1 0 0), 1, 0, 0, .omitted⟩ State.reset ≠ [] := by decide
theorem witness_BalancePenaltyIsTheExactFloor : 0 < 21 ∧ 441 ≤ 21 * 21 ∧ 9 * (21 * 21) < 20 * 199 ∧ 20 * 242 < 11 * (21 * 21) := by
  decide
theorem witness_PenaltiesStayWithinTheirBounds : (177 : Nat) ≤ 177 := by decide
theorem witness_ScoreDependsOnlyOnTheColorsInside :
    ∀ r c, r < sideOf 1 → c < sideOf 1 →
      colorAt [(0, 7), (21, 1)] r c = colorAt ({ State.reset with mem := [(0, 1)] } : State).mem r c := by
  have h : ∀ r < 21, ∀ c < 21, colorAt [(0, 7), (21, 1)] r c = colorAt [(0, 1)] r c := by decide
  exact fun r c hr hc => h r hr c hc
theorem witness_TrackerKeepsTheFirstMinimum :
    [(9 : Word), 7, 7].length ≤ 8 ∧ State.reset.bestValid = false ∧
      ({ State.reset with bestValid := true, bestPenalty := 7 } : State).bestValid = true := by decide
theorem witness_TheScanComputesThePenalties : 0 < sideOf 1 := by decide

/-- A state with a command running that meets the invariant. -/
theorem witness_inv_running : Inv encoding ∧ encoding.seq = .run ⟨.encfv (.ld 7 2 0), 7, 2, 0, .omitted⟩ := by
  refine ⟨⟨by decide, ⟨by decide, by decide⟩, fun h => absurd h (by decide), by unfold TrackerAgrees; decide,
    fun h => absurd h (by decide), fun l hl => ?_, by decide⟩, rfl⟩
  cases hl
  decide

/-- A state with a SCORE running that meets the invariants. -/
theorem witness_inv_scoring : Inv scoring ∧ PenaltiesBounded scoring ∧ ScanOnTrack scoring := by
  refine ⟨⟨by decide, ⟨by decide, by decide⟩, fun h => absurd h (by decide), by unfold TrackerAgrees; decide,
    fun h => absurd h (by decide), fun l hl => ?_, by decide⟩,
    ⟨by decide, by decide, by decide, by decide, by decide, by decide, by decide⟩, fun l hl _ => ⟨0, ?_⟩⟩
  · cases hl; decide
  · cases hl; rfl

theorem witness_EveryStepKeepsTheInvariant :
    Inv encoding ∧ step encoding = .next (completeRunning encoding) := ⟨witness_inv_running.1, rfl⟩
theorem witness_EveryStepKeepsThePenaltiesBounded :
    Inv scoring ∧ PenaltiesBounded scoring ∧ step scoring = .next (completeRunning scoring) :=
  ⟨witness_inv_scoring.1, witness_inv_scoring.2.1, step_of_no_turn rfl⟩
theorem witness_EveryStepKeepsTheScanOnTrack :
    Inv scoring ∧ ScanOnTrack scoring ∧ step scoring = .next (completeRunning scoring) :=
  ⟨witness_inv_scoring.1, witness_inv_scoring.2.2, step_of_no_turn rfl⟩
theorem witness_BlockWritesOnlyFunctionalCellsInside :
    Inv encoding ∧ step encoding = .next (completeRunning encoding) ∧ ∀ row col c, nextTurn encoding ≠ .hostCellWrite row col c :=
  ⟨witness_inv_running.1, rfl, fun _ _ _ h => Turn.noConfusion h⟩
theorem witness_EarlyAccessesDoNotChangeTheOutcome : Inv encoding ∧ moves [some 65, none, some 3, some 3] encoding ≠ encoding :=
  ⟨witness_inv_running.1, by decide⟩
theorem witness_TheTwoFormsOfACommandAgree : Inv State.reset ∧ State.reset.seq = .idle :=
  ⟨⟨by decide, ⟨by decide, by decide⟩, fun h => absurd h (by decide), by unfold TrackerAgrees; decide,
    fun h => absurd h (by decide), fun _ hl => Sequencer.noConfusion hl, by decide⟩, rfl⟩
theorem witness_AbandonedCommandsLeaveOldOrNewCells :
    Inv encoding ∧ encoding.seq = .run ⟨.encfv (.ld 7 2 0), 7, 2, 0, .omitted⟩ := witness_inv_running
theorem witness_HostAccessOfAnOwnedCellIsAFault :
    ownsCell encoding 8 0 = true ∧ ownsCell encoding 0 34 = true ∧ ownsCell encoding 0 0 = false ∧
      ownsCell scoring 20 20 = true ∧ ownsCell scoring 21 0 = false ∧
      ({ scoring with schedule := [.hostCellRead 20 20] } : State).schedule = .hostCellRead 20 20 :: [] := by decide
theorem witness_OnlyAMatrixRaceStopsTheMachine :
    step { encoding with schedule := [.hostCellWrite 8 0 ⟨true, .data⟩] } = .fault (.matrixRace 8 0) ∧
      StepsOn encoding := ⟨rfl, _, rfl⟩
theorem witness_ResultsChangeOnlyAtCompletionAndReset :
    step { encoding with schedule := [.blockAccess 0] } = .next (accessMatrix 0 encoding) ∧
      nextTurn { encoding with schedule := [.blockAccess 0] } = .blockAccess 0 := ⟨rfl, rfl⟩
theorem witness_ResultsChangeOnlyAtCompletionAndReset_valid :
    (writeRegister .version 7 versionReady).verValid ≠ versionReady.verValid ∧
      (cmdWrite 0x80000700 versionReady).verValid ≠ versionReady.verValid ∧ (cmdWrite 0x80000700 versionReady).busy = true := by
  decide

end Sys2Proof.Tests
end

section
/-! PROOF. Registers and command words as the host sees them: the fields of a command word, the acceptance check of
VERSION on the bits of the word, register writes in IDLE and in RUN, register reads, and with them the statements about
the operand registers. -/

namespace Sys2Proof.Machine

open Sys2Proof.Spec

/-! ## The fields of a word -/

theorem bits_eq_extractLsb' (w : Word) (hi lo : Nat) : bits w hi lo = (w.extractLsb' lo (hi + 1 - lo)).toNat := by
  rw [BitVec.extractLsb'_toNat, Nat.shiftRight_eq_div_pow, bits]

/-- A field is 0 exactly when each of its bits is. -/
theorem bits_eq_zero_iff (w : Word) (hi lo : Nat) :
    bits w hi lo = 0 ↔ ∀ i < hi + 1 - lo, w.getLsbD (lo + i) = false := by
  rw [bits_eq_extractLsb', ← BitVec.toNat_zero, BitVec.toNat_inj, BitVec.eq_of_getLsbD_eq_iff]
  refine forall₂_congr fun i hi => ?_
  simp [hi]

/-- The mask of a field of `len` bits from `lo` on has ones in the field's places. -/
theorem getLsbD_fieldMask {lo len i : Nat} (hi : i < 32) :
    (BitVec.ofNat 32 (2 ^ len - 1) <<< lo).getLsbD i = decide (lo ≤ i ∧ i < lo + len) := by
  simp only [BitVec.getLsbD_shiftLeft, BitVec.getLsbD_ofNat, Nat.testBit_two_pow_sub_one, hi, decide_true,
    Bool.true_and, ← decide_not, ← Bool.decide_and, decide_eq_decide]
  omega

/-- A word under the mask of a field is 0 exactly when the field is. -/
theorem and_fieldMask_eq_zero_iff (w : Word) (hi lo : Nat) :
    w &&& (BitVec.ofNat 32 (2 ^ (hi + 1 - lo) - 1) <<< lo) = 0#32 ↔ bits w hi lo = 0 := by
  rw [bits_eq_zero_iff, BitVec.eq_of_getLsbD_eq_iff]
  constructor
  · intro h i hlen
    by_cases hw : lo + i < 32
    · simpa [getLsbD_fieldMask hw, hlen] using h (lo + i) hw
    · exact BitVec.getLsbD_of_ge w _ (by omega)
  · intro h i hw
    by_cases hfield : lo ≤ i ∧ i < lo + (hi + 1 - lo)
    · have hbit := h (i - lo) (by omega)
      rw [Nat.add_sub_cancel' hfield.1] at hbit
      simp [hbit]
    · simp only [BitVec.getLsbD_and, getLsbD_fieldMask hw, hfield, decide_false, Bool.and_false, BitVec.getLsbD_zero]

/-- 60_exceptions.md R203: the reserved fields of R83 together make the mask 0x60F8C0F0. -/
theorem reservedClear_iff (w : Word) : reservedClear w = true ↔ w &&& 0x60F8C0F0#32 = 0#32 := by
  have hmask : 0x60F8C0F0#32 = 0xF#32 <<< 4 ||| 0x3#32 <<< 14 ||| 0x1F#32 <<< 19 ||| 0x3#32 <<< 29 := by decide
  simp only [reservedClear, Bool.and_eq_true, beq_iff_eq, ← and_fieldMask_eq_zero_iff, hmask,
    BitVec.and_or_distrib_left, BitVec.or_eq_zero_iff]
  rfl

/-- A mask whose ones cover a field leaves the field as it is. -/
theorem extractLsb'_and_of_ones {v m : Word} {lo len : Nat} (h : m.extractLsb' lo len = BitVec.allOnes len) :
    (v &&& m).extractLsb' lo len = v.extractLsb' lo len := by
  rw [BitVec.extractLsb'_and, h, BitVec.and_allOnes]

/-- The low bits of a word, read back as a word, are the word under the mask of those bits. -/
theorem setWidth_extractLsb'_zero (v : Word) (k : Nat) :
    (v.extractLsb' 0 k).setWidth 32 = v &&& BitVec.ofNat 32 (2 ^ k - 1) := by
  refine BitVec.eq_of_getLsbD_eq fun i hi => ?_
  simp only [BitVec.getLsbD_setWidth, BitVec.getLsbD_extractLsb', BitVec.getLsbD_and, BitVec.getLsbD_ofNat,
    Nat.testBit_two_pow_sub_one, hi, decide_true, Bool.true_and, zero_add, Bool.and_comm]

/-! ## The command a word decodes to -/

theorem opcode_le_eight (i : Instr) : i.opcode ≤ 8 := by cases i <;> simp [Instr.opcode]

theorem opcodeInstr_eq_some_iff {op : Nat} {o : Operands} {i : Instr} :
    opcodeInstr op o = some i ↔ i.opcode = op ∧ i.operands = o := by
  constructor
  · unfold opcodeInstr
    split <;> rintro ⟨⟩ <;> exact ⟨rfl, rfl⟩
  · rintro ⟨rfl, rfl⟩
    cases i <;> rfl

theorem exists_opcodeInstr_iff (op : Nat) (o : Operands) : (∃ i, opcodeInstr op o = some i) ↔ op ≤ 8 := by
  constructor
  · rintro ⟨i, hi⟩
    exact (opcodeInstr_eq_some_iff.mp hi).1 ▸ opcode_le_eight i
  · intro hop
    interval_cases op <;> exact ⟨_, rfl⟩

/-- 30_encoding.md R80 to R85: what the decoder reads from a word. -/
theorem decodeWord_eq_ok_iff {w : Word} {i : Instr} :
    decodeWord w = .ok i ↔ reservedClear w = true ∧ opcodeInstr (bits w 3 0) (wordOperands w) = some i := by
  unfold decodeWord
  cases reservedClear w
  · simp
  · cases opcodeInstr (bits w 3 0) (wordOperands w) <;> simp

/-- 30_encoding.md R83, R85: the words that are commands are those the mask form of R203 does not reject. -/
theorem exists_decodeWord_iff (w : Word) : (∃ i, decodeWord w = .ok i) ↔ ¬ illegalWord w := by
  simp only [decodeWord_eq_ok_iff, exists_and_left, exists_opcodeInstr_iff, reservedClear_iff, bits_eq_extractLsb']
  simp

theorem opcode_of_decodeWord {w : Word} {i : Instr} (h : decodeWord w = .ok i) :
    i.opcode = (w.extractLsb' 0 4).toNat := by
  rw [(opcodeInstr_eq_some_iff.mp (decodeWord_eq_ok_iff.mp h).2).1, bits_eq_extractLsb']

theorem operands_of_decodeWord {w : Word} {i : Instr} (h : decodeWord w = .ok i) : i.operands = wordOperands w :=
  (opcodeInstr_eq_some_iff.mp (decodeWord_eq_ok_iff.mp h).2).2

theorem wordOperands_load (w : Word) : (wordOperands w).load = w.getLsbD 31 := by
  simp only [wordOperands, bits, BitVec.getLsbD, Nat.testBit_eq_decide_div_mod_eq]
  rfl

theorem ofNat_wordOperands_v (w : Word) : BitVec.ofNat 6 (wordOperands w).v = w.extractLsb' 8 6 := by
  simp only [wordOperands, bits_eq_extractLsb', BitVec.ofNat_toNat]
  exact BitVec.setWidth_eq _

/-- 60_exceptions.md R202: the version V' of a command is the one its word names. -/
theorem effectiveVersion_of_decodeWord {w : Word} {i : Instr} (h : decodeWord w = .ok i) (s : State) :
    effectiveVersion i.operands s = wordVersion w s := by
  simp only [effectiveVersion, operands_of_decodeWord h, wordOperands_load, ofNat_wordOperands_v]

/-! ## The check of the version -/

/-- 60_exceptions.md R202: the commands that need a version are those with OP 3 to 7. -/
theorem needsVersion_iff (i : Instr) : needsVersion i = true ↔ 3 ≤ i.opcode ∧ i.opcode ≤ 7 := by
  cases i <;> simp [needsVersion, Instr.opcode]

theorem legalVersion_eq_false_iff (v : BitVec 6) : legalVersion v = false ↔ v.toNat < 1 ∨ 40 < v.toNat := by
  rw [legalVersion, ← Bool.decide_and, decide_eq_false_iff_not, Config.vMin, Config.vMax]
  omega

theorem operandError_eq_badVersion_iff (i : Instr) (s : State) :
    operandError i s = .badVersion ↔ needsVersion i = true ∧ legalVersion (effectiveVersion i.operands s) = false := by
  simp only [operandError]
  split
  case isTrue h => simpa using h
  case isFalse h =>
    rw [Bool.and_eq_true, Bool.not_eq_true'] at h
    split <;> simp [h]

theorem operandError_eq_badVersion_iff_word {w : Word} {i : Instr} (h : decodeWord w = .ok i) (s : State) :
    operandError i s = .badVersion ↔ badVersionWord w s := by
  rw [operandError_eq_badVersion_iff, needsVersion_iff, legalVersion_eq_false_iff, opcode_of_decodeWord h,
    effectiveVersion_of_decodeWord h, and_assoc]

/-- A command issued in IDLE with ERR = 0 ends in BAD_VERSION exactly when that is the error its operands earn. -/
theorem admission_raises_badVersion_iff {i : Instr} {s : State} (hs : Ready s) :
    ((admission i s).state.err = true ∧ (admission i s).state.errCode = .badVersion) ↔
      operandError i s = .badVersion := by
  obtain ⟨herr, hidle⟩ := hs
  have hbusy := (busy_eq_false_iff s).mpr hidle
  rcases admission_cases i s with ⟨h, -⟩ | ⟨-, h, -⟩ | ⟨-, -, -, h⟩ | ⟨-, -, ho, h⟩
  · simp [herr] at h
  · simp [hbusy] at h
  · simp [h, Admission.state, herr]
  · simp [h, Admission.state, startCommand, herr, ho]

/-- 60_exceptions.md R202, R205: the same of a CMD write, on the bits of a legal word. -/
theorem cmdWrite_raises_badVersion_iff {w : Word} {s : State} (hs : Ready s) (hw : ¬ illegalWord w) :
    ((cmdWrite w s).err = true ∧ (cmdWrite w s).errCode = .badVersion) ↔ badVersionWord w s := by
  obtain ⟨i, hi⟩ := (exists_decodeWord_iff w).mpr hw
  rw [cmdWrite_of_command hi, admission_raises_badVersion_iff hs, operandError_eq_badVersion_iff_word hi]

/-! ## Register writes -/

section RegisterWrites

variable {s : State} {v : Word}

@[simp] theorem writeRegister_status : writeRegister .status v s = storeStatus v s := rfl

theorem writeRegister_version :
    writeRegister .version v s = writeWhenIdle .version (storeVersion (v.extractLsb' 0 6)) s := rfl

theorem writeRegister_mask : writeRegister .mask v s = writeWhenIdle .mask (storeMask (v.extractLsb' 0 3)) s := rfl

theorem writeRegister_fmtId : writeRegister .fmtId v s = writeWhenIdle .fmtId (storeFmtId (v.extractLsb' 0 5)) s := rfl

theorem writeRegister_ctrl :
    writeRegister .ctrl v s = if v.getLsbD 31 then resetBlock s else writeWhenIdle .ctrl (storeCtrl v) s := rfl

/-- 10_state.md R28: a CTRL write with SRESET = 1 is a soft reset, in RUN as in IDLE. -/
theorem writeRegister_ctrl_of_sreset (h : v.getLsbD 31 = true) : writeRegister .ctrl v s = resetBlock s := if_pos h

theorem writeRegister_ctrl_of_no_sreset (h : v.getLsbD 31 = false) :
    writeRegister .ctrl v s = writeWhenIdle .ctrl (storeCtrl v) s := by rw [writeRegister_ctrl, h]; rfl

theorem writeWhenIdle_of_idle (h : s.seq = .idle) (r : Reg) (store : State → State) :
    writeWhenIdle r store s = store s := by simp [writeWhenIdle, (busy_eq_false_iff s).mpr h]

theorem writeWhenIdle_of_busy (h : s.busy = true) (r : Reg) (store : State → State) :
    writeWhenIdle r store s = raiseError .busyWrite (r.offset.setWidth 32) s := if_pos h

/-- 10_state.md R32: what a write of an operand register, or of CTRL without SRESET, does while BUSY = 1. -/
theorem writeRegister_of_busy (h : s.busy = true) {r : Reg} (hr : r ∈ [Reg.version, .mask, .fmtId, .ctrl])
    (hv : r = .ctrl → v.getLsbD 31 = false) :
    writeRegister r v s = raiseError .busyWrite (r.offset.setWidth 32) s := by
  simp only [List.mem_cons, List.not_mem_nil, or_false] at hr
  rcases hr with rfl | rfl | rfl | rfl
  · exact writeWhenIdle_of_busy h _ _
  · exact writeWhenIdle_of_busy h _ _
  · exact writeWhenIdle_of_busy h _ _
  · rw [writeRegister_ctrl_of_no_sreset (hv rfl), writeWhenIdle_of_busy h]

/-- A STATUS write depends on its bits 1 and 2 only (10_state.md R26). -/
theorem storeStatus_congr {v' : Word} (h1 : v.getLsbD 1 = v'.getLsbD 1) (h2 : v.getLsbD 2 = v'.getLsbD 2) :
    storeStatus v s = storeStatus v' s := by simp only [storeStatus, h1, h2]

/-- 10_state.md R28: a CTRL write depends on SRESET, RULE3_MODE and IRQ_EN only. -/
theorem writeRegister_ctrl_congr {v' : Word} (hsreset : v.getLsbD 31 = v'.getLsbD 31)
    (hmode : v.extractLsb' 1 2 = v'.extractLsb' 1 2) (hirq : v.getLsbD 0 = v'.getLsbD 0) :
    writeRegister .ctrl v s = writeRegister .ctrl v' s := by
  have hstore : storeCtrl v = storeCtrl v' := by funext t; simp only [storeCtrl, hmode, hirq]
  rw [writeRegister_ctrl, writeRegister_ctrl, hsreset, hstore]

/-- 10_state.md R23: a write of a read-only register is ignored. -/
theorem writeRegister_readOnly :
    ∀ r ∈ [Reg.id, .fmtWord, .verWord, .penTotal, .penR1, .penR2, .penR3, .penR4, .darkCount, .bestPenalty, .bestMask,
      .size, .errInfo], writeRegister r v s = s := by
  simp [writeRegister]

end RegisterWrites

/-! ## Register reads -/

theorem toNat_append_eq_add {m n : Nat} (x : BitVec m) (y : BitVec n) :
    (x ++ y).toNat = x.toNat * 2 ^ n + y.toNat := by
  rw [BitVec.toNat_append, ← Nat.shiftLeft_add_eq_or_of_lt y.isLt, Nat.shiftLeft_eq]

theorem toNat_flagBit (b : Bool) : (flagBit b).toNat = if b then 1 else 0 := by cases b <;> rfl

theorem toNat_rule3Mode (m : Rule3Mode) : m.toBits.toNat = if m = .patterns then 1 else 0 := by cases m <;> rfl

/-- 10_state.md R26: the places of the STATUS bits. -/
theorem toNat_statusWord (s : State) :
    (statusWord s).toNat =
      (if s.busy then 1 else 0) + (if s.done then 2 else 0) + (if s.err then 4 else 0) +
        16 * s.errCode.toBits.toNat + (if s.verValid then 256 else 0) + (if s.bestValid then 512 else 0) := by
  simp only [statusWord, toNat_append_eq_add, toNat_flagBit, BitVec.ofNat_eq_ofNat, BitVec.toNat_ofNat]
  split_ifs <;> omega

/-- 10_state.md R28: the places of the CTRL bits. -/
theorem toNat_ctrlWord (s : State) :
    (ctrlWord s).toNat = (if s.irqEn then 1 else 0) + 2 * (if s.rule3Mode = .patterns then 1 else 0) := by
  simp only [ctrlWord, toNat_append_eq_add, toNat_flagBit, toNat_rule3Mode, BitVec.ofNat_eq_ofNat, BitVec.toNat_ofNat]
  omega

/-- 10_state.md R34: no version makes SIZE overflow its 9 bits. -/
theorem toNat_sizeView (s : State) : (sizeView s).toNat = 4 * s.version.toNat + 17 := by
  have := s.version.isLt
  rw [sizeView, BitVec.toNat_ofNat, sideOf]
  omega

/-- 10_state.md R23: what a register reads fits its used width. -/
theorem readRegister_lt (s : State) (r : Reg) : (readRegister s r).toNat < 2 ^ usedWidth r := by
  have hwidth {n : Nat} (hn : n ≤ 32) (x : BitVec n) : (x.setWidth 32 : Word).toNat < 2 ^ n := by
    rw [BitVec.toNat_setWidth_of_le hn]; exact x.isLt
  cases r
  case cmd => exact Nat.one_pos
  case status =>
    have := s.errCode.toBits.isLt
    rw [readRegister, toNat_statusWord, usedWidth]
    split_ifs <;> omega
  case ctrl =>
    rw [readRegister, toNat_ctrlWord, usedWidth]
    split_ifs <;> decide
  case version | mask | fmtId | fmtWord | verWord | darkCount | bestMask | size => exact hwidth (by decide) _
  all_goals exact BitVec.isLt _

/-- 10_state.md R23: every bit at or above the used width reads 0. -/
theorem getLsbD_readRegister_of_usedWidth_le {s : State} {r : Reg} {i : Nat} (h : usedWidth r ≤ i) :
    (readRegister s r).getLsbD i = false :=
  Nat.testBit_lt_two_pow ((readRegister_lt s r).trans_le (Nat.pow_le_pow_right (by decide) h))

/-! ## The statements -/

/-- Settles O16: in IDLE each of the three writes is its store, and a CMD write after it is checked on the word's own
bits. -/
theorem operandRegistersStoreTheirBits : Obligations.OperandRegistersStoreTheirBits := by
  intro s v hidle
  have hversion : writeRegister .version v s = storeVersion (v.extractLsb' 0 6) s := writeWhenIdle_of_idle hidle _ _
  have hmask : writeRegister .mask v s = storeMask (v.extractLsb' 0 3) s := writeWhenIdle_of_idle hidle _ _
  have hfmtId : writeRegister .fmtId v s = storeFmtId (v.extractLsb' 0 5) s := writeWhenIdle_of_idle hidle _ _
  refine ⟨hversion, ?_, ?_, ?_, hmask, ?_, hfmtId, ?_⟩
  · rw [hversion]; exact setWidth_extractLsb'_zero v 6
  · intro o hload hwf
    simp only [Operands.wf, Bool.and_eq_true, decide_eq_true_eq] at hwf
    simp only [loadOperands_version, loadOperands_verValid, hload, if_true, BitVec.toNat_ofNat, and_true]
    omega
  · intro herr w hw
    rw [hversion]
    exact cmdWrite_raises_badVersion_iff ⟨herr, hidle⟩ hw
  · rw [hmask]; exact setWidth_extractLsb'_zero v 3
  · rw [hfmtId]; exact setWidth_extractLsb'_zero v 5

/-- Settles O12: each of the four writes raises BUSY_WRITE, which sets the error fields or is dropped. -/
theorem operandWritesWhileBusyAreIgnored : Obligations.OperandWritesWhileBusyAreIgnored := by
  intro s v hbusy
  have hversion := writeRegister_of_busy (v := v) hbusy (r := .version) (by decide) nofun
  have hmask := writeRegister_of_busy (v := v) hbusy (r := .mask) (by decide) nofun
  have hfmtId := writeRegister_of_busy (v := v) hbusy (r := .fmtId) (by decide) nofun
  have hctrl (hv : v.getLsbD 31 = false) := writeRegister_of_busy hbusy (r := .ctrl) (by decide) fun _ => hv
  refine ⟨fun herr => ?_, fun herr => ?_, writeRegister_ctrl_of_sreset, writeRegister_status⟩
  · have hraise := raiseError_of_no_err herr .busyWrite
    exact ⟨hversion.trans (hraise _), hmask.trans (hraise _), hfmtId.trans (hraise _),
      fun hv => (hctrl hv).trans (hraise _)⟩
  · have hdrop := raiseError_of_err herr .busyWrite
    exact ⟨hversion.trans (hdrop _), hmask.trans (hdrop _), hfmtId.trans (hdrop _),
      fun hv => (hctrl hv).trans (hdrop _)⟩

/-- Settles O15: reads by the width of each register, writes by the bits each store looks at. -/
theorem usedBitsReadInPlaceAndOthersAreInert : Obligations.UsedBitsReadInPlaceAndOthersAreInert := by
  intro s v
  have hsize : (readRegister s .size).toNat = 4 * s.version.toNat + 17 :=
    (BitVec.toNat_setWidth_of_le (by decide)).trans (toNat_sizeView s)
  refine ⟨fun r i => getLsbD_readRegister_of_usedWidth_le, toNat_statusWord s, toNat_ctrlWord s, ?_, ?_,
    writeRegister_readOnly, ?_, ?_, ?_, ?_, ?_⟩
  · refine ⟨?_, ?_, ?_, ?_, ?_, ?_, ?_⟩ <;> exact BitVec.toNat_setWidth_of_le (by decide)
  · exact ⟨rfl, rfl, rfl, rfl, rfl, rfl, rfl, rfl, hsize, rfl⟩
  · rw [writeRegister_version, writeRegister_version, extractLsb'_and_of_ones (by decide)]
  · rw [writeRegister_mask, writeRegister_mask, extractLsb'_and_of_ones (by decide)]
  · rw [writeRegister_fmtId, writeRegister_fmtId, extractLsb'_and_of_ones (by decide)]
  · exact writeRegister_ctrl_congr (by simp) (extractLsb'_and_of_ones (by decide)).symm (by simp)
  · exact storeStatus_congr (by simp) (by simp)

end Sys2Proof.Machine
end

section
/-! PROOF. A CMD write in IDLE on the bits of its word: the operand load of a legal word, the errors its operands earn,
the two things the write can do, and with them the statements about illegal words and about the operand load. -/

namespace Sys2Proof.Machine

open Sys2Proof.Spec

/-! ## The operand load of a word -/

theorem ofNat_bits (w : Word) (hi lo : Nat) :
    BitVec.ofNat (hi + 1 - lo) (bits w hi lo) = w.extractLsb' lo (hi + 1 - lo) := by
  rw [bits_eq_extractLsb', BitVec.ofNat_toNat, BitVec.setWidth_eq]

theorem ofNat_wordOperands_m (w : Word) : BitVec.ofNat 3 (wordOperands w).m = w.extractLsb' 16 3 := ofNat_bits w 18 16

theorem ofNat_wordOperands_f (w : Word) : BitVec.ofNat 5 (wordOperands w).f = w.extractLsb' 24 5 := ofNat_bits w 28 24

/-- 30_encoding.md R82: a command loads the fields of its word. -/
theorem loadOperands_of_decodeWord {w : Word} {i : Instr} (h : decodeWord w = .ok i) (s : State) :
    loadOperands i.operands s = loadedBy w s := by
  rw [loadOperands, operands_of_decodeWord h, wordOperands_load, ofNat_wordOperands_v, ofNat_wordOperands_m,
    ofNat_wordOperands_f]
  rfl

theorem loadedBy_version (w : Word) (s : State) : (loadedBy w s).version = wordVersion w s := by
  unfold loadedBy wordVersion; split <;> rfl

theorem loadedBy_mask (w : Word) (s : State) :
    (loadedBy w s).mask = if w.getLsbD 31 then w.extractLsb' 16 3 else s.mask := by
  unfold loadedBy; split <;> rfl

theorem loadedBy_fmtId (w : Word) (s : State) :
    (loadedBy w s).fmtId = if w.getLsbD 31 then w.extractLsb' 24 5 else s.fmtId := by
  unfold loadedBy; split <;> rfl

theorem loadedBy_verValid (w : Word) (s : State) :
    (loadedBy w s).verValid = if w.getLsbD 31 then false else s.verValid := by
  unfold loadedBy; split <;> rfl

/-! ## The errors the operands earn -/

/-- 60_exceptions.md R204: the command that needs a version word is the one with OP 5. -/
theorem needsVersionWord_iff (i : Instr) : needsVersionWord i = true ↔ i.opcode = 5 := by
  cases i <;> simp [needsVersionWord, Instr.opcode]

/-- 60_exceptions.md R205, steps 5 and 6: the operands are in order when neither check fails. -/
theorem operandError_eq_none_iff (i : Instr) (s : State) :
    operandError i s = .none ↔
      ¬ (needsVersion i = true ∧ legalVersion (effectiveVersion i.operands s) = false) ∧
      ¬ (needsVersionWord i = true ∧ hasVersionWord (effectiveVersion i.operands s) = true ∧
        effectiveVerValid i.operands s = false) := by
  simp only [operandError, ← Bool.not_eq_true', ← Bool.and_eq_true, ← Bool.and_assoc]
  split
  case isTrue h => simp [h]
  case isFalse h => split <;> simp [*]

/-- 60_exceptions.md R202, R204: the same on the bits of the word. -/
theorem operandError_eq_none_iff_word {w : Word} {i : Instr} (h : decodeWord w = .ok i) (s : State) :
    operandError i s = .none ↔ ¬ badVersionWord w s ∧ ¬ noVersionWord w s := by
  rw [operandError_eq_none_iff, needsVersion_iff, legalVersion_eq_false_iff, needsVersionWord_iff, hasVersionWord,
    decide_eq_true_iff, opcode_of_decodeWord h, effectiveVersion_of_decodeWord h, effectiveVerValid_eq,
    loadOperands_of_decodeWord h, loadedBy_verValid, and_assoc]

/-! ## CMD writes in IDLE -/

theorem rejectIllegal_of_idle {s : State} (h : s.seq = .idle) (w : Word) :
    rejectIllegal w s = raiseError .illegalCmd w s := by simp [rejectIllegal, (busy_eq_false_iff s).mpr h]

/-- 60_exceptions.md R207: while ERR = 1 a CMD write is dropped. -/
theorem cmdWrite_of_err {s : State} (herr : s.err = true) (w : Word) : cmdWrite w s = s := by
  cases h : decodeWord w with
  | ok i => rw [cmdWrite_of_command h, admission, if_pos herr, Admission.state]
  | error e => rw [cmdWrite_of_illegal h, rejectIllegal, raiseError_of_err herr, raiseError_of_err herr, ite_self]

/-- 60_exceptions.md R203: a CMD write of a word that is no command. -/
theorem cmdWrite_of_illegalWord {w : Word} {s : State} (hidle : s.seq = .idle) (hw : illegalWord w) :
    cmdWrite w s = raiseError .illegalCmd w s := by
  cases h : decodeWord w with
  | ok i => exact absurd hw ((exists_decodeWord_iff w).mp ⟨i, h⟩)
  | error e => rw [cmdWrite_of_illegal h, rejectIllegal_of_idle hidle]

/-- 60_exceptions.md R205: a CMD write of a legal word, in IDLE with ERR = 0. -/
theorem cmdWrite_of_ready {w : Word} {i : Instr} {s : State} (h : decodeWord w = .ok i) (hs : Ready s) :
    (operandError i s ≠ .none ∧ cmdWrite w s = raiseError (operandError i s) (encode i) s) ∨
    (operandError i s = .none ∧ cmdWrite w s = startCommand (latch i (loadedBy w s)) (loadedBy w s)) := by
  obtain ⟨herr, hidle⟩ := hs
  rw [cmdWrite_of_command h, ← loadOperands_of_decodeWord h]
  rcases admission_cases i s with ⟨h1, -⟩ | ⟨-, h2, -⟩ | ⟨-, -, ho, ha⟩ | ⟨-, -, ho, ha⟩
  · simp [herr] at h1
  · simp [(busy_eq_false_iff s).mpr hidle] at h2
  · exact .inl ⟨ho, by rw [ha]; rfl⟩
  · exact .inr ⟨ho, by rw [ha]; rfl⟩

/-- Everything a CMD write can do in IDLE: raise an error (dropped while ERR = 1), or load the operands of its word and
start its command with them. -/
theorem cmdWrite_cases_of_idle (w : Word) {s : State} (hidle : s.seq = .idle) :
    (∃ code info, cmdWrite w s = raiseError code info s) ∨
    (∃ i, cmdWrite w s = startCommand (latch i (loadedBy w s)) (loadedBy w s)) := by
  cases h : decodeWord w with
  | error e => exact .inl ⟨_, _, by rw [cmdWrite_of_illegal h, rejectIllegal_of_idle hidle]⟩
  | ok i =>
    cases herr : s.err with
    | false =>
      rcases cmdWrite_of_ready h ⟨herr, hidle⟩ with ⟨-, hc⟩ | ⟨-, hc⟩
      · exact .inl ⟨_, _, hc⟩
      · exact .inr ⟨i, hc⟩
    | true => exact .inl ⟨.none, 0, (cmdWrite_of_err herr w).trans (raiseError_of_err herr _ _).symm⟩

@[simp] theorem raiseError_busy (code : ErrorCode) (info : Word) (s : State) :
    (raiseError code info s).busy = s.busy := by simp [State.busy]

@[simp] theorem startCommand_busy (l : Latched) (s : State) : (startCommand l s).busy = true := rfl

/-- 30_encoding.md R82: a legal word is accepted exactly when the checks pass. -/
theorem busy_cmdWrite_iff {w : Word} {s : State} (hs : Ready s) (hw : ¬ illegalWord w) :
    (cmdWrite w s).busy = true ↔ ¬ badVersionWord w s ∧ ¬ noVersionWord w s := by
  obtain ⟨i, hi⟩ := (exists_decodeWord_iff w).mpr hw
  rw [← operandError_eq_none_iff_word hi]
  rcases cmdWrite_of_ready hi hs with ⟨ho, hc⟩ | ⟨ho, hc⟩
  · simp [hc, ho, (busy_eq_false_iff s).mpr hs.2]
  · simp [hc, ho]

/-! ## The statements -/

/-- Settles O4: the decoder's domain is the mask form's, and outside it the write raises ILLEGAL_CMD. -/
theorem illegalWordsRaiseIllegalCmd : Obligations.IllegalWordsRaiseIllegalCmd := by
  intro w
  refine ⟨exists_decodeWord_iff w, fun s hs hw => ?_⟩
  obtain ⟨herr, hidle⟩ := hs
  rw [cmdWrite_of_illegalWord hidle hw, raiseError_of_no_err herr]

/-- Settles O8: a write in IDLE either raises an error, which keeps the four, or starts the command with the loaded
values latched; which of the two, the checks on the word's bits say. -/
theorem operandLoadHappensExactlyOnAcceptance : Obligations.OperandLoadHappensExactlyOnAcceptance := by
  intro w s hidle
  have hfree := (busy_eq_false_iff s).mpr hidle
  refine ⟨fun hbusy => ?_, fun hbusy => ?_, fun herr hw => ?_⟩
  · rcases cmdWrite_cases_of_idle w hidle with ⟨code, info, hc⟩ | ⟨i, hc⟩
    · simp [hc, hfree] at hbusy
    · rw [hc]
      refine ⟨loadedBy_version w s, loadedBy_mask w s, loadedBy_fmtId w s, loadedBy_verValid w s, ?_⟩
      rintro l ⟨⟩
      exact ⟨rfl, rfl, rfl⟩
  · rcases cmdWrite_cases_of_idle w hidle with ⟨code, info, hc⟩ | ⟨i, hc⟩
    · simp [hc]
    · simp [hc] at hbusy
  · rw [loadedBy_version, loadedBy_verValid]
    exact busy_cmdWrite_iff ⟨herr, hidle⟩ hw

end Sys2Proof.Machine
end

section
/-! PROOF. The commands of the format/version encoder: what a command that does not scan leaves when it is accepted, the
error it raises when it is not, the words FCALC, FCALCM and VCALC compute, and with them the statements about these
three. -/

namespace Sys2Proof.Machine

open Sys2Proof.Spec

/-! ## The operand load -/

theorem loadOperands_eq_loaded (o : Operands) (s : State) : loadOperands o s = loaded o s := rfl

theorem loaded_mem (o : Operands) (s : State) : (loaded o s).mem = s.mem := loadOperands_mem s o

theorem loaded_params (o : Operands) (s : State) : (loaded o s).params = s.params := loadOperands_params s o

theorem loaded_fmtWord (o : Operands) (s : State) : (loaded o s).fmtWord = s.fmtWord := loadOperands_fmtWord s o

theorem loaded_verWord (o : Operands) (s : State) : (loaded o s).verWord = s.verWord := loadOperands_verWord s o

theorem loaded_seq (o : Operands) (s : State) : (loaded o s).seq = s.seq := loadOperands_seq s o

/-! ## Accepted and rejected commands -/

/-- 60_exceptions.md R202: a command that needs no version has its operands in order. -/
theorem operandError_of_no_version {i : Instr} (hi : needsVersion i = false) (s : State) :
    operandError i s = .none := by
  rw [operandError_eq_none_iff, needsVersionWord_iff, hi]
  refine ⟨by simp, fun h => ?_⟩
  have := (needsVersion_iff i).mpr (by omega)
  simp [hi] at this

/-- 60_exceptions.md R202, R204: a version 1 to 40 is in order for a command that does not ask for a version word, and
for one that does when VER_VALID stands or the version has no word. -/
theorem operandError_of_legal_version {i : Instr} {s : State} (h1 : 1 ≤ (loaded i.operands s).version.toNat)
    (h40 : (loaded i.operands s).version.toNat ≤ 40)
    (hword : needsVersionWord i = true → 7 ≤ (loaded i.operands s).version.toNat →
      (loaded i.operands s).verValid = true) : operandError i s = .none := by
  rw [operandError_eq_none_iff, legalVersion_eq_false_iff, effectiveVersion_eq, effectiveVerValid_eq,
    loadOperands_eq_loaded, hasVersionWord, decide_eq_true_iff]
  refine ⟨by omega, fun ⟨hi, h7, hvalid⟩ => ?_⟩
  simp [hword hi h7] at hvalid

/-- 10_state.md R40: between acceptance and completion a command other than SCORE leaves nothing but its effect. -/
theorem finish_effectOf_startCommand {l : Latched} {t : State} (hidle : t.seq = .idle) (hscan : readsMatrix l = false) :
    finish (effectOf l (writeFmtId l (startCommand l t))) = { effectOf l (writeFmtId l t) with done := true } := by
  obtain ⟨command, version, mask, fmtId, mode⟩ := l
  cases t
  cases hidle
  cases command
  case score => cases hscan
  all_goals rfl

/-- 10_state.md R40: what an accepted command other than SCORE leaves. -/
theorem exec_of_ready {i : Instr} {s t : State} (hs : Ready s) (ht : loaded i.operands s = t)
    (hi : operandError i s = .none) (hscan : readsMatrix (latch i t) = false) :
    exec i s = .next { effectOf (latch i t) (writeFmtId (latch i t) t) with done := true } := by
  subst ht
  obtain ⟨herr, hidle⟩ := hs
  rw [exec_eq_issue, issue_of_ready _ herr hidle hi, loadOperands_eq_loaded,
    finish_effectOf_startCommand ((loaded_seq _ _).trans hidle) hscan]

/-- 60_exceptions.md R206: a command whose operands are not in order raises their error and does nothing else. -/
theorem exec_of_operandError {i : Instr} {s : State} {code : ErrorCode} (hs : Ready s)
    (hi : operandError i s = code) (hcode : code ≠ .none) : exec i s = .next (withError code (encode i) s) := by
  subst hi
  obtain ⟨herr, hidle⟩ := hs
  rcases exec_cases i s with ⟨h, -⟩ | ⟨-, h, -⟩ | ⟨-, -, -, h⟩ | ⟨-, -, h, -⟩
  · simp [herr] at h
  · simp [(busy_eq_false_iff s).mpr hidle] at h
  · rw [h, raiseError_of_no_err herr]
  · exact absurd h hcode

/-- 60_exceptions.md R202: a command that needs a version raises BAD_VERSION outside 1 to 40. -/
theorem exec_of_bad_version {i : Instr} {s : State} (hs : Ready s) (hi : needsVersion i = true)
    (hv : (loaded i.operands s).version.toNat < 1 ∨ 40 < (loaded i.operands s).version.toNat) :
    exec i s = .next (withError .badVersion (encode i) s) := by
  refine exec_of_operandError hs ((operandError_eq_badVersion_iff i s).mpr ⟨hi, ?_⟩) nofun
  rw [legalVersion_eq_false_iff, effectiveVersion_eq]
  exact hv

/-! ## The words -/

/-- 40_format_version.md R100: with the error-correction level 01 the format id of a mask is 8 + mask. -/
theorem formatId_ecl (mask : BitVec 3) : formatId Config.ecl mask = BitVec.ofNat 5 (8 + mask.toNat) := by
  have := mask.isLt
  refine BitVec.eq_of_toNat_eq ?_
  rw [formatId, toNat_append_eq_add, BitVec.toNat_ofNat]
  show 1 * 2 ^ 3 + mask.toNat = _
  omega

/-- 40_format_version.md R103: dividing 0 leaves the remainder 0, whatever the generator. -/
theorem formatStep_zero (g : BitVec 11) (i : Nat) : formatStep g 0#15 i = 0#15 := by simp [formatStep]

/-- 40_format_version.md R104: the word of format id 0 is the XOR mask, whatever the generator. -/
theorem formatWord_zero (g : BitVec 11) : formatWord g 0 = 0x5412 := by
  have hr : formatRemainder g 0 = 0 := by simp [formatRemainder, formatStep_zero]
  rw [formatWord, hr]
  rfl

/-- 40_format_version.md R121: the format words of masks 0 to 7 under the default generator. -/
theorem getElem?_maskWords (mask : BitVec 3) :
    [0x77C4#15, 0x72F3, 0x7DAA, 0x789D, 0x662F, 0x6318, 0x6C41, 0x6976][mask.toNat]? =
      some (formatWord 0x537 (BitVec.ofNat 5 (8 + mask.toNat))) := by
  revert mask
  decide

/-- 40_format_version.md R109: the versions from 7 on have a version word. -/
theorem versionEntry_eq (v : BitVec 6) : versionEntry v = if 7 ≤ v.toNat then versionWord v else 0 := by
  simp [versionEntry, hasVersionWord]

/-! ## What the three commands leave -/

theorem exec_fcalc {o : Operands} {s : State} (hs : Ready s) :
    exec (.fcalc o) s =
      .next { loaded o s with fmtWord := formatWord s.params.g15 (loaded o s).fmtId, done := true } := by
  rw [exec_of_ready hs rfl (operandError_of_no_version rfl s) rfl, ← loaded_params o s]
  rfl

theorem exec_fcalcm {o : Operands} {s : State} (hs : Ready s) :
    exec (.fcalcm o) s = .next
      { loaded o s with
        fmtId := BitVec.ofNat 5 (8 + (loaded o s).mask.toNat)
        fmtWord := formatWord s.params.g15 (BitVec.ofNat 5 (8 + (loaded o s).mask.toNat))
        done := true } := by
  rw [exec_of_ready hs rfl (operandError_of_no_version rfl s) rfl, ← loaded_params o s, ← formatId_ecl]
  rfl

theorem exec_vcalc {o : Operands} {s : State} (hs : Ready s) (h1 : 1 ≤ (loaded o s).version.toNat)
    (h40 : (loaded o s).version.toNat ≤ 40) :
    exec (.vcalc o) s = .next
      { loaded o s with
        verWord := if 7 ≤ (loaded o s).version.toNat then versionWord (loaded o s).version else 0
        verValid := decide (7 ≤ (loaded o s).version.toNat)
        done := true } := by
  rw [exec_of_ready (i := .vcalc o) hs rfl (operandError_of_legal_version h1 h40 nofun) rfl, ← versionEntry_eq]
  rfl

/-! ## The statements -/

/-- Settles O23: an accepted FCALC leaves its effect on the loaded state; the values are the table's. -/
theorem fcalcCompletes : Obligations.FcalcCompletes := by
  refine ⟨by decide, fun o s hs => ⟨exec_fcalc hs, fun hf => ⟨_, exec_fcalc hs, ?_⟩, ?_⟩⟩
  · show formatWord _ (loaded o s).fmtId = _
    rw [hf, formatWord_zero]
  · rintro rfl hg
    refine ⟨_, exec_fcalc hs, rfl, ?_⟩
    show formatWord s.params.g15 15 = _
    rw [hg]
    decide

/-- Settles O24: an accepted FCALCM leaves its effect on the loaded state; the values are the entries 8 to 15. -/
theorem fcalcmCompletes : Obligations.FcalcmCompletes := by
  refine ⟨by decide, fun o s hs => ⟨exec_fcalcm hs, fun hg => ⟨_, exec_fcalcm hs, ?_⟩, ?_⟩⟩
  · rw [hg, getElem?_maskWords]
  · rintro rfl hg
    refine ⟨_, exec_fcalcm hs, rfl, rfl, ?_⟩
    show formatWord s.params.g15 11 = _
    rw [hg]
    decide

/-- Settles O25: an accepted VCALC leaves its effect on the loaded state; the two values are table entries. -/
theorem vcalcCompletes : Obligations.VcalcCompletes := by
  refine ⟨by decide, fun o s hs => ⟨exec_vcalc hs, exec_of_bad_version (i := .vcalc o) hs rfl, fun hv => ?_, ?_⟩⟩
  · refine ⟨_, exec_vcalc hs (hv ▸ by decide) (hv ▸ by decide), ?_⟩
    simp only [hv]
    decide
  · rintro rfl
    exact ⟨_, exec_vcalc hs (by decide : 1 ≤ 7) (by decide : 7 ≤ 40), (by decide : versionWord 7 = 0x07C94), rfl⟩

end Sys2Proof.Machine
end

section
/-! PROOF. The cells of the code words: where the bits go, the cell writes of a word written in two copies, that they go
to different cells inside the matrix, and with them the statement about the places of the bits. -/

namespace Sys2Proof.Machine

/-! ## Where the bits go -/

theorem copyA_of_nine_le {i : Nat} (h : 9 ≤ i) : copyA i = (8, 14 - i) := by
  rw [copyA, if_neg (by omega), if_neg (by omega), if_neg (by omega), if_neg (by omega)]

theorem copyB_of_le_seven {i : Nat} (h : i ≤ 7) (n : Nat) : copyB n i = (8, n - 1 - i) := if_pos h

theorem copyB_of_eight_le {i : Nat} (h : 8 ≤ i) (n : Nat) : copyB n i = (n - 15 + i, 8) := if_neg (by omega)

/-- 40_format_version.md R111: copy B runs along row 8 at the right edge and down column 8 at the bottom edge. -/
theorem copyB_cases {n i : Nat} (hn : 21 ≤ n) (hi : i < 15) :
    (i ≤ 7 ∧ (copyB n i).1 = 8 ∧ (copyB n i).2 + 1 + i = n) ∨
    (8 ≤ i ∧ (copyB n i).1 + 15 = n + i ∧ (copyB n i).2 = 8) := by
  by_cases h : i ≤ 7
  · rw [copyB_of_le_seven h]; dsimp only; omega
  · rw [copyB_of_eight_le (by omega)]; dsimp only; omega

/-- 40_format_version.md R110: copy A stands in the corner of the first finder pattern, in row 8 and column 8. -/
theorem copyA_le_eight : ∀ i < 15, (copyA i).1 ≤ 8 ∧ (copyA i).2 ≤ 8 := by decide

theorem copyA_injective : ∀ i < 15, ∀ j < 15, copyA i = copyA j → i = j := by decide

theorem copyB_injective {n : Nat} (hn : 21 ≤ n) : ∀ i < 15, ∀ j < 15, copyB n i = copyB n j → i = j := by
  intro i hi j hj h
  have hBi := copyB_cases hn hi
  have hBj := copyB_cases hn hj
  rw [← h] at hBj
  omega

/-- 40_format_version.md R116: the two copies of the format word have no cell in common. -/
theorem copyA_ne_copyB {n : Nat} (hn : 21 ≤ n) : ∀ i < 15, ∀ j < 15, copyA i ≠ copyB n j := by
  intro i hi j hj h
  have hA := copyA_le_eight i hi
  have hB := copyB_cases hn hj
  rw [← h] at hB
  omega

theorem blockTR_injective (n : Nat) : ∀ i < 18, ∀ j < 18, blockTR n i = blockTR n j → i = j := by
  intro i _ j _ h
  simp only [blockTR, Prod.mk.injEq] at h
  omega

theorem blockBL_injective (n : Nat) : ∀ i < 18, ∀ j < 18, blockBL n i = blockBL n j → i = j :=
  fun i hi j hj h => blockTR_injective n i hi j hj (congrArg Prod.swap h)

theorem blockTR_ne_blockBL {n : Nat} (hn : 45 ≤ n) : ∀ i < 18, ∀ j < 18, blockTR n i ≠ blockBL n j := by
  intro i hi j hj h
  simp only [blockTR, blockBL, Prod.mk.injEq] at h
  omega

/-- Settles O37: the definitions' cases, and each block's three columns, or rows, from N - 11 on. -/
theorem bitPositionsAreTheSpecs : Obligations.BitPositionsAreTheSpecs := by
  refine ⟨fun i hi => if_pos hi, rfl, rfl, rfl, fun i h9 _ => copyA_of_nine_le h9,
    fun n i hi => copyB_of_le_seven hi n, fun n i h8 _ => copyB_of_eight_le h8 n, fun n i => rfl, fun n i => rfl,
    fun n i hi => ⟨?_, ?_, ?_, rfl⟩⟩ <;>
  · dsimp only [blockTR]
    omega

/-! ## A word written in two copies -/

/-- The cell writes of a word of `k` bits whose bit `i` goes to `f i` and to `g i`. -/
def twoCopies (k : Nat) (f g : Nat → Nat × Nat) (bit : Nat → Bool) : List CellWrite :=
  (List.range k).flatMap fun i => [bitWrite (f i) (bit i), bitWrite (g i) (bit i)]

theorem formatWrites_eq_twoCopies (n : Nat) (w : BitVec 15) :
    formatWrites n w = twoCopies 15 copyA (copyB n) w.getLsbD := rfl

theorem versionWrites_eq_twoCopies {v : BitVec 6} (h : 7 ≤ v.toNat) (w : BitVec 18) :
    versionWrites v w = twoCopies 18 (blockTR (sideOf v)) (blockBL (sideOf v)) w.getLsbD :=
  if_pos (decide_eq_true h)

theorem versionWrites_eq_nil {v : BitVec 6} (h : v.toNat < 7) (w : BitVec 18) : versionWrites v w = [] :=
  if_neg (by simpa [hasVersionWord] using h)

theorem twoCopies_subset_versionWrites {v : BitVec 6} (h : 7 ≤ v.toNat) (w : BitVec 18) :
    twoCopies 18 (blockTR (sideOf v)) (blockBL (sideOf v)) w.getLsbD ⊆ versionWrites v w := by
  rw [versionWrites_eq_twoCopies h]
  exact List.Subset.refl _

section TwoCopies

variable {k : Nat} {f g : Nat → Nat × Nat} {bit : Nat → Bool}

theorem mem_twoCopies {w : CellWrite} :
    w ∈ twoCopies k f g bit ↔ ∃ i < k, w = bitWrite (f i) (bit i) ∨ w = bitWrite (g i) (bit i) := by
  simp [twoCopies]

/-- What holds of every cell of both copies holds of every write. -/
theorem forall_mem_twoCopies {P : Nat × Nat → Prop} (h : ∀ i < k, P (f i) ∧ P (g i)) :
    ∀ w ∈ twoCopies k f g bit, P (w.row, w.col) := by
  intro w hw
  obtain ⟨i, hi, rfl | rfl⟩ := mem_twoCopies.mp hw
  · exact (h i hi).1
  · exact (h i hi).2

/-- Two copies that do not meet, each with one cell for each bit, go to different cells. -/
theorem nodup_twoCopies (hf : ∀ i < k, ∀ j < k, f i = f j → i = j) (hg : ∀ i < k, ∀ j < k, g i = g j → i = j)
    (hfg : ∀ i < k, ∀ j < k, f i ≠ g j) : ((twoCopies k f g bit).map fun w => (w.row, w.col)).Nodup := by
  have hmap : ((twoCopies k f g bit).map fun w => (w.row, w.col)) = (List.range k).flatMap fun i => [f i, g i] := by
    simp [twoCopies, List.map_flatMap, bitWrite]
  rw [hmap, List.nodup_flatMap]
  refine ⟨fun i hi => ?_, List.Pairwise.imp_of_mem ?_ List.nodup_range⟩
  · have := hfg i (List.mem_range.mp hi) i (List.mem_range.mp hi)
    simpa using this
  · intro i j hi hj hij
    rw [List.mem_range] at hi hj
    have hff : f j ≠ f i := fun h => hij (hf i hi j hj h.symm)
    have hgg : g j ≠ g i := fun h => hij (hg i hi j hj h.symm)
    simp [Function.onFun, hff, hgg, hfg j hj i hi, (hfg i hi j hj).symm]

/-- The frame of the writes. -/
theorem cellAddress_ne_of_mem_twoCopies {a : Nat}
    (h : ∀ i < k, a ≠ cellAddress (f i).1 (f i).2 ∧ a ≠ cellAddress (g i).1 (g i).2) :
    ∀ w ∈ twoCopies k f g bit, cellAddress w.row w.col ≠ a :=
  forall_mem_twoCopies (P := fun p => cellAddress p.1 p.2 ≠ a) fun i hi => ⟨(h i hi).1.symm, (h i hi).2.symm⟩

/-- Different cells inside the matrix have different addresses. -/
theorem nodup_cellAddress {ws : List CellWrite} (hlt : ∀ w ∈ ws, w.row < 256 ∧ w.col < 256)
    (hd : (ws.map fun w => (w.row, w.col)).Nodup) : (ws.map fun w => cellAddress w.row w.col).Nodup := by
  refine hd.of_map.map_on fun w hw w' hw' h => ?_
  obtain ⟨hrow, hcol⟩ := cellAddress_inj (hlt w hw).2 (hlt w' hw').2 h
  exact List.inj_on_of_nodup_map hd hw hw' (by rw [hrow, hcol])

/-- Among writes to different cells, the two copies read as written. -/
theorem matRead_writeCells_twoCopies {m : Memory} (hm : m.wf = true) {ws : List CellWrite}
    (hlt : ∀ w ∈ ws, w.row < 256 ∧ w.col < 256) (hd : (ws.map fun w => (w.row, w.col)).Nodup)
    (hsub : twoCopies k f g bit ⊆ ws) {i : Nat} (hi : i < k) :
    matRead (writeCells m ws) (f i).1 (f i).2 = { color := bit i, kind := .functional } ∧
      matRead (writeCells m ws) (g i).1 (g i).2 = { color := bit i, kind := .functional } := by
  have hread {w : CellWrite} (hw : w ∈ twoCopies k f g bit) :=
    writeCells_read_written hm hlt (nodup_cellAddress hlt hd) (hsub hw)
  exact ⟨hread (mem_twoCopies.mpr ⟨i, hi, .inl rfl⟩), hread (mem_twoCopies.mpr ⟨i, hi, .inr rfl⟩)⟩

end TwoCopies

/-! ## The writes of the two words -/

/-- What holds of every cell of the two version blocks holds of every write of a version word. -/
theorem forall_mem_versionWrites {v : BitVec 6} {w : BitVec 18} {P : Nat × Nat → Prop}
    (h : 7 ≤ v.toNat → ∀ i < 18, P (blockTR (sideOf v) i) ∧ P (blockBL (sideOf v) i)) :
    ∀ c ∈ versionWrites v w, P (c.row, c.col) := by
  by_cases h7 : 7 ≤ v.toNat
  · rw [versionWrites_eq_twoCopies h7]
    exact forall_mem_twoCopies (h h7)
  · simp [versionWrites_eq_nil (not_le.mp h7)]

theorem sideOf_bounds {v : BitVec 6} (h1 : 1 ≤ v.toNat) (h40 : v.toNat ≤ 40) : 21 ≤ sideOf v ∧ sideOf v ≤ 177 := by
  unfold sideOf; omega

theorem formatWrites_inside {n : Nat} (hn : 21 ≤ n) (w : BitVec 15) :
    ∀ c ∈ formatWrites n w, c.row < n ∧ c.col < n := by
  refine forall_mem_twoCopies (P := fun p => p.1 < n ∧ p.2 < n) fun i hi => ?_
  have hA := copyA_le_eight i hi
  have hB := copyB_cases hn hi
  omega

theorem versionWrites_inside (v : BitVec 6) (w : BitVec 18) :
    ∀ c ∈ versionWrites v w, c.row < sideOf v ∧ c.col < sideOf v := by
  refine forall_mem_versionWrites (P := fun p => p.1 < sideOf v ∧ p.2 < sideOf v) fun h7 i hi => ?_
  simp only [blockTR, blockBL, sideOf]
  omega

theorem formatWrites_nodup {n : Nat} (hn : 21 ≤ n) (w : BitVec 15) :
    ((formatWrites n w).map fun c => (c.row, c.col)).Nodup :=
  nodup_twoCopies copyA_injective (copyB_injective hn) (copyA_ne_copyB hn)

theorem versionWrites_nodup (v : BitVec 6) (w : BitVec 18) :
    ((versionWrites v w).map fun c => (c.row, c.col)).Nodup := by
  by_cases h7 : 7 ≤ v.toNat
  · rw [versionWrites_eq_twoCopies h7]
    exact nodup_twoCopies (blockTR_injective _) (blockBL_injective _) (blockTR_ne_blockBL (by unfold sideOf; omega))
  · simp [versionWrites_eq_nil (not_le.mp h7)]

/-- The format cells stay in the first 9 rows and columns but for copy B, which is in row 8 or column 8. -/
theorem formatWrites_near {n : Nat} (hn : 21 ≤ n) (w : BitVec 15) :
    ∀ c ∈ formatWrites n w, (c.row ≤ 8 ∧ c.col ≤ 8) ∨ c.row = 8 ∨ c.col = 8 := by
  refine forall_mem_twoCopies (P := fun p => (p.1 ≤ 8 ∧ p.2 ≤ 8) ∨ p.1 = 8 ∨ p.2 = 8) fun i hi => ?_
  have hA := copyA_le_eight i hi
  have hB := copyB_cases hn hi
  omega

/-- The version cells stand in the first 6 rows far to the right, or in the first 6 columns far down. -/
theorem versionWrites_far (v : BitVec 6) (w : BitVec 18) :
    ∀ c ∈ versionWrites v w, (c.row ≤ 5 ∧ 34 ≤ c.col) ∨ (34 ≤ c.row ∧ c.col ≤ 5) := by
  refine forall_mem_versionWrites (P := fun p => (p.1 ≤ 5 ∧ 34 ≤ p.2) ∨ (34 ≤ p.1 ∧ p.2 ≤ 5)) fun h7 i hi => ?_
  simp only [blockTR, blockBL, sideOf]
  omega

/-- 40_format_version.md R116: the cells of the two words are all different. -/
theorem formatWrites_append_versionWrites_nodup {n : Nat} (hn : 21 ≤ n) (v : BitVec 6) (fw : BitVec 15)
    (vw : BitVec 18) : ((formatWrites n fw ++ versionWrites v vw).map fun c => (c.row, c.col)).Nodup := by
  rw [List.map_append]
  refine (formatWrites_nodup hn fw).append (versionWrites_nodup v vw) ?_
  simp only [List.disjoint_left, List.mem_map]
  rintro _ ⟨c, hc, rfl⟩ ⟨c', hc', h⟩
  have hnear := formatWrites_near hn fw c hc
  have hfar := versionWrites_far v vw c' hc'
  simp only [Prod.mk.injEq] at h
  omega

/-- A matrix of side at most 177 stays inside the 256 × 256 cells of the memory. -/
theorem forall_lt_256_of_lt_side {n : Nat} (hn : n ≤ 177) {ws : List CellWrite}
    (h : ∀ c ∈ ws, c.row < n ∧ c.col < n) :
    ∀ c ∈ ws, c.row < 256 ∧ c.col < 256 := fun c hc => by have := h c hc; omega

theorem cellAddress_ne_of_mem_versionWrites {v : BitVec 6} {w : BitVec 18} {a : Nat}
    (h : 7 ≤ v.toNat → ∀ i < 18, a ≠ cellAddress (blockTR (sideOf v) i).1 (blockTR (sideOf v) i).2 ∧
      a ≠ cellAddress (blockBL (sideOf v) i).1 (blockBL (sideOf v) i).2) :
    ∀ c ∈ versionWrites v w, cellAddress c.row c.col ≠ a :=
  forall_mem_versionWrites (P := fun p => cellAddress p.1 p.2 ≠ a) fun h7 i hi =>
    ⟨(h h7 i hi).1.symm, (h h7 i hi).2.symm⟩

end Sys2Proof.Machine
end

section
/-! PROOF. The commands that write cells: the words of ENCFV, what FWRITE, VWRITE and ENCFV leave, and the statements
about the three. -/

namespace Sys2Proof.Machine

open Sys2Proof.Spec

/-! ## The fields of an encoded word -/

/-- 30_encoding.md R86: the fields of a well-formed command do not overlap, so their sum is the bitwise OR. -/
theorem encodeNat_eq_or {o : Operands} (ho : o.wf = true) {op : Nat} (hop : op ≤ 8) :
    encodeNat o op = (if o.load then 2 ^ 31 else 0) ||| o.f <<< 24 ||| o.m <<< 16 ||| o.v <<< 8 ||| op := by
  simp only [Operands.wf, Bool.and_eq_true, decide_eq_true_eq] at ho
  have hload : (if o.load then 2 ^ 31 else 0) = o.load.toNat <<< 31 := by cases o.load <;> rfl
  simp only [Nat.or_assoc, hload]
  rw [← Nat.shiftLeft_add_eq_or_of_lt (i := 8) (by omega), ← Nat.shiftLeft_add_eq_or_of_lt (i := 16),
    ← Nat.shiftLeft_add_eq_or_of_lt (i := 24), ← Nat.shiftLeft_add_eq_or_of_lt (i := 31), ← hload, encodeNat]
  all_goals
    simp only [Nat.shiftLeft_eq]
    omega

theorem ofNat_shiftLeft (x k : Nat) : BitVec.ofNat 32 (x <<< k) = BitVec.ofNat 32 x <<< k := by
  refine BitVec.eq_of_toNat_eq ?_
  simp [Nat.shiftLeft_eq, Nat.mod_mul_mod]

/-- 30_encoding.md R86: the word of a command with a load. -/
theorem encode_of_load {i : Instr} (hi : i.wf = true) (hload : i.operands.load = true) :
    encode i = 0x80000000#32 ||| (BitVec.ofNat 32 i.operands.f <<< 24) ||| (BitVec.ofNat 32 i.operands.m <<< 16) |||
      (BitVec.ofNat 32 i.operands.v <<< 8) ||| BitVec.ofNat 32 i.opcode := by
  rw [encode, encodeNat_eq_or hi (opcode_le_eight i), if_pos hload]
  simp only [BitVec.ofNat_or, ofNat_shiftLeft]
  rfl

theorem encode_encfv_ld {v m : Nat} (hv : v ≤ 63) (hm : m ≤ 7) :
    encode (.encfv (.ld v m 0)) =
      0x80000006#32 ||| (BitVec.ofNat 32 m <<< 16) ||| (BitVec.ofNat 32 v <<< 8) := by
  have hop : 0x80000006#32 = 6#32 ||| 0x80000000#32 := rfl
  rw [encode_of_load (by simp [Instr.wf, Instr.operands, Operands.wf, Operands.ld, hv, hm]) rfl, BitVec.or_comm, hop]
  simp only [Instr.operands, Operands.ld, Instr.opcode, BitVec.zero_shiftLeft, BitVec.or_zero, BitVec.or_assoc]

/-! ## What the three commands leave -/

theorem effectOf_latch_fwrite (o : Operands) (t : State) :
    effectOf (latch (.fwrite o) t) (writeFmtId (latch (.fwrite o) t) t) =
      { t with mem := writeCells t.mem (formatWrites (sideOf t.version) t.fmtWord) } := rfl

theorem effectOf_latch_vwrite (o : Operands) (t : State) :
    effectOf (latch (.vwrite o) t) (writeFmtId (latch (.vwrite o) t) t) =
      { t with mem := writeCells t.mem (versionWrites t.version t.verWord) } := rfl

theorem effectOf_latch_encfv (o : Operands) (t : State) :
    effectOf (latch (.encfv o) t) (writeFmtId (latch (.encfv o) t) t) =
      { t with
        fmtId := formatId Config.ecl t.mask
        fmtWord := formatWord t.params.g15 (formatId Config.ecl t.mask)
        verWord := versionEntry t.version
        verValid := hasVersionWord t.version
        mem := writeCells t.mem
          (formatWrites (sideOf t.version) (formatWord t.params.g15 (formatId Config.ecl t.mask)) ++
            versionWrites t.version (versionEntry t.version)) } := by
  have hfmt : writeFmtId (latch (.encfv o) t) t = storeFmtId (formatId Config.ecl t.mask) t := rfl
  simp only [hfmt, effectOf, latch_command, encfvEffect, encfvCells, vcalcEffect, fcalcmEffect, storeMatrix, storeFmtId,
    latch_version, latch_mask]

section Accepted

variable {o : Operands} {s : State} (hs : Ready s) (h1 : 1 ≤ (loaded o s).version.toNat)
  (h40 : (loaded o s).version.toNat ≤ 40)

include hs h1 h40

theorem exec_fwrite :
    exec (.fwrite o) s = .next
      { loaded o s with
        mem := writeCells s.mem (formatWrites (sideOf (loaded o s).version) s.fmtWord), done := true } := by
  rw [exec_of_ready (i := .fwrite o) (t := loaded o s) hs rfl (operandError_of_legal_version h1 h40 nofun) rfl,
    effectOf_latch_fwrite, ← loaded_mem o s, ← loaded_fmtWord o s]

theorem exec_vwrite (hvalid : 7 ≤ (loaded o s).version.toNat → (loaded o s).verValid = true) :
    exec (.vwrite o) s = .next
      { loaded o s with mem := writeCells s.mem (versionWrites (loaded o s).version s.verWord), done := true } := by
  rw [exec_of_ready (i := .vwrite o) (t := loaded o s) hs rfl
    (operandError_of_legal_version h1 h40 fun _ => hvalid) rfl, effectOf_latch_vwrite, ← loaded_mem o s,
    ← loaded_verWord o s]

theorem exec_encfv :
    exec (.encfv o) s = .next
      { loaded o s with
        fmtId := formatId Config.ecl (loaded o s).mask
        fmtWord := formatWord s.params.g15 (formatId Config.ecl (loaded o s).mask)
        verWord := versionEntry (loaded o s).version
        verValid := hasVersionWord (loaded o s).version
        mem := writeCells s.mem
          (formatWrites (sideOf (loaded o s).version)
              (formatWord s.params.g15 (formatId Config.ecl (loaded o s).mask)) ++
            versionWrites (loaded o s).version (versionEntry (loaded o s).version))
        done := true } := by
  rw [exec_of_ready (i := .encfv o) (t := loaded o s) hs rfl (operandError_of_legal_version h1 h40 nofun) rfl,
    effectOf_latch_encfv, ← loaded_mem o s, ← loaded_params o s]

end Accepted

/-- 60_exceptions.md R204: VWRITE for a version with a word, VER_VALID not standing. -/
theorem exec_vwrite_of_no_word {o : Operands} {s : State} (hs : Ready s) (h7 : 7 ≤ (loaded o s).version.toNat)
    (h40 : (loaded o s).version.toNat ≤ 40) (hvalid : (loaded o s).verValid = false) :
    exec (.vwrite o) s = .next (withError .noVerWord (encode (.vwrite o)) s) := by
  refine exec_of_operandError hs ?_ nofun
  have hlegal : legalVersion (loaded o s).version = true := by
    rw [← Bool.not_eq_false, legalVersion_eq_false_iff]; omega
  simp only [operandError, Instr.operands, effectiveVersion_eq, effectiveVerValid_eq, loadOperands_eq_loaded, hlegal,
    hvalid, hasVersionWord, h7]
  rfl

/-! ## The statements -/

/-- Settles O27: the 30 writes go to different cells, so each reads as written. -/
theorem fwriteCompletes : Obligations.FwriteCompletes := by
  refine ⟨by decide, fun o s hs => ⟨fun hwf h1 h40 => ?_, exec_of_bad_version (i := .fwrite o) hs rfl⟩⟩
  obtain ⟨hn, hn'⟩ := sideOf_bounds h1 h40
  have hcells {i : Nat} (hi : i < 15) := matRead_writeCells_twoCopies hwf
    (forall_lt_256_of_lt_side hn' (formatWrites_inside hn s.fmtWord)) (formatWrites_nodup hn s.fmtWord)
    (List.Subset.refl _) hi
  refine ⟨_, exec_fwrite hs h1 h40, fun i hi => hcells hi,
    fun a ha => writeCells_read_other _ _ (cellAddress_ne_of_mem_twoCopies ha), fun hv hw => ?_⟩
  have h0 := hcells (i := 0) (by decide)
  have h14 := hcells (i := 14) (by decide)
  rw [hv, hw] at h0 h14
  rw [hv, hw]
  exact ⟨congrArg CellRec.color h14.1, congrArg CellRec.color h0.1, congrArg CellRec.color h0.2⟩

/-- Settles O28: from version 7 on the 36 writes go to different cells, so each reads as written; below, there are
none. -/
theorem vwriteCompletes : Obligations.VwriteCompletes := by
  refine ⟨by decide, fun o s hs => ⟨fun hwf h7 h40 hvalid => ?_, fun h1 h6 => ?_,
    exec_of_bad_version (i := .vwrite o) hs rfl, exec_vwrite_of_no_word hs⟩⟩
  · have h1 : 1 ≤ (loaded o s).version.toNat := by omega
    obtain ⟨-, hn'⟩ := sideOf_bounds h1 h40
    have hcells {i : Nat} (hi : i < 18) := matRead_writeCells_twoCopies hwf
      (forall_lt_256_of_lt_side hn' (versionWrites_inside _ s.verWord)) (versionWrites_nodup _ s.verWord)
      (twoCopies_subset_versionWrites h7 s.verWord) hi
    refine ⟨_, exec_vwrite hs h1 h40 fun _ => hvalid, fun i hi => hcells hi,
      fun a ha => writeCells_read_other _ _ (cellAddress_ne_of_mem_versionWrites fun _ => ha), fun hv hw => ?_⟩
    have h0 := hcells (i := 0) (by decide)
    have h2 := hcells (i := 2) (by decide)
    rw [hv, hw] at h0 h2
    rw [hv, hw]
    exact ⟨⟨congrArg CellRec.color h2.1, congrArg CellRec.color h2.2⟩, congrArg CellRec.color h0.1,
      congrArg CellRec.color h0.2⟩
  · rw [exec_vwrite hs h1 (by omega) (by omega), versionWrites_eq_nil (by omega), writeCells_nil, ← loaded_mem o s]

/-- 95_test_vectors.md, program P2: the cells ENCFV.ld 7, 2, 0 leaves in an empty matrix, all of them and the
dark ones. -/
theorem encfv_ld_7_2_cells :
    let m := writeCells [] (formatWrites (sideOf 7) 0x7DAA ++ versionWrites 7 0x07C94)
    m.length = 66 ∧ (m.countP fun c => (CellRec.ofByte c.2).color) = 36 := by decide

/-- Settles O29: the 30 format and the 36 version writes all go to different cells, so each reads as written. -/
theorem encfvCompletes : Obligations.EncfvCompletes := by
  refine ⟨by decide, fun v m => encode_encfv_ld, fun o s hs =>
    ⟨fun hwf h1 h40 => ?_, exec_of_bad_version (i := .encfv o) hs rfl⟩⟩
  obtain ⟨hn, hn'⟩ := sideOf_bounds h1 h40
  rw [← formatId_ecl, ← versionEntry_eq]
  have hcells {k f g bit} := matRead_writeCells_twoCopies (k := k) (f := f) (g := g) (bit := bit) hwf
    (forall_lt_256_of_lt_side hn' (List.forall_mem_append.mpr ⟨formatWrites_inside hn _, versionWrites_inside _ _⟩))
    (formatWrites_append_versionWrites_nodup hn (loaded o s).version
      (formatWord s.params.g15 (formatId Config.ecl (loaded o s).mask)) (versionEntry (loaded o s).version))
  refine ⟨_, exec_encfv hs h1 h40, fun i hi => hcells (List.subset_append_left _ _) hi, fun h7 i hi => ?_,
    fun a hf hv => ?_, ?_⟩
  · have hword : versionWord (loaded o s).version = versionEntry (loaded o s).version := by
      rw [versionEntry_eq, if_pos h7]
    rw [hword]
    exact hcells (List.subset_append_of_subset_right _ (twoCopies_subset_versionWrites h7 _)) hi
  · exact writeCells_read_other _ _ (List.forall_mem_append.mpr
      ⟨cellAddress_ne_of_mem_twoCopies hf, cellAddress_ne_of_mem_versionWrites hv⟩)
  · rintro rfl hmem hg
    have hversion : (loaded (.ld 7 2 0) s).version = 7 := rfl
    have hmask : (loaded (.ld 7 2 0) s).mask = 2 := rfl
    have hfid : formatId Config.ecl 2 = 10 := by decide
    have hformat : formatWord 0x537 10 = 0x7DAA := by decide
    have hentry : versionEntry 7 = 0x07C94 := by decide
    rw [hmem, hg, hversion, hmask, hfid, hformat, hentry]
    exact ⟨encfv_ld_7_2_cells.1, encfv_ld_7_2_cells.2, rfl, rfl, by decide⟩

end Sys2Proof.Machine
end

section
/-! PROOF. Rule 1: the runs of a line, the sum over them written with the positions and lengths of R141, the reference
scan of R143, and with them the statements about the rule-1 penalty. -/

namespace Sys2Proof.Machine

open Sys2Proof.Spec

/-! ## Sums over a line's positions -/

/-- A sum over the numbers below `n`, as the model writes it and as the statements do. -/
theorem sum_map_range (n : Nat) (f : Nat → Nat) : ((List.range n).map f).sum = ∑ i ∈ Finset.range n, f i := rfl

theorem sum_matrixLines (n : Nat) (color : Nat → Nat → Bool) (f : List Bool → Nat) :
    ((matrixLines n color).map f).sum =
      ∑ r ∈ Finset.range n, f (rowLine n color r) + ∑ c ∈ Finset.range n, f (colLine n color c) := by
  rw [matrixLines, List.map_append, List.sum_append, List.map_map, List.map_map, sum_map_range, sum_map_range]
  rfl

/-! ## The runs of a line, module by module -/

section Head

variable {x : Bool} {tail : List Bool}

/-- R141: a module of the next one's color lengthens its run. -/
theorem runLengths_cons_of_same (h : tail[0]? = some x) : runLengths (x :: tail) = lengthenFirst (runLengths tail) := by
  cases tail with
  | nil => simp at h
  | cons y rest =>
    obtain rfl : y = x := by simpa using h
    rw [runLengths, if_pos rfl]

/-- R141: a module of the other color, or the last one, is a run of its own. -/
theorem runLengths_cons_of_change (h : tail[0]? ≠ some x) : runLengths (x :: tail) = 1 :: runLengths tail := by
  cases tail with
  | nil => rfl
  | cons y rest =>
    have hxy : x ≠ y := fun hxy => h (by simp [hxy])
    rw [runLengths, if_neg hxy]

theorem isRun_bounds {k len : Nat} (h : isRun tail k len) : 0 < len ∧ k + len ≤ tail.length := ⟨h.1, h.2.1⟩

/-- A run that does not start at the module in front is one of the rest, starting where the color changes. -/
theorem isRun_cons_succ (k len : Nat) :
    isRun (x :: tail) (k + 1) len ↔ isRun tail k len ∧ (k = 0 → tail[0]? ≠ some x) := by
  have hshift (j : Nat) : k + 1 + j = k + j + 1 := by omega
  cases k with
  | zero => simp [isRun, hshift, eq_comm]; tauto
  | succ k => simp [isRun, hshift]

/-- The run of the module in front, when the next one continues it. -/
theorem isRun_cons_zero_of_same (h : tail[0]? = some x) (len : Nat) :
    isRun (x :: tail) 0 (len + 1) ↔ isRun tail 0 len := by
  have hpos (hend : tail[len]? ≠ some x) : 0 < len := Nat.pos_of_ne_zero fun h0 => hend (h0 ▸ h)
  simp only [isRun, Nat.forall_lt_succ_left', Nat.zero_add, List.getElem?_cons_zero, List.getElem?_cons_succ,
    List.length_cons, h]
  simp only [Nat.succ_pos, Nat.add_le_add_iff_right, true_and, true_or]
  exact ⟨fun ⟨hlen, hsame, hend⟩ => ⟨hpos hend, hlen, hsame, hend⟩, fun ⟨_, hrest⟩ => hrest⟩

/-- The run of the module in front, when the next one does not continue it. -/
theorem isRun_cons_zero_of_change (h : tail[0]? ≠ some x) (len : Nat) : isRun (x :: tail) 0 len ↔ len = 1 := by
  constructor
  · rintro ⟨hpos, -, hsame, -⟩
    have hle : ¬ 1 < len := fun h1 => h (by simpa using hsame 1 h1)
    omega
  · rintro rfl
    simpa [isRun] using h

end Head

/-! ## Sums over the runs of a line -/

/-- The sum over a list of run lengths, the first one weighed by `g₀` and the others by `g`. -/
def weighRuns (g₀ g : Nat → Nat) : List Nat → Nat
  | [] => 0
  | k :: ks => g₀ k + (ks.map g).sum

theorem weighRuns_self (g : Nat → Nat) (ks : List Nat) : weighRuns g g ks = (ks.map g).sum := by cases ks <;> rfl

theorem weighRuns_lengthenFirst (g₀ g : Nat → Nat) {ks : List Nat} (h : ks ≠ []) :
    weighRuns g₀ g (lengthenFirst ks) = weighRuns (fun len => g₀ (len + 1)) g ks := by
  cases ks with
  | nil => exact absurd rfl h
  | cons k ks => rfl

theorem weighRuns_cons_one (g₀ g : Nat → Nat) (ks : List Nat) : weighRuns g₀ g (1 :: ks) = g₀ 1 + weighRuns g g ks := by
  rw [weighRuns_self]; rfl

theorem runLengths_cons_ne_nil (x : Bool) (tail : List Bool) : runLengths (x :: tail) ≠ [] := by
  by_cases h : tail[0]? = some x
  · rw [runLengths_cons_of_same h]
    cases runLengths tail <;> simp [lengthenFirst]
  · simp [runLengths_cons_of_change h]

/-- What the runs from position `k` on add (there is at most one). -/
def weighPlace (g : Nat → Nat) (colors : List Bool) (k : Nat) : Nat :=
  ∑ len ∈ Finset.range (colors.length + 1), if isRun colors k len then g len else 0

/-- `weighRuns` over the positions and lengths of R141. -/
def weighPlaces (g₀ g : Nat → Nat) (colors : List Bool) : Nat :=
  ∑ k ∈ Finset.range colors.length, weighPlace (if k = 0 then g₀ else g) colors k

theorem weighPlaces_cons (g₀ g : Nat → Nat) (x : Bool) (tail : List Bool) :
    weighPlaces g₀ g (x :: tail) =
      ∑ k ∈ Finset.range tail.length, weighPlace g (x :: tail) (k + 1) + weighPlace g₀ (x :: tail) 0 :=
  Finset.sum_range_succ' _ _

theorem weighPlace_cons (g : Nat → Nat) (x : Bool) (tail : List Bool) (k : Nat) :
    weighPlace g (x :: tail) k =
      ∑ len ∈ Finset.range (tail.length + 1 + 1), if isRun (x :: tail) k len then g len else 0 := rfl

theorem weighPlace_cons_succ (g : Nat → Nat) (x : Bool) (tail : List Bool) (k : Nat) :
    weighPlace g (x :: tail) (k + 1) = if k = 0 ∧ tail[0]? = some x then 0 else weighPlace g tail k := by
  have hlong : ¬ isRun tail k (tail.length + 1) := fun h => by have := isRun_bounds h; omega
  rw [weighPlace_cons, Finset.sum_range_succ]
  simp only [isRun_cons_succ, hlong, false_and, if_false, Nat.add_zero]
  split
  case isTrue h => exact Finset.sum_eq_zero fun len _ => if_neg fun h' => h'.2 h.1 h.2
  case isFalse h => exact Finset.sum_congr rfl fun len _ => if_congr (and_iff_left fun hk hx => h ⟨hk, hx⟩) rfl rfl

theorem weighPlace_cons_zero_of_same (g : Nat → Nat) {x : Bool} {tail : List Bool} (h : tail[0]? = some x) :
    weighPlace g (x :: tail) 0 = weighPlace (fun len => g (len + 1)) tail 0 := by
  rw [weighPlace_cons, Finset.sum_range_succ', if_neg fun h0 => (isRun_bounds h0).1.ne rfl]
  simp only [isRun_cons_zero_of_same h]
  rfl

theorem weighPlace_cons_zero_of_change (g : Nat → Nat) {x : Bool} {tail : List Bool} (h : tail[0]? ≠ some x) :
    weighPlace g (x :: tail) 0 = g 1 := by
  simp [weighPlace, isRun_cons_zero_of_change h]

/-- R141: the two ways to go over the runs of a line give the same sum. -/
theorem weighRuns_runLengths (g₀ g : Nat → Nat) (colors : List Bool) :
    weighRuns g₀ g (runLengths colors) = weighPlaces g₀ g colors := by
  induction colors generalizing g₀ with
  | nil => rfl
  | cons x tail ih =>
    rw [weighPlaces_cons]
    simp only [weighPlace_cons_succ]
    by_cases h : tail[0]? = some x
    · rw [runLengths_cons_of_same h, weighPlace_cons_zero_of_same _ h]
      obtain ⟨y, rest, rfl⟩ : ∃ y rest, tail = y :: rest := List.exists_cons_of_ne_nil (by rintro rfl; simp at h)
      rw [weighRuns_lengthenFirst _ _ (runLengths_cons_ne_nil _ _), ih, weighPlaces_cons,
        List.length_cons, Finset.sum_range_succ']
      obtain rfl : y = x := by simpa using h
      simp
    · rw [runLengths_cons_of_change h, weighPlace_cons_zero_of_change _ h, weighRuns_cons_one, ih, weighPlaces]
      simp [h, Nat.add_comm]

/-! ## The reference scan -/

/-- R143: one step of the reference scan of `colors`. -/
def referenceStep (colors : List Bool) (acc : Nat × Nat) (k : Nat) : Nat × Nat :=
  if k < colors.length ∧ colors[k]? = colors[k - 1]? then (acc.1, acc.2 + 1) else (acc.1 + runPenalty acc.2, 1)

theorem referenceScan_eq (colors : List Bool) :
    referenceScan colors = ((List.range' 1 colors.length).foldl (referenceStep colors) (0, 1)).1 := by
  have hstep (acc : Nat × Nat) : (if 5 ≤ acc.2 then acc.1 + (acc.2 - 2) else acc.1) = acc.1 + runPenalty acc.2 := by
    unfold runPenalty; split <;> rfl
  simp only [referenceScan, hstep]
  rfl

/-- R143: from the module `y` on, with `opened` modules of its color just before it, the scan adds what the runs from
there on add, the first of them longer by the open ones. -/
theorem referenceStep_foldl (y : Bool) (tail pre : List Bool) (sum opened : Nat) :
    ((List.range' (pre.length + 1) (tail.length + 1)).foldl (referenceStep (pre ++ y :: tail)) (sum, opened + 1)).1 =
      sum + weighRuns (fun len => runPenalty (len + opened)) runPenalty (runLengths (y :: tail)) := by
  induction tail generalizing y pre sum opened with
  | nil => simp [referenceStep, runLengths, weighRuns, Nat.add_comm 1]
  | cons z rest ih =>
    rw [List.length_cons, List.range'_succ, List.foldl_cons]
    have hshift : pre ++ y :: z :: rest = (pre ++ [y]) ++ z :: rest := by simp
    by_cases h : z = y
    · have hstep : referenceStep (pre ++ y :: z :: rest) (sum, opened + 1) (pre.length + 1) =
          (sum, opened + 1 + 1) := by
        simp [referenceStep, h]
      have hrest := ih z (pre ++ [y]) sum (opened + 1)
      rw [List.length_append] at hrest
      rw [hstep, hshift, runLengths_cons_of_same (by simp [h]),
        weighRuns_lengthenFirst _ _ (runLengths_cons_ne_nil _ _)]
      simp only [Nat.add_right_comm _ 1 opened]
      exact hrest
    · have hstep : referenceStep (pre ++ y :: z :: rest) (sum, opened + 1) (pre.length + 1) =
          (sum + runPenalty (opened + 1), 0 + 1) := by
        simp [referenceStep, h]
      have hrest := ih z (pre ++ [y]) (sum + runPenalty (opened + 1)) 0
      rw [List.length_append] at hrest
      rw [hstep, hshift, runLengths_cons_of_change (by simp [h]), weighRuns_cons_one, Nat.add_comm 1, ← Nat.add_assoc]
      exact hrest

/-! ## The statements -/

/-- Settles O41: the sum over the run lengths, taken over the places of the runs. -/
theorem runPenaltyIsTheSumOverMaximalRuns : Obligations.RunPenaltyIsTheSumOverMaximalRuns := by
  intro colors
  rw [lineRunPenalty, ← weighRuns_self, weighRuns_runLengths]
  refine Finset.sum_congr rfl fun k _ => Finset.sum_congr rfl fun len _ => ?_
  rw [ite_self, runPenalty]
  exact (ite_and _ _ _ _).symm

/-- Settles O42: P1 by its lines; the scan of a line from its first module on. -/
theorem runPenaltyIsTheReferenceScans : Obligations.RunPenaltyIsTheReferenceScans := by
  refine ⟨fun n color => sum_matrixLines n color lineRunPenalty, fun colors => ?_⟩
  rw [referenceScan_eq]
  cases colors with
  | nil => rfl
  | cons y tail =>
    rw [lineRunPenalty, ← weighRuns_self]
    exact (referenceStep_foldl y tail [] 0 0).trans (Nat.zero_add _)

end Sys2Proof.Machine
end

section
/-! PROOF. Rules 2 to 4: the windows of one color and the dark cells as cardinalities, the pattern windows of R147
position by position, and with them the statements about P2, D and P3. -/

namespace Sys2Proof.Machine

open Sys2Proof.Spec

/-! ## Counting in a matrix -/

/-- A count row by row is the number of places counted. -/
theorem sum_countP_range (m n : Nat) (p : Nat → Nat → Bool) :
    ((List.range m).map fun r => (List.range n).countP (p r)).sum =
      ((Finset.range m ×ˢ Finset.range n).filter fun x => p x.1 x.2 = true).card := by
  have hrow (r : Nat) : (List.range n).countP (p r) = ∑ c ∈ Finset.range n, if p r c = true then 1 else 0 := by
    rw [← Finset.card_filter, ← Nat.count_eq_card_filter_range, Nat.count]
    simp
  rw [sum_map_range, Finset.card_filter, Finset.sum_product]
  exact Finset.sum_congr rfl fun r _ => hrow r

theorem uniformWindow_iff (color : Nat → Nat → Bool) (r c : Nat) :
    uniformWindow color r c = true ↔
      color r c = color r (c + 1) ∧ color r c = color (r + 1) c ∧ color r c = color (r + 1) (c + 1) := by
  simp only [uniformWindow, Bool.and_eq_true, beq_iff_eq, and_assoc]

/-! ## Rule 3 -/

/-- The window of 11 modules at position `k` of a line. -/
theorem take_drop_map_range {n k : Nat} (h : k + 11 ≤ n) (f : Nat → Bool) :
    (((List.range n).map f).drop k).take 11 = (List.range 11).map fun j => f (k + j) := by
  refine List.ext_getElem (by simp; omega) fun j _ _ => ?_
  simp

/-- R147: 11 colors read as a pattern, as the model and as the spec write the pattern. -/
theorem map_range_eq_iff_reads {pattern : List Bool} (h : pattern.length = 11) (w : Nat → Bool) :
    (List.range 11).map w = pattern ↔ reads (pattern.map Bool.toNat) w := by
  constructor
  · rintro rfl j hj
    simp [hj]
  · intro hreads
    refine List.ext_getElem (by simp [h]) fun j h1 h2 => ?_
    have := hreads j (by omega)
    rw [List.getElem?_map, List.getElem?_eq_getElem h2, Option.map_some, Option.some_inj] at this
    simpa using (Function.LeftInverse.injective Bool.ofNat_toNat this).symm

/-- R147: how many of the two patterns 11 colors read as. -/
def patternMatches (w : Nat → Bool) : Nat := (if reads patA w then 1 else 0) + if reads patB w then 1 else 0

theorem patternPenalty_map_range (w : Nat → Bool) :
    patternPenalty ((List.range 11).map w) = 40 * patternMatches w := by
  have hA := map_range_eq_iff_reads (pattern := patternA) rfl w
  have hB := map_range_eq_iff_reads (pattern := patternB) rfl w
  rw [patternPenalty, patternMatches, Nat.mul_add, mul_ite, mul_ite]
  exact congrArg₂ (· + ·) (if_congr hA rfl rfl) (if_congr hB rfl rfl)

/-- R147: what a line adds. -/
theorem linePatternPenalty_map_range (n : Nat) (f : Nat → Bool) :
    linePatternPenalty ((List.range n).map f) =
      40 * ∑ k ∈ Finset.range (n - 10), patternMatches fun j => f (k + j) := by
  rw [linePatternPenalty, sum_map_range, List.length_map, List.length_range, Finset.mul_sum]
  refine Finset.sum_congr rfl fun k hk => ?_
  have := Finset.mem_range.mp hk
  rw [take_drop_map_range (by omega), patternPenalty_map_range]

/-! ## The statements -/

/-- Settles O43: both are counts row by row; a window is uniform when its three other cells have the first one's
color. -/
theorem blockPenaltyAndDarkCountAreCardinalities : Obligations.BlockPenaltyAndDarkCountAreCardinalities := by
  refine ⟨by decide, fun n color => ⟨?_, sum_countP_range n n color⟩⟩
  rw [penaltyBlocks, uniformWindows, sum_countP_range]
  simp only [uniformWindow_iff]

/-- Settles O44: mode 1 line by line, the rows' and the columns' windows together. -/
theorem patternPenaltyCountsMatchingWindows : Obligations.PatternPenaltyCountsMatchingWindows := by
  intro n color
  refine ⟨rfl, ?_⟩
  rw [penaltyPatterns, sum_matrixLines]
  simp only [rowLine, colLine, linePatternPenalty_map_range]
  rw [← Finset.mul_sum, ← Finset.mul_sum, ← Nat.mul_add, ← Finset.sum_add_distrib]
  simp only [patternMatches, ← Finset.sum_add_distrib, Nat.add_assoc]

end Sys2Proof.Machine
end

section
/-! PROOF. The best-mask tracker: what it holds after a score, after BESTCLR and after scores of several masks, and with
them the statements about BESTCLR and about the order of scores. -/

namespace Sys2Proof.Machine

open Sys2Proof.Spec

/-! ## One score -/

/-- R150: an empty tracker takes any total. -/
theorem trackBest_of_empty {s : State} (h : s.bestValid = false) (total : Word) (mask : BitVec 3) :
    trackBest total mask s = { s with bestPenalty := total, bestMask := mask, bestValid := true } := by
  simp [trackBest, trackerTakes, h]

/-- R154: a tracker that holds a score takes a strictly lower total. -/
theorem trackBest_of_held {s : State} (h : s.bestValid = true) (total : Word) (mask : BitVec 3) :
    trackBest total mask s =
      if total.toNat < s.bestPenalty.toNat then { s with bestPenalty := total, bestMask := mask } else s := by
  simp [trackBest, trackerTakes, h]

/-- 10_state.md R26: the place of BEST_VALID in STATUS. -/
theorem getLsbD_statusWord_nine (s : State) : (statusWord s).getLsbD 9 = s.bestValid := by
  unfold statusWord
  iterate 7 rw [BitVec.getLsbD_append]
  simp [flagBit]

/-! ## Scores in order -/

/-- R154: `best` is the least of the totals, and `k` the first place that holds it. -/
def FirstMinimum (totals : List Word) (k : Nat) (best : Word) : Prop :=
  totals[k]? = some best ∧
    ∀ (j : Nat) (x : Word), totals[j]? = some x → best.toNat ≤ x.toNat ∧ (j < k → best.toNat < x.toNat)

section FirstMinimum

variable {totals : List Word} {k : Nat} {best : Word}

/-- The place of an element of a list with one more element at its end. -/
theorem getElem?_concat_eq_some {x y : Word} {j : Nat} :
    (totals ++ [x])[j]? = some y ↔ totals[j]? = some y ∨ (j = totals.length ∧ x = y) := by
  rw [List.getElem?_append]
  split
  case isTrue h => simp [h.ne]
  case isFalse h =>
    have hnone : totals[j]? = none := List.getElem?_eq_none (Nat.not_lt.mp h)
    have hzero : j - totals.length = 0 ↔ j = totals.length := by omega
    simp [hnone, List.getElem?_singleton, hzero]

theorem FirstMinimum.singleton (x : Word) : FirstMinimum [x] 0 x := by
  refine ⟨rfl, fun j y h => ?_⟩
  obtain ⟨rfl, rfl⟩ : j = 0 ∧ x = y := by simpa [List.getElem?_singleton] using h
  exact ⟨le_rfl, fun h => absurd h (Nat.lt_irrefl 0)⟩

/-- A lower total at the end is the new first minimum. -/
theorem FirstMinimum.concat_lower (h : FirstMinimum totals k best) {x : Word} (hx : x.toNat < best.toNat) :
    FirstMinimum (totals ++ [x]) totals.length x := by
  refine ⟨by simp, fun j y hy => ?_⟩
  rcases getElem?_concat_eq_some.mp hy with hy | ⟨rfl, rfl⟩
  · have hlt := hx.trans_le (h.2 j y hy).1
    exact ⟨hlt.le, fun _ => hlt⟩
  · exact ⟨le_rfl, fun h => absurd h (Nat.lt_irrefl _)⟩

/-- Any other total at the end leaves the first minimum where it is. -/
theorem FirstMinimum.concat_not_lower (h : FirstMinimum totals k best) {x : Word} (hx : ¬ x.toNat < best.toNat) :
    FirstMinimum (totals ++ [x]) k best := by
  obtain ⟨hk, hleast⟩ := h
  have hlen : k < totals.length := (List.getElem?_eq_some_iff.mp hk).1
  refine ⟨getElem?_concat_eq_some.mpr (.inl hk), fun j y hy => ?_⟩
  rcases getElem?_concat_eq_some.mp hy with hy | ⟨rfl, rfl⟩
  · exact hleast j y hy
  · exact ⟨Nat.not_lt.mp hx, fun hj => absurd hj hlen.not_gt⟩

end FirstMinimum

theorem trackInOrder_concat (totals : List Word) (x : Word) (s : State) :
    trackInOrder (totals ++ [x]) s = trackBest x (BitVec.ofNat 3 totals.length) (trackInOrder totals s) := by
  simp [trackInOrder, List.zipIdx_append]

/-- R154: scores in order, from an empty tracker, leave the first minimum. -/
theorem trackInOrder_firstMinimum {s : State} (hs : s.bestValid = false) (totals : List Word) (h : totals ≠ []) :
    ∃ k best, FirstMinimum totals k best ∧
      trackInOrder totals s = { s with bestPenalty := best, bestMask := BitVec.ofNat 3 k, bestValid := true } := by
  induction totals using List.reverseRecOn with
  | nil => exact absurd rfl h
  | append_singleton totals x ih =>
    rcases eq_or_ne totals [] with rfl | hne
    · exact ⟨0, x, .singleton x, trackBest_of_empty hs x 0⟩
    · obtain ⟨k, best, hmin, htrack⟩ := ih hne
      rw [trackInOrder_concat, htrack, trackBest_of_held rfl]
      by_cases hx : x.toNat < best.toNat
      · exact ⟨_, x, hmin.concat_lower hx, if_pos hx⟩
      · exact ⟨k, best, hmin.concat_not_lower hx, if_neg hx⟩

/-! ## The statements -/

/-- Settles O26: BESTCLR needs no version, and the tracker it leaves is empty. -/
theorem bestclrCompletes : Obligations.BestclrCompletes := by
  refine ⟨by decide, fun o s hs => ⟨?_, ⟨rfl, rfl, getLsbD_statusWord_nine _⟩, trackBest_of_empty rfl⟩⟩
  rw [exec_of_ready hs rfl (operandError_of_no_version rfl s) rfl]
  rfl

/-- Settles O49: one score by the comparison, scores in order by induction on the last of them. -/
theorem trackerKeepsTheFirstMinimum : Obligations.TrackerKeepsTheFirstMinimum := by
  refine ⟨fun s total mask h => trackBest_of_held h total mask, fun totals s hne _ hs => ?_⟩
  obtain ⟨k, best, ⟨hk, hleast⟩, htrack⟩ := trackInOrder_firstMinimum hs totals hne
  exact ⟨k, best, hk, htrack, hleast⟩

end Sys2Proof.Machine
end

section
/-! PROOF. The penalties of a matrix: that only its N × N colors count (R140), the bounds of R152, and the score of a
matrix of one color (R150). -/

namespace Sys2Proof.Machine

open Sys2Proof.Spec

/-! ## Only the colors inside count -/

section Congr

variable {n : Nat} {color color' : Nat → Nat → Bool} (h : ∀ r c, r < n → c < n → color r c = color' r c)

include h

theorem matrixLines_congr : matrixLines n color = matrixLines n color' := by
  have hrow : ∀ r ∈ List.range n, rowLine n color r = rowLine n color' r := fun r hr =>
    List.map_congr_left fun c hc => h r c (List.mem_range.mp hr) (List.mem_range.mp hc)
  have hcol : ∀ c ∈ List.range n, colLine n color c = colLine n color' c := fun c hc =>
    List.map_congr_left fun r hr => h r c (List.mem_range.mp hr) (List.mem_range.mp hc)
  rw [matrixLines, matrixLines, List.map_congr_left hrow, List.map_congr_left hcol]

theorem penaltyRuns_congr : penaltyRuns n color = penaltyRuns n color' := by
  rw [penaltyRuns, penaltyRuns, matrixLines_congr h]

theorem penaltyPatterns_congr (mode : Rule3Mode) : penaltyPatterns mode n color = penaltyPatterns mode n color' := by
  cases mode with
  | omitted => rfl
  | patterns => rw [penaltyPatterns, penaltyPatterns, matrixLines_congr h]

theorem penaltyBlocks_congr : penaltyBlocks n color = penaltyBlocks n color' := by
  have hwindow : ∀ r ∈ List.range (n - 1), ∀ c ∈ List.range (n - 1),
      uniformWindow color r c = uniformWindow color' r c := by
    intro r hr c hc
    rw [List.mem_range] at hr hc
    rw [uniformWindow, uniformWindow, h r c (by omega) (by omega), h r (c + 1) (by omega) (by omega),
      h (r + 1) c (by omega) (by omega), h (r + 1) (c + 1) (by omega) (by omega)]
  rw [penaltyBlocks, penaltyBlocks, uniformWindows, uniformWindows, List.map_congr_left fun r hr =>
    List.countP_congr fun c hc => by rw [hwindow r hr c hc]]

theorem darkModules_congr : darkModules n color = darkModules n color' := by
  rw [darkModules, darkModules, List.map_congr_left fun r hr =>
    List.countP_congr fun c hc => by rw [h r c (List.mem_range.mp hr) (List.mem_range.mp hc)]]

/-- R140: the total depends on the colors of the N × N cells alone. -/
theorem penaltyTotal_congr (mode : Rule3Mode) : penaltyTotal mode n color = penaltyTotal mode n color' := by
  rw [penaltyTotal, penaltyTotal, penaltyRuns_congr h, penaltyBlocks_congr h, penaltyPatterns_congr h,
    darkModules_congr h]

end Congr

/-! ## The bounds of R152 -/

theorem sum_runLengths (colors : List Bool) : (runLengths colors).sum = colors.length := by
  induction colors with
  | nil => rfl
  | cons x tail ih =>
    by_cases h : tail[0]? = some x
    · have hlong (ks : List Nat) : (lengthenFirst ks).sum = ks.sum + 1 := by cases ks <;> simp [lengthenFirst]; omega
      rw [runLengths_cons_of_same h, hlong, ih, List.length_cons]
    · rw [runLengths_cons_of_change h, List.sum_cons, ih, List.length_cons, Nat.add_comm]

theorem sum_runPenalty_le (ks : List Nat) : (ks.map runPenalty).sum ≤ ks.sum - 2 := by
  induction ks with
  | nil => simp
  | cons k ks ih =>
    have hk : runPenalty k ≤ k - 2 := by unfold runPenalty; split <;> omega
    simp only [List.map_cons, List.sum_cons]
    omega

/-- R142: a line adds the most when it is one run. -/
theorem lineRunPenalty_le (colors : List Bool) : lineRunPenalty colors ≤ colors.length - 2 :=
  sum_runLengths colors ▸ sum_runPenalty_le _

/-- R147: no window reads as both patterns. -/
theorem patternPenalty_le (w : List Bool) : patternPenalty w ≤ 40 := by
  by_cases hA : w = patternA
  · subst hA
    decide
  · rw [patternPenalty, if_neg hA, Nat.zero_add]
    split <;> decide

theorem linePatternPenalty_le (colors : List Bool) : linePatternPenalty colors ≤ 40 * (colors.length - 10) := by
  rw [linePatternPenalty, sum_map_range, Nat.mul_comm]
  exact (Finset.sum_le_card_nsmul _ _ 40 fun k _ => patternPenalty_le _).trans_eq (by simp)

/-- What every line of the matrix may add at most, all of them may add 2N times. -/
theorem sum_matrixLines_le (n : Nat) (color : Nat → Nat → Bool) {f : List Bool → Nat} {b : Nat}
    (h : ∀ colors : List Bool, colors.length = n → f colors ≤ b) : ((matrixLines n color).map f).sum ≤ 2 * n * b := by
  have hsum (g : Nat → List Bool) (hg : ∀ i, (g i).length = n) : ∑ i ∈ Finset.range n, f (g i) ≤ n * b := by
    simpa using Finset.sum_le_card_nsmul (Finset.range n) _ b fun i _ => h (g i) (hg i)
  have hrows := hsum (rowLine n color) fun r => by simp [rowLine]
  have hcols := hsum (colLine n color) fun c => by simp [colLine]
  rw [sum_matrixLines, Nat.mul_assoc, Nat.two_mul]
  exact Nat.add_le_add hrows hcols

theorem penaltyRuns_le (n : Nat) (color : Nat → Nat → Bool) : penaltyRuns n color ≤ 2 * n * (n - 2) :=
  sum_matrixLines_le n color fun colors h => h ▸ lineRunPenalty_le colors

theorem penaltyPatterns_le (mode : Rule3Mode) (n : Nat) (color : Nat → Nat → Bool) :
    penaltyPatterns mode n color ≤ 2 * n * (40 * (n - 10)) := by
  cases mode with
  | omitted => exact Nat.zero_le _
  | patterns => exact sum_matrixLines_le n color fun colors h => h ▸ linePatternPenalty_le colors

theorem penaltyBlocks_le (n : Nat) (color : Nat → Nat → Bool) : penaltyBlocks n color ≤ 3 * (n - 1) ^ 2 := by
  rw [penaltyBlocks, uniformWindows, sum_countP_range]
  exact Nat.mul_le_mul_left 3 ((Finset.card_filter_le _ _).trans_eq (by simp [sq]))

theorem darkModules_le (n : Nat) (color : Nat → Nat → Bool) : darkModules n color ≤ n ^ 2 := by
  rw [darkModules, sum_countP_range]
  exact (Finset.card_filter_le _ _).trans_eq (by simp [sq])

theorem penaltyBalance_le {n d : Nat} (h : d ≤ n * n) : penaltyBalance n d ≤ 100 := by
  have hdiv : (10 * ((n * n : Nat) : Int) - 20 * (d : Int)).natAbs / (n * n) ≤ 10 :=
    Nat.div_le_of_le_mul (by omega)
  unfold penaltyBalance
  omega

/-- R152: no total of a matrix of version 1 to 40 overflows a register. -/
theorem penaltyTotal_lt (mode : Rule3Mode) {n : Nat} (hn : n ≤ 177) (color : Nat → Nat → Bool) :
    penaltyTotal mode n color < 2 ^ 32 := by
  have hruns : 2 * n * (n - 2) ≤ 2 * 177 * 175 := Nat.mul_le_mul (by omega) (by omega)
  have hblocks : (n - 1) ^ 2 ≤ 176 ^ 2 := Nat.pow_le_pow_left (by omega) 2
  have hpatterns : 2 * n * (40 * (n - 10)) ≤ 2 * 177 * (40 * 167) := Nat.mul_le_mul (by omega) (by omega)
  have h1 := penaltyRuns_le n color
  have h2 := penaltyBlocks_le n color
  have h3 := penaltyPatterns_le mode n color
  have h4 := penaltyBalance_le (sq n ▸ darkModules_le n color)
  unfold penaltyTotal
  omega

/-! ## A matrix of one color -/

theorem runLengths_replicate (n : Nat) (x : Bool) : runLengths (List.replicate (n + 1) x) = [n + 1] := by
  induction n with
  | zero => rfl
  | succ n ih => rw [List.replicate_succ, runLengths_cons_of_same rfl, ih, lengthenFirst]

theorem penaltyRuns_const (n : Nat) (dark : Bool) : penaltyRuns n (fun _ _ => dark) = 2 * n * runPenalty n := by
  have hline : lineRunPenalty (List.replicate n dark) = runPenalty n := by
    cases n with
    | zero => rfl
    | succ n => simp [lineRunPenalty, runLengths_replicate]
  simp only [penaltyRuns, sum_matrixLines, rowLine, colLine, List.map_const', List.length_range, hline,
    Finset.sum_const, Finset.card_range, smul_eq_mul]
  ring

theorem penaltyBlocks_const (n : Nat) (dark : Bool) : penaltyBlocks n (fun _ _ => dark) = 3 * (n - 1) ^ 2 := by
  simp [penaltyBlocks, uniformWindows, uniformWindow, sq]

theorem darkModules_const (n : Nat) (dark : Bool) : darkModules n (fun _ _ => dark) = if dark then n * n else 0 := by
  cases dark <;> simp [darkModules]

theorem penaltyBalance_ends {n : Nat} (hn : 0 < n) : penaltyBalance n 0 = 100 ∧ penaltyBalance n (n * n) = 100 := by
  have hpos : 0 < n * n := Nat.mul_pos hn hn
  have hlight : (10 * ((n * n : Nat) : Int) - 20 * ((0 : Nat) : Int)).natAbs = n * n * 10 := by omega
  have hdark : (10 * ((n * n : Nat) : Int) - 20 * ((n * n : Nat) : Int)).natAbs = n * n * 10 := by omega
  rw [penaltyBalance, penaltyBalance, hlight, hdark, Nat.mul_div_cancel_left _ hpos]
  exact ⟨rfl, rfl⟩

theorem penaltyBalance_const {n : Nat} (hn : 0 < n) (dark : Bool) :
    penaltyBalance n (darkModules n fun _ _ => dark) = 100 := by
  rw [darkModules_const]
  cases dark with
  | false => exact (penaltyBalance_ends hn).1
  | true => exact (penaltyBalance_ends hn).2

/-- R150: the total of a matrix of one color, rule 3 omitted. -/
theorem penaltyTotal_const {n : Nat} (hn : 0 < n) (dark : Bool) :
    penaltyTotal .omitted n (fun _ _ => dark) = 2 * n * runPenalty n + 3 * (n - 1) ^ 2 + 100 := by
  rw [penaltyTotal, penaltyRuns_const, penaltyBlocks_const, penaltyBalance_const hn]
  rfl

end Sys2Proof.Machine
end

section
/-! PROOF. SCORE: the tracker after any score, what an accepted SCORE leaves, and with them the statement about it. -/

namespace Sys2Proof.Machine

open Sys2Proof.Spec

theorem loaded_bestValid (o : Operands) (s : State) : (loaded o s).bestValid = s.bestValid := loadOperands_bestValid s o

theorem loaded_bestPenalty (o : Operands) (s : State) : (loaded o s).bestPenalty = s.bestPenalty :=
  loadOperands_bestPenalty s o

theorem loaded_bestMask (o : Operands) (s : State) : (loaded o s).bestMask = s.bestMask := loadOperands_bestMask s o

theorem loaded_rule3Mode (o : Operands) (s : State) : (loaded o s).rule3Mode = s.rule3Mode := loadOperands_rule3Mode s o

/-- R150: after a score the tracker holds one. -/
theorem trackBest_eq (total : Word) (mask : BitVec 3) (s : State) :
    trackBest total mask s =
      { s with
        bestPenalty := if s.bestValid = false ∨ total.toNat < s.bestPenalty.toNat then total else s.bestPenalty
        bestMask := if s.bestValid = false ∨ total.toNat < s.bestPenalty.toNat then mask else s.bestMask
        bestValid := true } := by
  cases h : s.bestValid with
  | false => simp [trackBest_of_empty h]
  | true =>
    rw [trackBest_of_held h]
    cases s
    cases h
    split <;> simp [*]

/-- R150: what a SCORE latched as `l` leaves of the state `t` with its operands loaded, `p` its hidden scan. -/
def scored (l : Latched) (t : State) (p : PscWork) : State :=
  let n := sideOf l.version
  let color := colorAt t.mem
  let total := penaltyTotal l.rule3Mode n color
  let takes := t.bestValid = false ∨ total < t.bestPenalty.toNat
  { storePenalties l.rule3Mode n color t with
    bestPenalty := if takes then BitVec.ofNat 32 total else t.bestPenalty
    bestMask := if takes then l.mask else t.bestMask
    bestValid := true
    psc := p
    done := true }

theorem finish_scoreEffect_startCommand {l : Latched} {t : State} (hidle : t.seq = .idle)
    (hn : sideOf l.version ≤ 177) : ∃ p, finish (scoreEffect l (startCommand l t)) = scored l t p := by
  have hfits := Nat.mod_eq_of_lt (penaltyTotal_lt l.rule3Mode hn (colorAt t.mem))
  refine ⟨scanToEnd l.rule3Mode (sideOf l.version) (colorAt t.mem) (startScan l t.psc), ?_⟩
  rw [scoreEffect, trackBest_eq]
  simp only [startCommand_mem, BitVec.toNat_ofNat, hfits]
  cases t
  cases hidle
  rfl

theorem exec_score {o : Operands} {s t : State} (hs : Ready s) (ht : loaded o s = t) (h1 : 1 ≤ t.version.toNat)
    (h40 : t.version.toNat ≤ 40) : ∃ p, exec (.score o) s = .next (scored (latch (.score o) t) t p) := by
  subst ht
  obtain ⟨herr, hidle⟩ := hs
  obtain ⟨p, hp⟩ := finish_scoreEffect_startCommand (l := latch (.score o) (loaded o s))
    ((loaded_seq o s).trans hidle) (sideOf_bounds h1 h40).2
  refine ⟨p, ?_⟩
  rw [exec_eq_issue, issue_of_ready _ herr hidle (operandError_of_legal_version (i := .score o) h1 h40 nofun)]
  exact congrArg Host.Outcome.next hp

/-- R150: the penalties of a light matrix of version 1, rule 3 omitted. -/
theorem penalties_of_light {color : Nat → Nat → Bool} (h : ∀ r c, r < 21 → c < 21 → color r c = false) :
    penaltyRuns 21 color = 798 ∧ penaltyBlocks 21 color = 1200 ∧ darkModules 21 color = 0 ∧
      penaltyTotal .omitted 21 color = 2098 := by
  rw [penaltyRuns_congr h, penaltyBlocks_congr h, darkModules_congr h, penaltyTotal_congr h, penaltyRuns_const,
    penaltyBlocks_const, darkModules_const, penaltyTotal_const (by decide)]
  exact ⟨rfl, rfl, rfl, rfl⟩

/-- Settles O30: an accepted SCORE leaves its effect on the loaded state, whose matrix, mode and tracker are those
before the load; a light matrix scores as one of one color. -/
theorem scoreCompletes : Obligations.ScoreCompletes := by
  refine ⟨by decide, fun dark => penaltyTotal_const (by decide) dark, by decide,
    fun o s hs => ⟨fun h1 h40 => ?_, exec_of_bad_version (i := .score o) hs rfl, ?_⟩⟩
  · obtain ⟨t, ht⟩ : ∃ t, loaded o s = t := ⟨_, rfl⟩
    have hmem : s.mem = t.mem := ht ▸ (loaded_mem o s).symm
    have hmode : s.rule3Mode = t.rule3Mode := ht ▸ (loaded_rule3Mode o s).symm
    have hvalid : s.bestValid = t.bestValid := ht ▸ (loaded_bestValid o s).symm
    have hpenalty : s.bestPenalty = t.bestPenalty := ht ▸ (loaded_bestPenalty o s).symm
    have hmask : s.bestMask = t.bestMask := ht ▸ (loaded_bestMask o s).symm
    rw [ht] at h1 h40
    rw [ht, hmem, hmode, hvalid, hpenalty, hmask]
    exact exec_score hs ht h1 h40
  · rintro rfl hmode hlight
    obtain ⟨p, hp⟩ := exec_score (o := .ld 1 0 0) hs rfl (by decide : 1 ≤ 1) (by decide : 1 ≤ 40)
    obtain ⟨hruns, hblocks, hdark, htotal⟩ := penalties_of_light hlight
    refine ⟨_, hp, ?_⟩
    rw [scored, latch_rule3Mode, loaded_rule3Mode, hmode, loaded_mem]
    exact ⟨congrArg (BitVec.ofNat 32) hruns, congrArg (BitVec.ofNat 32) hblocks, rfl,
      congrArg (fun d => BitVec.ofNat 32 (penaltyBalance 21 d)) hdark, congrArg (BitVec.ofNat 32) htotal,
      congrArg (BitVec.ofNat 15) hdark⟩

end Sys2Proof.Machine
end

section
/-! PROOF. NOP: the word of a NOP with a load, what an accepted NOP leaves, and with them the statement about it. -/

namespace Sys2Proof.Machine

open Sys2Proof.Spec

theorem encode_nop_ld {v m f : Nat} (hv : v ≤ 63) (hm : m ≤ 7) (hf : f ≤ 31) :
    encode (.nop (.ld v m f)) =
      0x80000000#32 ||| (BitVec.ofNat 32 f <<< 24) ||| (BitVec.ofNat 32 m <<< 16) ||| (BitVec.ofNat 32 v <<< 8) := by
  have hwf : (Instr.nop (.ld v m f)).wf = true := by
    simp [Instr.wf, Instr.operands, Operands.wf, Operands.ld, hv, hm, hf]
  exact (encode_of_load hwf rfl).trans (BitVec.or_zero)

/-- R180: NOP has no effect of its own, so an accepted NOP leaves the loaded state with DONE. -/
theorem exec_nop {o : Operands} {s : State} (hs : Ready s) :
    exec (.nop o) s = .next { loaded o s with done := true } := by
  rw [exec_of_ready hs rfl (operandError_of_no_version rfl s) rfl]
  rfl

/-- Settles O22: the words by the fields of an encoded word; NOP needs no version, so it is accepted with any
operands. -/
theorem nopCompletes : Obligations.NopCompletes := by
  refine ⟨by decide, fun v m f => encode_nop_ld, fun o s hs => ⟨exec_nop hs, ?_⟩⟩
  rintro rfl
  exact ⟨_, exec_nop hs, rfl, rfl, rfl, rfl, rfl⟩

end Sys2Proof.Machine
end

section
/-! PROOF. The acceptance check of a CMD write (60_exceptions.md R205), one lemma for each place where it can stop, and
with them the statements about its order and about the check after an error is cleared. -/

namespace Sys2Proof.Machine

open Sys2Proof.Spec

/-! ## The word of a decoded command -/

/-- 30_encoding.md R80, R83: the fields of a word whose reserved bits are clear make up the word. -/
theorem encode_of_decodeWord {w : Word} {i : Instr} (h : decodeWord w = .ok i) : encode i = w := by
  obtain ⟨hclear, hop⟩ := decodeWord_eq_ok_iff.mp h
  obtain ⟨hopcode, hoperands⟩ := opcodeInstr_eq_some_iff.mp hop
  have hw := w.isLt
  simp only [reservedClear, bits, Bool.and_eq_true, beq_iff_eq] at hclear
  refine BitVec.eq_of_toNat_eq ?_
  simp only [encode, hopcode, hoperands, encodeNat, wordOperands, bits, beq_iff_eq, BitVec.toNat_ofNat]
  split <;> omega

/-! ## Where the check stops -/

/-- 60_exceptions.md R205, step 2: what any CMD write does while BUSY = 1. -/
theorem cmdWrite_of_busy {s : State} (hbusy : s.busy = true) (w : Word) :
    cmdWrite w s = raiseError .busyCmd w s := by
  cases h : decodeWord w with
  | error e => rw [cmdWrite_of_illegal h, rejectIllegal, if_pos hbusy]
  | ok i =>
    rw [cmdWrite_of_command h]
    rcases admission_cases i s with ⟨herr, ha⟩ | ⟨-, -, ha⟩ | ⟨-, hfree, -⟩ | ⟨-, hfree, -⟩
    · rw [ha, raiseError_of_err herr]; rfl
    · rw [ha, encode_of_decodeWord h]; rfl
    · simp [hbusy] at hfree
    · simp [hbusy] at hfree

/-- 60_exceptions.md R205, steps 5 and 6: the errors operands can earn. -/
theorem operandError_cases (i : Instr) (s : State) :
    operandError i s = .none ∨ operandError i s = .badVersion ∨ operandError i s = .noVerWord := by
  simp only [operandError]
  split_ifs <;> simp

theorem loadedBy_rule3Mode (w : Word) (s : State) : (loadedBy w s).rule3Mode = s.rule3Mode := by
  unfold loadedBy; split <;> rfl

section Ready

variable {w : Word} {s : State} (hs : Ready s)

include hs

/-- 60_exceptions.md R205, step 3. -/
theorem cmdWrite_of_ready_of_illegalWord (hw : illegalWord w) : cmdWrite w s = withError .illegalCmd w s := by
  rw [cmdWrite_of_illegalWord hs.2 hw, raiseError_of_no_err hs.1]

theorem cmdWrite_of_operandError {i : Instr} {code : ErrorCode} (h : decodeWord w = .ok i)
    (ho : operandError i s = code) (hcode : code ≠ .none) : cmdWrite w s = withError code w s := by
  subst ho
  rcases cmdWrite_of_ready h hs with ⟨-, hc⟩ | ⟨ho, -⟩
  · rw [hc, raiseError_of_no_err hs.1, encode_of_decodeWord h]
  · exact absurd ho hcode

/-- 60_exceptions.md R202, R205. -/
theorem cmdWrite_of_badVersionWord (hw : ¬ illegalWord w) (hbad : badVersionWord w s) :
    cmdWrite w s = withError .badVersion w s := by
  obtain ⟨i, hi⟩ := (exists_decodeWord_iff w).mpr hw
  exact cmdWrite_of_operandError hs hi ((operandError_eq_badVersion_iff_word hi s).mpr hbad) nofun

/-- 60_exceptions.md R204, R205: of the two errors operands can earn, it is the second. -/
theorem cmdWrite_of_noVersionWord (hw : ¬ illegalWord w) (hgood : ¬ badVersionWord w s) (hno : noVersionWord w s) :
    cmdWrite w s = withError .noVerWord w s := by
  obtain ⟨i, hi⟩ := (exists_decodeWord_iff w).mpr hw
  refine cmdWrite_of_operandError hs hi ?_ nofun
  rcases operandError_cases i s with ho | ho | ho
  · exact absurd hno ((operandError_eq_none_iff_word hi s).mp ho).2
  · exact absurd ((operandError_eq_badVersion_iff_word hi s).mp ho) hgood
  · exact ho

/-- 60_exceptions.md R205: past every check the command of the word starts on the loaded operands. -/
theorem cmdWrite_of_accepted (hw : ¬ illegalWord w) (hgood : ¬ badVersionWord w s) (hword : ¬ noVersionWord w s) :
    ∃ i, encode i = w ∧ cmdWrite w s = startCommand (latch i (loadedBy w s)) (loadedBy w s) := by
  obtain ⟨i, hi⟩ := (exists_decodeWord_iff w).mpr hw
  refine ⟨i, encode_of_decodeWord hi, ?_⟩
  rcases cmdWrite_of_ready hi hs with ⟨ho, -⟩ | ⟨-, hc⟩
  · exact absurd ((operandError_eq_none_iff_word hi s).mpr ⟨hgood, hword⟩) ho
  · exact hc

end Ready

/-! ## The statements -/

/-- Settles O7: one lemma for each place where the check stops. -/
theorem cmdWriteFollowsTheAcceptanceOrder : Obligations.CmdWriteFollowsTheAcceptanceOrder := by
  intro w s
  refine ⟨fun herr => cmdWrite_of_err herr w, fun herr hbusy => ?_, cmdWrite_of_ready_of_illegalWord,
    cmdWrite_of_badVersionWord, cmdWrite_of_noVersionWord, fun hs hw hgood hword => ?_⟩
  · rw [cmdWrite_of_busy hbusy, raiseError_of_no_err herr]
  · obtain ⟨i, hi, hc⟩ := cmdWrite_of_accepted hs hw hgood hword
    exact ⟨latch i (loadedBy w s), _, hi, rfl, rfl, rfl, loadedBy_rule3Mode w s, hc⟩

/-- Settles O11: the STATUS write is its store, after which a CMD write in IDLE finds the block ready. -/
theorem clearingAnErrorRestoresNothingElse : Obligations.ClearingAnErrorRestoresNothingElse := by
  intro s v hclear
  refine ⟨?_, ⟨_, rfl, rfl, rfl, rfl⟩, fun w hw => ?_, fun w hidle => ?_⟩
  · rw [writeRegister_status, storeStatus, hclear]
    cases v.getLsbD 1 <;> rfl
  · rw [writeRegister_ctrl_of_sreset hw]
    exact ⟨rfl, rfl, rfl⟩
  · have hready : Ready (writeRegister .status v s) := ⟨by simp [hclear], by simp [hidle]⟩
    exact ⟨cmdWrite_of_ready_of_illegalWord hready, cmdWrite_of_badVersionWord hready,
      cmdWrite_of_noVersionWord hready, fun hw hgood hword => (busy_cmdWrite_iff hready hw).mpr ⟨hgood, hword⟩⟩

end Sys2Proof.Machine
end

section
/-! PROOF. Where errors come from and what they touch: a raised error next to a running command, the one register write
a legal host access makes, the turns that can set ERR, irq, and with them the statements about rejections, about the
sources of errors, about the first error and about the interrupt. -/

namespace Sys2Proof.Machine

open Sys2Proof.Spec

/-! ## The error fields and a running command -/

/-- 60_exceptions.md R206: the state `s` with the three error fields of `t`. -/
def withErrorsOf (t s : State) : State := { s with err := t.err, errCode := t.errCode, errInfo := t.errInfo }

theorem raiseError_eq_withErrorsOf (code : ErrorCode) (info : Word) (s : State) :
    raiseError code info s = withErrorsOf (raiseError code info s) s := by
  unfold raiseError; split <;> rfl

/-- No command reads or writes the error fields. -/
theorem effectOf_withErrorsOf (l : Latched) (t s : State) :
    effectOf l (withErrorsOf t s) = withErrorsOf t (effectOf l s) := by
  unfold effectOf
  cases l.command
  case fwrite => simp only [fwriteEffect, fwriteCells, storeMatrix, withErrorsOf]
  case vwrite => simp only [vwriteEffect, vwriteCells, storeMatrix, withErrorsOf]
  case encfv => simp only [encfvEffect, encfvCells, vcalcEffect, fcalcmEffect, storeMatrix, withErrorsOf]
  case score => simp only [scoreEffect, trackBest_eq]; rfl
  all_goals rfl

theorem writeFmtId_withErrorsOf (l : Latched) (t s : State) :
    writeFmtId l (withErrorsOf t s) = withErrorsOf t (writeFmtId l s) := by
  unfold writeFmtId; cases commandFmtId l <;> rfl

/-- 60_exceptions.md R206: a running command completes with the same results whatever the error fields hold. -/
theorem completeRunning_withErrorsOf (t s : State) :
    completeRunning (withErrorsOf t s) = withErrorsOf t (completeRunning s) := by
  cases h : s.seq with
  | idle => rw [completeRunning_idle h, completeRunning_idle (s := withErrorsOf t s) h]
  | run l =>
    rw [completeRunning_run h, completeRunning_run (s := withErrorsOf t s) h, writeFmtId_withErrorsOf,
      effectOf_withErrorsOf]
    rfl

theorem completeRunning_of_eq_withErrorsOf {s t : State} (h : t = withErrorsOf t s) :
    completeRunning t = withErrorsOf t (completeRunning s) := by
  rw [← completeRunning_withErrorsOf, ← h]

/-- 60_exceptions.md R200: the completion of a command raises no error. -/
theorem completeRunning_keeps_errors (s : State) :
    (completeRunning s).err = s.err ∧ (completeRunning s).errCode = s.errCode ∧
      (completeRunning s).errInfo = s.errInfo := by
  have h : completeRunning s = withErrorsOf s (completeRunning s) := completeRunning_withErrorsOf s s
  rw [h]
  exact ⟨rfl, rfl, rfl⟩

theorem completeRunning_done {s : State} {l : Latched} (h : s.seq = .run l) : (completeRunning s).done = true := by
  rw [completeRunning_run h, finish_done]

/-! ## Rejected writes -/

/-- Everything a CMD write can do: raise an error (dropped while ERR = 1), or, in IDLE, load the operands of its word
and start its command with them. -/
theorem cmdWrite_cases (w : Word) (s : State) :
    (∃ code info, cmdWrite w s = raiseError code info s) ∨
    (s.seq = .idle ∧ ∃ i, cmdWrite w s = startCommand (latch i (loadedBy w s)) (loadedBy w s)) := by
  cases hs : s.seq with
  | idle => exact (cmdWrite_cases_of_idle w hs).imp_right fun h => ⟨rfl, h⟩
  | run l => exact .inl ⟨_, _, cmdWrite_of_busy ((busy_eq_true_iff s).mpr ⟨l, hs⟩) w⟩

/-- 60_exceptions.md R206: a CMD write that leaves the sequencer as it was starts no command, so it raised an error. -/
theorem cmdWrite_of_rejected {w : Word} {s : State} (h : (cmdWrite w s).seq = s.seq) :
    cmdWrite w s = withErrorsOf (cmdWrite w s) s := by
  rcases cmdWrite_cases w s with ⟨code, info, hc⟩ | ⟨hidle, i, hc⟩
  · rw [hc]; exact raiseError_eq_withErrorsOf code info s
  · rw [hc, hidle] at h; cases h

/-! ## What sets ERR -/

/-- 60_exceptions.md R200: the register writes that can raise an error, of `v` to `r` in the state `s`. -/
def raisingWrite (r : Reg) (v : Word) (s : State) : Prop :=
  r = .cmd ∨ (s.busy = true ∧ r ∈ [Reg.version, .mask, .fmtId, .ctrl] ∧ (r = .ctrl → v.getLsbD 31 = false))

theorem busy_of_writeWhenIdle_raises {r : Reg} {store : State → State} {s : State}
    (hstore : (store s).err = false) (h : (writeWhenIdle r store s).err = true) : s.busy = true := by
  rcases writeWhenIdle_cases r store s with ⟨-, hw⟩ | ⟨hbusy, -⟩
  · simp [hw, hstore] at h
  · exact hbusy

theorem raisingWrite_of_raises {r : Reg} {v : Word} {s : State} (h0 : s.err = false)
    (h1 : (writeRegister r v s).err = true) : raisingWrite r v s := by
  rcases writeRegister_cases r v s with h | ⟨hr, -⟩ | ⟨-, h⟩ | ⟨-, -, h⟩ | ⟨rfl, hv, h⟩ | ⟨rfl, h⟩ | ⟨rfl, h⟩ | ⟨rfl, h⟩
  · simp [h, h0] at h1
  · exact .inl hr
  · simp [h, h0] at h1
  · simp [h, State.reset] at h1
  · exact .inr ⟨busy_of_writeWhenIdle_raises h0 (h ▸ h1), by decide, fun _ => hv⟩
  · exact .inr ⟨busy_of_writeWhenIdle_raises h0 (h ▸ h1), by decide, nofun⟩
  · exact .inr ⟨busy_of_writeWhenIdle_raises h0 (h ▸ h1), by decide, nofun⟩
  · exact .inr ⟨busy_of_writeWhenIdle_raises h0 (h ▸ h1), by decide, nofun⟩

theorem address_of_windowOffset {addr : Nat} {off : Offset} (h : windowOffset addr = some off) :
    addr = Config.qrfvBase + off.toNat := by
  unfold windowOffset at h
  split at h
  case isTrue hin =>
    cases h
    rw [BitVec.toNat_ofNat]
    omega
  case isFalse => cases h

theorem offset_of_regAt {off : Offset} {r : Reg} (h : regAt off = some r) : off = r.offset := by
  unfold regAt at h
  have hoff := List.find?_some h
  exact (beq_iff_eq.mp hoff).symm

/-- 20_memory.md R60, R61: a host write writes one register, as a 32-bit access of its address, or only gives an
answer. -/
theorem hostWrite_cases_reg (addr size : Nat) (v : Word) (s : State) :
    (∃ a, hostWrite addr size v s = answer a s) ∨
    ∃ r : Reg, addr = r.address ∧ size = 4 ∧ hostWrite addr size v s = writeRegister r v (answer .ack s) := by
  rcases hostWrite_cases addr size v s with ⟨-, h⟩ | ⟨off, hoff, hlegal, h⟩ | ⟨-, -, -, h⟩
  · exact .inl ⟨_, h⟩
  · rcases writeOffset_cases off v (answer .ack s) with ⟨r, hr, hw⟩ | ⟨-, hw⟩
    · obtain rfl := offset_of_regAt hr
      simp only [legalAccess, Bool.and_eq_true, beq_iff_eq] at hlegal
      exact .inr ⟨r, address_of_windowOffset hoff, hlegal.1, h.trans hw⟩
    · exact .inl ⟨_, h.trans hw⟩
  · exact .inl ⟨_, h⟩

/-- 60_exceptions.md R200: a turn that sets ERR is a command, or a host write of a register that can raise an error. -/
theorem runTurn_raises {t : Turn} {s s' : State} (h : runTurn t s = .next s') (h0 : s.err = false)
    (h1 : s'.err = true) :
    (∃ w, t = .command w) ∨ ∃ (r : Reg) (v : Word), t = .hostWrite r.address 4 v ∧ raisingWrite r v s := by
  have hkeeps (he : s'.err = s.err) : False := by simp [he, h0] at h1
  rcases runTurn_cases h with ⟨addr, size, v, rfl, rfl⟩ | ⟨addr, size, -, rfl⟩ | ⟨_, _, _, -, -, rfl⟩ |
    ⟨_, _, -, -, rfl⟩ | ⟨-, rfl⟩ | ⟨k, -, rfl⟩ | ⟨-, rfl⟩ | ⟨-, rfl⟩ | ⟨-, rfl⟩ | ⟨w, _, rfl, -⟩ | ⟨w, _, rfl, -⟩
  · rcases hostWrite_cases_reg addr size v s with ⟨a, ha⟩ | ⟨r, rfl, rfl, hr⟩
    · exact (hkeeps (by rw [ha]; rfl)).elim
    · rw [hr] at h1
      exact .inr ⟨r, v, rfl, raisingWrite_of_raises (s := answer .ack s) h0 h1⟩
  · obtain ⟨a, ha⟩ := hostRead_frame addr size s
    exact (hkeeps (by rw [ha]; rfl)).elim
  · exact (hkeeps rfl).elim
  · exact (hkeeps rfl).elim
  · cases h1
  · exact (hkeeps (by rw [accessMatrix_frame])).elim
  · exact (hkeeps (completeRunning_keeps_errors s).1).elim
  · exact (hkeeps (by rw [runFmtId_frame])).elim
  · exact (hkeeps (completeRunning_keeps_errors s).1).elim
  · exact .inl ⟨w, rfl⟩
  · exact .inl ⟨w, rfl⟩

/-! ## A command issued while ERR = 1 -/

/-- 60_exceptions.md R207: a command issued while ERR = 1 is dropped. -/
theorem exec_of_err {s : State} (herr : s.err = true) (i : Instr) : exec i s = .next s := by
  rcases exec_cases i s with ⟨-, h⟩ | ⟨h, -⟩ | ⟨h, -⟩ | ⟨h, -⟩
  · exact h
  all_goals simp [herr] at h

/-! ## The interrupt -/

theorem irq_eq_true_iff (s : State) : irq s = true ↔ s.irqEn = true ∧ (s.done = true ∨ s.err = true) := by
  simp [irq]

/-- No command writes IRQ_EN. -/
theorem effectOf_irqEn (l : Latched) (s : State) : (effectOf l s).irqEn = s.irqEn := by
  unfold effectOf
  cases l.command <;> simp [nopEffect, fwriteEffect, vwriteEffect, encfvEffect, scoreEffect]

theorem completeRunning_irqEn (s : State) : (completeRunning s).irqEn = s.irqEn := by
  cases h : s.seq with
  | idle => rw [completeRunning_idle h]
  | run l => rw [completeRunning_run h, finish_irqEn, effectOf_irqEn, writeFmtId_irqEn]

/-- 10_state.md R28: a CTRL write without SRESET, in IDLE. -/
theorem writeRegister_ctrl_of_idle {s : State} {v : Word} (hidle : s.seq = .idle) (hv : v.getLsbD 31 = false) :
    writeRegister .ctrl v s = storeCtrl v s := by
  rw [writeRegister_ctrl_of_no_sreset hv, writeWhenIdle_of_idle hidle]

/-! ## The statements -/

/-- Settles O9: a write that starts no command raised an error, so only the error fields differ, and these no completion
looks at. -/
theorem rejectionsChangeOnlyTheErrorFields : Obligations.RejectionsChangeOnlyTheErrorFields := by
  intro w s
  refine ⟨fun code info herr => raiseError_of_no_err herr code info, cmdWrite_of_rejected, fun l hrun => ?_⟩
  have hbusy := (busy_eq_true_iff s).mpr ⟨l, hrun⟩
  have hraise := raiseError_eq_withErrorsOf .busyCmd w s
  refine ⟨?_, fun r hr hv => ?_⟩
  · rw [cmdWrite_of_busy hbusy]
    exact ⟨completeRunning_of_eq_withErrorsOf hraise, completeRunning_done (by simpa using hrun)⟩
  · rw [writeRegister_of_busy hbusy hr hv]
    have hraise := raiseError_eq_withErrorsOf .busyWrite (r.offset.setWidth 32) s
    exact ⟨hraise, completeRunning_of_eq_withErrorsOf hraise⟩

/-- Settles O13: the turns that can set ERR, with their registers named, and the frame of a completion. -/
theorem errorsComeOnlyFromTheTwoKindsOfEvent : Obligations.ErrorsComeOnlyFromTheTwoKindsOfEvent := by
  refine ⟨fun s t hstep h0 h1 => ?_, fun s l hrun => ?_⟩
  · rcases runTurn_raises hstep h0 h1 with hw | ⟨r, v, hturn, rfl | ⟨hbusy, hr, hv⟩⟩
    · exact .inl hw
    · exact .inr (.inl ⟨v, hturn⟩)
    · refine .inr (.inr ⟨hbusy, v, ?_⟩)
      simp only [List.mem_cons, List.not_mem_nil, or_false] at hr
      rcases hr with rfl | rfl | rfl | rfl
      · exact .inl hturn
      · exact .inr (.inl hturn)
      · exact .inr (.inr (.inl hturn))
      · exact .inr (.inr (.inr ⟨hturn, hv rfl⟩))
  · exact ⟨completeRunning_done hrun, completeRunning_seq s, completeRunning_keeps_errors s⟩

/-- Settles O10: what ERR = 1 drops, and the register writes that do not look at it. -/
theorem theFirstErrorIsKept : Obligations.TheFirstErrorIsKept := by
  intro s v herr
  refine ⟨cmdWrite_of_err herr v, exec_of_err herr, fun hbusy => ?_, fun hfree => ?_, writeRegister_ctrl_of_sreset,
    ?_, ?_⟩
  · obtain ⟨-, hdropped, -⟩ := operandWritesWhileBusyAreIgnored s v hbusy
    exact hdropped herr
  · have hidle := (busy_eq_false_iff s).mp hfree
    exact ⟨writeWhenIdle_of_idle hidle _ _, writeWhenIdle_of_idle hidle _ _, writeWhenIdle_of_idle hidle _ _,
      writeRegister_ctrl_of_idle hidle⟩
  · rw [writeRegister_status, storeStatus_done]
    cases v.getLsbD 1 <;> simp
  · rw [writeRegister_status, storeStatus_err, herr]
    cases v.getLsbD 2 <;> rfl

/-- Settles O20: each clause by what its event leaves in IRQ_EN, DONE and ERR. -/
theorem interruptFollowsDoneAndErr : Obligations.InterruptFollowsDoneAndErr := by
  intro s
  refine ⟨irq_eq_true_iff s, fun l hrun hen => ?_, fun code info hen => ?_, fun hidle hpending => ?_, ?_,
    fun hidle => ?_⟩
  · exact (irq_eq_true_iff _).mpr ⟨(completeRunning_irqEn s).trans hen, .inl (completeRunning_done hrun)⟩
  · exact (irq_eq_true_iff _).mpr ⟨(raiseError_irqEn s code info).trans hen, .inr (raiseError_err s code info)⟩
  · rw [writeRegister_ctrl_of_idle hidle (by decide)]
    exact (irq_eq_true_iff _).mpr ⟨rfl, hpending⟩
  · simp [irq]
  · rw [writeRegister_ctrl_of_idle hidle (by decide)]
    simp [irq]

end Sys2Proof.Machine
end

section
/-! PROOF. Resets, and the commands they abandon: what some moves of a running command leave, the cell writes they have
made, and with them the statements about the two resets and about the cells of an abandoned command. -/

namespace Sys2Proof.Machine

open Sys2Proof.Spec

/-! ## The registers after a reset -/

/-- 10_state.md R45: after a reset a register reads as the reset state has it, whatever was in the state. -/
theorem readRegister_resetBlock (s : State) (r : Reg) : readRegister (resetBlock s) r = readRegister State.reset r := by
  cases r <;> rfl

theorem readRegister_reset (r : Reg) : readRegister State.reset r = resetValue r := by cases r <;> rfl

/-! ## The cell writes of a command -/

/-- 20_memory.md R65: a command that writes cells needs a version, and writes cells of a format word, of a version word
or of both. -/
theorem runningWrites_sublist (l : Latched) (s : State) :
    runningWrites l s = [] ∨
    (needsVersion l.command = true ∧ ∃ fw vw,
      (runningWrites l s).Sublist (formatWrites (sideOf l.version) fw ++ versionWrites l.version vw)) := by
  unfold runningWrites
  cases l.command
  case fwrite => exact .inr ⟨rfl, s.fmtWord, 0, List.sublist_append_left _ _⟩
  case vwrite => exact .inr ⟨rfl, 0, s.verWord, List.sublist_append_right _ _⟩
  case encfv => exact .inr ⟨rfl, _, _, List.Sublist.refl _⟩
  all_goals exact .inl rfl

theorem runningWrites_of_readsMatrix {l : Latched} (h : readsMatrix l = true) (s : State) : runningWrites l s = [] := by
  unfold readsMatrix at h
  unfold runningWrites
  cases hc : l.command <;> simp [hc] at h ⊢

/-- The cells that the running command writes lie inside the memory and are all different. -/
theorem runningWrites_placed {s : State} {l : Latched} (hinv : Inv s) (hrun : s.seq = .run l) :
    (∀ w ∈ runningWrites l s, w.row < 256 ∧ w.col < 256) ∧
      ((runningWrites l s).map fun w => cellAddress w.row w.col).Nodup := by
  rcases runningWrites_sublist l s with hnil | ⟨hneeds, fw, vw, hsub⟩
  · simp [hnil]
  · obtain ⟨-, -, -, -, -, hlegal, -⟩ := hinv.latched l hrun
    have hversion := hlegal hneeds
    rw [← Bool.not_eq_false, legalVersion_eq_false_iff] at hversion
    obtain ⟨hn, hn'⟩ := sideOf_bounds (v := l.version) (by omega) (by omega)
    have hinside := forall_lt_256_of_lt_side hn'
      (List.forall_mem_append.mpr ⟨formatWrites_inside hn fw, versionWrites_inside l.version vw⟩)
    exact ⟨fun w hw => hinside w (hsub.subset hw),
      (nodup_cellAddress hinside (formatWrites_append_versionWrites_nodup hn l.version fw vw)).sublist (hsub.map _)⟩

/-- A byte that cell writes go to reads as one of them writes it. -/
theorem exists_writeCells_read {m : Memory} (hm : m.wf = true) {ws : List CellWrite}
    (hlt : ∀ w ∈ ws, w.row < 256 ∧ w.col < 256) {a : Nat} (ha : ∃ w ∈ ws, cellAddress w.row w.col = a) :
    ∃ w ∈ ws, cellAddress w.row w.col = a ∧ (writeCells m ws).read a = w.cell.toByte := by
  induction ws generalizing m with
  | nil => simp at ha
  | cons v vs ih =>
    obtain ⟨hv, hvs⟩ := List.forall_mem_cons.mp hlt
    by_cases hlater : ∃ w ∈ vs, cellAddress w.row w.col = a
    · obtain ⟨w, hw, hread⟩ := ih (matWrite_wf hm v.cell hv.1 hv.2) hvs hlater
      exact ⟨w, List.mem_cons_of_mem v hw, hread⟩
    · obtain rfl : cellAddress v.row v.col = a := by
        obtain ⟨w, hw, ha⟩ := ha
        rcases List.mem_cons.mp hw with rfl | hw
        · exact ha
        · exact absurd ⟨w, hw, ha⟩ hlater
      refine ⟨v, List.mem_cons_self, rfl, ?_⟩
      rw [writeCells_cons, writeCells_read_other _ vs fun w hw h => hlater ⟨w, hw, h⟩]
      exact Memory.read_write_same hm _ _

/-! ## Some moves of a running command -/

@[simp] theorem moves_cons_access (k : Nat) (ks : List (Option Nat)) (s : State) :
    moves (some k :: ks) s = moves ks (accessMatrix k s) := rfl

@[simp] theorem moves_cons_fmtId (ks : List (Option Nat)) (s : State) :
    moves (none :: ks) s = moves ks (runFmtId s) := rfl

/-- The cell writes that some moves of the running command make, one after the other. -/
def madeWrites (l : Latched) (s : State) (ks : List (Option Nat)) : List CellWrite :=
  ks.filterMap fun k => k.bind fun k => (runningWrites l s)[k]?

theorem madeWrites_cons_access (l : Latched) (s : State) (k : Nat) (ks : List (Option Nat)) :
    madeWrites l s (some k :: ks) = (runningWrites l s)[k]?.toList ++ madeWrites l s ks := by
  unfold madeWrites
  cases h : (runningWrites l s)[k]? with
  | some w => exact List.filterMap_cons_some h
  | none => exact List.filterMap_cons_none h

theorem mem_madeWrites {l : Latched} {s : State} {ks : List (Option Nat)} {w : CellWrite} :
    w ∈ madeWrites l s ks ↔ ∃ k, some k ∈ ks ∧ (runningWrites l s)[k]? = some w := by
  simp only [madeWrites, List.mem_filterMap, Option.bind_eq_some_iff]
  constructor
  · rintro ⟨_, hks, k, rfl, hk⟩
    exact ⟨k, hks, hk⟩
  · rintro ⟨k, hks, hk⟩
    exact ⟨_, hks, k, rfl, hk⟩

theorem madeWrites_subset (l : Latched) (s : State) (ks : List (Option Nat)) :
    madeWrites l s ks ⊆ runningWrites l s := by
  intro w hw
  obtain ⟨k, -, hk⟩ := mem_madeWrites.mp hw
  exact List.mem_of_getElem? hk

/-- 20_memory.md R65: a command writes the same cells whatever its moves change meanwhile. -/
theorem runningWrites_congr (l : Latched) {s t : State}
    (h : t = { s with fmtId := t.fmtId, psc := t.psc, mem := t.mem }) : runningWrites l t = runningWrites l s := by
  rw [h]
  unfold runningWrites
  cases l.command <;> rfl

theorem madeWrites_congr (l : Latched) {s t : State}
    (h : t = { s with fmtId := t.fmtId, psc := t.psc, mem := t.mem }) (ks : List (Option Nat)) :
    madeWrites l t ks = madeWrites l s ks := by simp only [madeWrites, runningWrites_congr l h]

@[simp] theorem readNextCell_mem (l : Latched) (s : State) : (readNextCell l s).mem = s.mem := by
  unfold readNextCell; split <;> rfl

theorem accessMatrix_mem {s : State} {l : Latched} (hrun : s.seq = .run l) (k : Nat) :
    (accessMatrix k s).mem = writeCells s.mem (runningWrites l s)[k]?.toList := by
  simp only [accessMatrix, hrun]
  cases (runningWrites l s)[k]? with
  | some w => rfl
  | none => exact readNextCell_mem l s

/-- 10_state.md R40: some moves of the running command leave the matrix memory with the writes they have made. -/
theorem moves_mem {s : State} {l : Latched} (hrun : s.seq = .run l) (ks : List (Option Nat)) :
    (moves ks s).mem = writeCells s.mem (madeWrites l s ks) := by
  induction ks generalizing s with
  | nil => rfl
  | cons move ks ih =>
    cases move with
    | some k =>
      have hframe : accessMatrix k s = { s with
          fmtId := (accessMatrix k s).fmtId, psc := (accessMatrix k s).psc, mem := (accessMatrix k s).mem } := by
        rw [accessMatrix_frame]
      have hrun' : (accessMatrix k s).seq = .run l := by rw [hframe]; exact hrun
      rw [moves_cons_access, ih hrun', madeWrites_congr l hframe, accessMatrix_mem hrun, madeWrites_cons_access,
        writeCells_append]
    | none =>
      have hframe : runFmtId s =
          { s with fmtId := (runFmtId s).fmtId, psc := (runFmtId s).psc, mem := (runFmtId s).mem } := by
        rw [runFmtId_frame]
      have hrun' : (runFmtId s).seq = .run l := by rw [hframe]; exact hrun
      have hmem : (runFmtId s).mem = s.mem := by rw [runFmtId_frame]
      rw [moves_cons_fmtId, ih hrun', madeWrites_congr l hframe, hmem]
      rfl

section Moved

variable {s : State} {l : Latched} (hinv : Inv s) (hrun : s.seq = .run l) (ks : List (Option Nat))

include hinv hrun

/-- 70_reset_and_hazards.md R244: each byte is as before or as a write of the command leaves it. -/
theorem moves_read_old_or_written (a : Nat) :
    (moves ks s).mem.read a = s.mem.read a ∨
      ∃ w ∈ runningWrites l s, cellAddress w.row w.col = a ∧ (moves ks s).mem.read a = w.cell.toByte := by
  obtain ⟨hlt, -⟩ := runningWrites_placed hinv hrun
  have hsub := madeWrites_subset l s ks
  rw [moves_mem hrun]
  by_cases hhit : ∃ w ∈ madeWrites l s ks, cellAddress w.row w.col = a
  · obtain ⟨w, hw, hread⟩ := exists_writeCells_read hinv.memory (fun w hw => hlt w (hsub hw)) hhit
    exact .inr ⟨w, hsub hw, hread⟩
  · exact .inl (writeCells_read_other _ _ fun w hw h => hhit ⟨w, hw, h⟩)

/-- The cell of the command's `k`-th write reads as written exactly when one of the moves was that write. -/
theorem matRead_moves {k : Nat} {w : CellWrite} (hk : (runningWrites l s)[k]? = some w) :
    matRead (moves ks s).mem w.row w.col = if some k ∈ ks then w.cell else matRead s.mem w.row w.col := by
  obtain ⟨hlt, hd⟩ := runningWrites_placed hinv hrun
  have hsub := madeWrites_subset l s ks
  have honly {v : CellWrite} (hv : v ∈ madeWrites l s ks)
      (h : cellAddress v.row v.col = cellAddress w.row w.col) : v = w :=
    List.inj_on_of_nodup_map hd (hsub hv) (List.mem_of_getElem? hk) h
  rw [moves_mem hrun, matRead]
  split
  case isTrue hks =>
    have hw : w ∈ madeWrites l s ks := mem_madeWrites.mpr ⟨k, hks, hk⟩
    obtain ⟨v, hv, ha, hread⟩ := exists_writeCells_read hinv.memory (fun w hw => hlt w (hsub hw)) ⟨w, hw, rfl⟩
    rw [hread, honly hv ha, CellRec.ofByte_toByte]
  case isFalse hks =>
    rw [writeCells_read_other _ _ fun v hv ha => ?_, matRead]
    obtain ⟨j, hj, hjw⟩ := mem_madeWrites.mp hv
    have hlen : j < (runningWrites l s).length := (List.getElem?_eq_some_iff.mp hjw).1
    have hjk : j = k := (List.getElem?_inj hlen hd.of_map).mp (by rw [hjw, hk, honly hv ha])
    exact hks (hjk ▸ hj)

end Moved

/-! ## The statements -/

/-- Settles O21: a CTRL write with SRESET and the reset input are the same reset, which takes every register from the
reset state and the matrix memory from the present one. -/
theorem resetsRestoreEveryRegisterAndKeepTheMatrix : Obligations.ResetsRestoreEveryRegisterAndKeepTheMatrix := by
  intro s v hv
  exact ⟨writeRegister_ctrl_of_sreset hv, rfl, fun r => (readRegister_resetBlock s r).trans (readRegister_reset r), rfl,
    rfl, rfl⟩

/-- Settles O57: a reset keeps the memory that the moves left, and these write only cells of the command; moves that make
just the chosen writes leave just their cells new. -/
theorem abandonedCommandsLeaveOldOrNewCells : Obligations.AbandonedCommandsLeaveOldOrNewCells := by
  intro s l hinv hrun
  refine ⟨fun ks => ⟨⟨_, _, _, _, rfl⟩, moves_read_old_or_written hinv hrun ks, fun hreads => ?_⟩, fun landed => ?_⟩
  · have hnone : madeWrites l s ks = [] :=
      List.subset_nil.mp (runningWrites_of_readsMatrix hreads s ▸ madeWrites_subset l s ks)
    rw [moves_mem hrun, hnone, writeCells_nil]
  · refine ⟨((List.range (runningWrites l s).length).filter landed).map some, fun k w hk => ?_⟩
    have hlen : k < (runningWrites l s).length := (List.getElem?_eq_some_iff.mp hk).1
    rw [resetBlock_mem, matRead_moves hinv hrun _ hk]
    simp [hlen]

end Sys2Proof.Machine
end

section
/-! PROOF. The code of the command words: the operands a word carries, the words as bytes and as table words, and with
them the statements that decoding and encoding are inverse and that a step runs the decoded command. -/

namespace Sys2Proof.Machine

open Sys2Proof.Spec

/-! ## The operands of a word -/

/-- 30_encoding.md R80: every operand a word carries fits its field. -/
theorem wordOperands_wf (w : Word) : (wordOperands w).wf = true := by
  have hfield (hi lo : Nat) : bits w hi lo < 2 ^ (hi + 1 - lo) := Nat.mod_lt _ (Nat.two_pow_pos _)
  simp only [Operands.wf, Bool.and_eq_true, decide_eq_true_eq]
  exact ⟨⟨Nat.le_of_lt_succ (hfield 13 8), Nat.le_of_lt_succ (hfield 18 16)⟩, Nat.le_of_lt_succ (hfield 28 24)⟩

/-- 30_encoding.md R86: the word of operands that fit their fields carries these operands. -/
theorem wordOperands_encodeNat {o : Operands} (ho : o.wf = true) {op : Nat} (hop : op ≤ 8) :
    wordOperands (BitVec.ofNat 32 (encodeNat o op)) = o := by
  simp only [Operands.wf, Bool.and_eq_true, decide_eq_true_eq] at ho
  have hword : (BitVec.ofNat 32 (encodeNat o op)).toNat = encodeNat o op := by
    rw [BitVec.toNat_ofNat, encodeNat]
    split <;> omega
  simp only [wordOperands, bits, hword]
  obtain ⟨load, v, m, f⟩ := o
  dsimp only at ho
  cases load <;>
  · simp only [encodeNat, Operands.mk.injEq, beq_eq_decide, decide_eq_true_eq, decide_eq_false_iff_not,
      Bool.false_eq_true, if_true, if_false]
    omega

/-- 30_encoding.md R80, R86: a well-formed command reads back from its word. -/
theorem decodeWord_encode {i : Instr} (hi : i.wf = true) : decodeWord (encode i) = .ok i := by
  obtain ⟨hclear, hop, -⟩ := Laws.LegalWord.of_fields hi (opcode_le_eight i)
  exact decodeWord_eq_ok_iff.mpr
    ⟨hclear, opcodeInstr_eq_some_iff.mpr ⟨hop.symm, (wordOperands_encodeNat hi (opcode_le_eight i)).symm⟩⟩

theorem wf_of_decodeWord {w : Word} {i : Instr} (h : decodeWord w = .ok i) : i.wf = true := by
  rw [Instr.wf, operands_of_decodeWord h]
  exact wordOperands_wf w

/-! ## The other two forms of a word -/

/-- 20_memory.md R62: the four bytes of a word make up the word. -/
theorem decodeBytes_bytesOfWord (w : Word) : decodeBytes (bytesOfWord w) = decodeWord w := by
  have hbytes : wordOfBytes (w.extractLsb' 0 8) (w.extractLsb' 8 8) (w.extractLsb' 16 8) (w.extractLsb' 24 8) = w := by
    have hw := w.isLt
    refine BitVec.eq_of_toNat_eq ?_
    simp only [wordOfBytes, toNat_append_eq_add, BitVec.extractLsb'_toNat, Nat.shiftRight_eq_div_pow]
    omega
  exact congrArg decodeWord hbytes

theorem decodeTableWord_toNat (w : Word) : decodeTableWord 32 w.toNat = (decodeWord w).toOption := by
  rw [decodeTableWord, if_pos ⟨w.isLt, w.isLt⟩, BitVec.ofNat_toNat, BitVec.setWidth_eq, decodeBytes_bytesOfWord]

/-! ## The statements -/

/-- Settles O2: the three decoders read one word, whose fields are those of the command. -/
theorem decodeReadsBackEveryEncodedCommand : Obligations.DecodeReadsBackEveryEncodedCommand := by
  intro i hi
  rw [decodeBytes_bytesOfWord, decodeTableWord_toNat, decodeWord_encode hi]
  exact ⟨rfl, rfl, rfl⟩

/-- Settles O3: what a word decodes to carries the operands of its fields, and these make up the word. -/
theorem decodedWordsEncodeBack : Obligations.DecodedWordsEncodeBack :=
  fun _ _ h => ⟨wf_of_decodeWord h, encode_of_decodeWord h⟩

/-- Settles O1: twelve fixed words, decoded. -/
theorem specWordsDecodeToTheirCommands : Obligations.SpecWordsDecodeToTheirCommands := by
  unfold Obligations.SpecWordsDecodeToTheirCommands
  decide

theorem runCommand_of_decodeWord {w : Word} {i : Instr} (h : decodeWord w = .ok i) (s : State) :
    runCommand w s = exec i (answer .ack s) := by rw [runCommand, h]

theorem runCommand_of_error {w : Word} {e : DecodeError} (h : decodeWord w = .error e) (s : State) :
    runCommand w s = .next (rejectIllegal w (answer .ack s)) := by rw [runCommand, h]

theorem step_withFetchWord (s : State) (w : Word) : step (s.withFetchWord 32 w.toNat) = runCommand w s := by
  rw [State.withFetchWord, BitVec.ofNat_toNat, BitVec.setWidth_eq]
  rfl

/-- Settles O5: the turn of a command word is `runCommand` from the state with that turn taken off. -/
theorem stepRunsTheDecodedCommand : Obligations.StepRunsTheDecodedCommand := by
  refine fun s w => ⟨fun i rest hs h => ?_, fun e rest hs h => ?_, fun i h => ?_⟩
  · exact (step_of_turn hs).trans (runCommand_of_decodeWord h _)
  · exact (step_of_turn hs).trans (runCommand_of_error h _)
  · exact (step_withFetchWord s w).trans (runCommand_of_decodeWord h _)

end Sys2Proof.Machine
end

section
/-! PROOF. A step as a chain of elementary changes of the state: whatever each change keeps, every step keeps. With it
the state invariant of every step. -/

namespace Sys2Proof.Machine

open Sys2Proof.Spec

/-! ## The elementary changes -/

/-- The elementary changes of the state that a step is made of, each with what is known when it happens. -/
inductive Move (s : State) : State → Prop
  /-- the host's side: the turns still to be taken and the last answer -/
  | host (ts : List Turn) (r : Reply) : Move s (withSchedule ts (answer r s))
  /-- 60_exceptions.md R206 -/
  | raise {code : ErrorCode} (info : Word) (hcode : code ≠ .none) : Move s (raiseError code info s)
  /-- 10_state.md R26 -/
  | status (v : Word) : Move s (storeStatus v s)
  /-- 70_reset_and_hazards.md R230 to R232 -/
  | reset : Move s (resetBlock s)
  /-- 10_state.md R28 -/
  | ctrl (v : Word) (hidle : s.seq = .idle) : Move s (storeCtrl v s)
  /-- 10_state.md R29 -/
  | version (v : BitVec 6) (hidle : s.seq = .idle) : Move s (storeVersion v s)
  /-- 10_state.md R30 -/
  | mask (m : BitVec 3) (hidle : s.seq = .idle) : Move s (storeMask m s)
  /-- 10_state.md R31 -/
  | fmtId (f : BitVec 5) (hidle : s.seq = .idle) : Move s (storeFmtId f s)
  /-- 60_exceptions.md R205: a command is accepted -/
  | start {i : Instr} (hwf : i.wf = true) (hs : Ready s) (ho : operandError i s = .none) :
      Move s (startCommand (latch i (loadOperands i.operands s)) (loadOperands i.operands s))
  /-- 20_memory.md R69 -/
  | cell (row col : Coord) (c : CellRec) (hfree : ownsCell s row.toNat col.toNat = false) :
      Move s (storeMatrix (matWrite s.mem row.toNat col.toNat c) s)
  /-- 20_memory.md R65, R66 -/
  | access (k : Nat) : Move s (accessMatrix k s)
  /-- 10_state.md R31 -/
  | runFmtId : Move s (runFmtId s)
  /-- 10_state.md R40 -/
  | complete : Move s (completeRunning s)

/-- The state `t` can be reached from `s` by elementary changes. -/
abbrev Moves (s t : State) : Prop := Relation.ReflTransGen Move s t

theorem Move.answer (r : Reply) (s : State) : Move s (answer r s) := .host s.schedule r

theorem Move.popTurn (s : State) : Move s (popTurn s) := .host s.schedule.tail s.reply

/-! ## What the operations are made of -/

theorem rejectIllegal_moves (w : Word) (s : State) : Moves s (rejectIllegal w s) := by
  rcases rejectIllegal_cases w s with ⟨-, h⟩ | ⟨-, -, h⟩ | ⟨-, -, h⟩ <;> rw [h]
  · exact .single (.raise w nofun)
  · exact .single (.raise w nofun)

/-- 60_exceptions.md R205: a command is turned away or started. -/
theorem admission_moves {i : Instr} (hwf : i.wf = true) (s : State) : Moves s (admission i s).state := by
  rcases admission_cases i s with ⟨-, h⟩ | ⟨-, -, h⟩ | ⟨-, -, ho, h⟩ | ⟨herr, hfree, ho, h⟩ <;> rw [h]
  · exact .refl
  · exact .single (.raise _ nofun)
  · exact .single (.raise _ ho)
  · exact .single (.start hwf ⟨herr, (busy_eq_false_iff s).mp hfree⟩ ho)

theorem cmdWrite_moves (w : Word) (s : State) : Moves s (cmdWrite w s) := by
  cases h : decodeWord w with
  | ok i => exact cmdWrite_of_command h s ▸ admission_moves (wf_of_decodeWord h) s
  | error e => exact cmdWrite_of_illegal h s ▸ rejectIllegal_moves w s

theorem writeWhenIdle_moves (r : Reg) {store : State → State} {s : State}
    (hstore : s.seq = .idle → Move s (store s)) : Moves s (writeWhenIdle r store s) := by
  rcases writeWhenIdle_cases r store s with ⟨hfree, h⟩ | ⟨-, h⟩ <;> rw [h]
  · exact .single (hstore ((busy_eq_false_iff s).mp hfree))
  · exact .single (.raise _ nofun)

theorem writeRegister_moves (r : Reg) (v : Word) (s : State) : Moves s (writeRegister r v s) := by
  rcases writeRegister_cases r v s with h | ⟨-, h⟩ | ⟨-, h⟩ | ⟨-, -, h⟩ | ⟨-, -, h⟩ | ⟨-, h⟩ | ⟨-, h⟩ | ⟨-, h⟩ <;> rw [h]
  · exact cmdWrite_moves v s
  · exact .single (.status v)
  · exact .single .reset
  · exact writeWhenIdle_moves _ (.ctrl v)
  · exact writeWhenIdle_moves _ (.version _)
  · exact writeWhenIdle_moves _ (.mask _)
  · exact writeWhenIdle_moves _ (.fmtId _)

theorem hostWrite_moves (addr size : Nat) (v : Word) (s : State) : Moves s (hostWrite addr size v s) := by
  rcases hostWrite_cases_reg addr size v s with ⟨a, h⟩ | ⟨r, -, -, h⟩ <;> rw [h]
  · exact .single (.answer a s)
  · exact .head (.answer .ack s) (writeRegister_moves r v _)

/-- 10_state.md R40: a command run at once is started and completes. -/
theorem exec_cases_completeRunning (i : Instr) (s : State) :
    exec i s = .next (admission i s).state ∨
    (Ready s ∧ operandError i s = .none ∧
      exec i s = .next (completeRunning
        (startCommand (latch i (loadOperands i.operands s)) (loadOperands i.operands s)))) := by
  rw [exec_eq_issue]
  rcases admission_cases i s with ⟨-, h⟩ | ⟨-, -, h⟩ | ⟨-, -, -, h⟩ | ⟨herr, hfree, ho, -⟩
  · exact .inl (by rw [issue_of_rejected _ h, h]; rfl)
  · exact .inl (by rw [issue_of_rejected _ h, h]; rfl)
  · exact .inl (by rw [issue_of_rejected _ h, h]; rfl)
  · have hidle := (busy_eq_false_iff s).mp hfree
    exact .inr ⟨⟨herr, hidle⟩, ho, issue_of_ready _ herr hidle ho⟩

theorem exec_moves {i : Instr} (hwf : i.wf = true) {s t : State} (h : exec i s = .next t) : Moves s t := by
  rcases exec_cases_completeRunning i s with he | ⟨hs, ho, he⟩ <;> rw [he] at h <;> cases h
  · exact admission_moves hwf s
  · exact .tail (.single (.start hwf hs ho)) .complete

/-- Every step is made of elementary changes. -/
theorem step_moves {s t : State} (h : step s = .next t) : Moves s t := by
  refine .head (.popTurn s) ?_
  rcases runTurn_cases h with ⟨addr, size, v, -, rfl⟩ | ⟨addr, size, -, rfl⟩ | ⟨row, col, c, -, hfree, rfl⟩ |
    ⟨row, col, -, -, rfl⟩ | ⟨-, rfl⟩ | ⟨k, -, rfl⟩ | ⟨-, rfl⟩ | ⟨-, rfl⟩ | ⟨-, rfl⟩ | ⟨w, i, -, hi, he⟩ | ⟨w, e, -, -, rfl⟩
  · exact hostWrite_moves addr size v _
  · obtain ⟨r, hr⟩ := hostRead_frame addr size (popTurn s)
    exact hr ▸ .single (.answer r _)
  · exact .head (.answer .ack _) (.single (.cell row col c hfree))
  · exact .single (.answer _ _)
  · exact .single .reset
  · exact .single (.access k)
  · exact .single .complete
  · exact .single .runFmtId
  · exact .head .complete (.single (.answer _ _))
  · exact .head (.answer .ack _) (exec_moves (wf_of_decodeWord hi) he)
  · exact .head (.answer .ack _) (rejectIllegal_moves w _)

/-- What every elementary change keeps, every chain of them keeps. -/
theorem Moves.keeps {P : State → Prop} (hP : ∀ {s t : State}, P s → Move s t → P t) {s t : State} (h : Moves s t)
    (hs : P s) : P t := by
  induction h with
  | refl => exact hs
  | tail _ hmove ih => exact hP ih hmove

/-! ## What a command's effect leaves unchanged -/

/-- 10_state.md R33, 20_memory.md R74: an effect writes result registers, the hidden scan and the matrix. -/
theorem effectOf_frame (l : Latched) (s : State) :
    effectOf l s =
      { s with
        fmtWord := (effectOf l s).fmtWord, verWord := (effectOf l s).verWord, verValid := (effectOf l s).verValid
        penTotal := (effectOf l s).penTotal, penR1 := (effectOf l s).penR1, penR2 := (effectOf l s).penR2
        penR3 := (effectOf l s).penR3, penR4 := (effectOf l s).penR4, darkCount := (effectOf l s).darkCount
        bestPenalty := (effectOf l s).bestPenalty, bestMask := (effectOf l s).bestMask
        bestValid := (effectOf l s).bestValid, psc := (effectOf l s).psc, mem := (effectOf l s).mem } := by
  obtain ⟨command, version, mask, fmtId, mode⟩ := l
  cases command
  case fwrite => simp only [effectOf, fwriteEffect, storeMatrix]
  case vwrite => simp only [effectOf, vwriteEffect, storeMatrix]
  case encfv => simp only [effectOf, encfvEffect, vcalcEffect, fcalcmEffect, storeMatrix]
  case score => simp only [effectOf, scoreEffect, trackBest_eq]; rfl
  all_goals rfl

/-- 20_memory.md R65: an effect makes the cell writes of its command. -/
theorem effectOf_mem (l : Latched) (s : State) : (effectOf l s).mem = writeCells s.mem (runningWrites l s) := by
  obtain ⟨command, version, mask, fmtId, mode⟩ := l
  cases command
  case fwrite => simp only [effectOf, fwriteEffect, storeMatrix_mem, runningWrites]
  case vwrite => simp only [effectOf, vwriteEffect, storeMatrix_mem, runningWrites]
  case encfv => simp only [effectOf, encfvEffect, vcalcEffect_mem, fcalcmEffect_mem, storeMatrix_mem, runningWrites]
  case score => simp [effectOf, scoreEffect, runningWrites]
  all_goals rfl

/-- 40_format_version.md R122, R125: the commands that write VER_WORD and VER_VALID write both for their version. -/
theorem effectOf_version_word (l : Latched) (s : State) :
    ((effectOf l s).verWord = s.verWord ∧ (effectOf l s).verValid = s.verValid) ∨
    (needsVersion l.command = true ∧ (effectOf l s).verWord = versionEntry l.version ∧
      (effectOf l s).verValid = hasVersionWord l.version) := by
  obtain ⟨command, version, mask, fmtId, mode⟩ := l
  cases command
  case vcalc => exact .inr ⟨rfl, rfl, rfl⟩
  case encfv => exact .inr ⟨rfl, by simp [effectOf, encfvEffect], by simp [effectOf, encfvEffect]⟩
  case fwrite => exact .inl (by simp [effectOf, fwriteEffect])
  case vwrite => exact .inl (by simp [effectOf, vwriteEffect])
  case score => exact .inl (by simp [effectOf, scoreEffect])
  all_goals exact .inl ⟨rfl, rfl⟩

theorem effectOf_tracker {l : Latched} {s : State} (h : TrackerAgrees s) : TrackerAgrees (effectOf l s) := by
  obtain ⟨command, version, mask, fmtId, mode⟩ := l
  cases command
  case bestclr => exact fun _ => ⟨rfl, rfl⟩
  case fwrite => simpa [TrackerAgrees, effectOf, fwriteEffect] using h
  case vwrite => simpa [TrackerAgrees, effectOf, vwriteEffect] using h
  case encfv => simpa [TrackerAgrees, effectOf, encfvEffect] using h
  case score =>
    intro hempty
    simp only [effectOf, scoreEffect, trackBest_eq] at hempty
    cases hempty
  all_goals exact h

/-! ## The invariant -/

theorem legalVersion_eq_true_iff (v : BitVec 6) : legalVersion v = true ↔ 1 ≤ v.toNat ∧ v.toNat ≤ 40 := by
  rw [← Bool.not_eq_false, legalVersion_eq_false_iff]
  omega

/-- 60_exceptions.md R205, R202, R204: the operand registers a command latches passed the acceptance check. -/
theorem operandError_none_latched {i : Instr} {s : State} (ho : operandError i s = .none) :
    (needsVersion i = true → legalVersion (loadOperands i.operands s).version = true) ∧
      (needsVersionWord i = true → hasVersionWord (loadOperands i.operands s).version = true →
        (loadOperands i.operands s).verValid = true) := by
  obtain ⟨hversion, hword⟩ := (operandError_eq_none_iff i s).mp ho
  rw [effectiveVersion_eq, effectiveVerValid_eq] at *
  simp only [not_and, Bool.not_eq_false] at hversion hword
  exact ⟨hversion, hword⟩

theorem inv_raiseError {s : State} (h : Inv s) {code : ErrorCode} (info : Word) (hcode : code ≠ .none) :
    Inv (raiseError code info s) := by
  cases herr : s.err with
  | true => rwa [raiseError_of_err herr]
  | false =>
    rw [raiseError_of_no_err herr]
    exact ⟨h.memory, ⟨nofun, fun _ => hcode⟩, h.versionWord, h.tracker, h.mode, h.latched, h.params⟩

theorem inv_clearDone {s : State} (h : Inv s) : Inv (clearDone s) :=
  ⟨h.memory, h.errors, h.versionWord, h.tracker, h.mode, h.latched, h.params⟩

theorem inv_clearError {s : State} (h : Inv s) : Inv (clearError s) :=
  ⟨h.memory, ⟨fun _ => ⟨rfl, rfl⟩, nofun⟩, h.versionWord, h.tracker, h.mode, h.latched, h.params⟩

theorem inv_storeStatus {s : State} (h : Inv s) (v : Word) : Inv (storeStatus v s) := by
  unfold storeStatus
  cases v.getLsbD 1 <;> cases v.getLsbD 2
  · exact h
  · exact inv_clearError h
  · exact inv_clearDone h
  · exact inv_clearError (inv_clearDone h)

theorem inv_resetBlock {s : State} (h : Inv s) : Inv (resetBlock s) :=
  ⟨h.memory, ⟨fun _ => ⟨rfl, rfl⟩, nofun⟩, nofun, fun _ => ⟨rfl, rfl⟩, nofun, nofun, h.params⟩

/-- Nothing is latched in IDLE. -/
theorem latchAgrees_of_idle {s : State} (h : s.seq = .idle) : LatchAgrees s := by
  intro l hl
  rw [h] at hl
  cases hl

/-- 10_state.md R28: the mode a CTRL write stores is implemented. -/
theorem modeImplemented_storeCtrl (v : Word) (s : State) : ModeImplemented (storeCtrl v s) := by
  intro hmode
  rw [storeCtrl_rule3Mode, Rule3Mode.ofBits] at hmode
  split at hmode
  case isTrue h =>
    rw [Bool.and_eq_true] at h
    exact h.2
  case isFalse => cases hmode

theorem inv_loadOperands {s : State} (h : Inv s) (hidle : s.seq = .idle) (o : Operands) : Inv (loadOperands o s) := by
  unfold loadOperands
  split
  · exact ⟨h.memory, h.errors, nofun, h.tracker, h.mode, latchAgrees_of_idle hidle, h.params⟩
  · exact h

/-- 60_exceptions.md R205: an accepted command runs with what the registers hold. -/
theorem inv_startCommand {s : State} (h : Inv s) {i : Instr} (hwf : i.wf = true) (hidle : s.seq = .idle)
    (ho : operandError i s = .none) :
    Inv (startCommand (latch i (loadOperands i.operands s)) (loadOperands i.operands s)) := by
  obtain ⟨hversion, hword⟩ := operandError_none_latched ho
  obtain ⟨hmem, herr, hver, htracker, hmode, -, hparams⟩ := inv_loadOperands h hidle i.operands
  refine ⟨hmem, herr, hver, htracker, hmode, ?_, hparams⟩
  rintro l ⟨⟩
  exact ⟨hwf, rfl, rfl, .inl rfl, rfl, hversion, hword⟩

theorem inv_storeMatrix {s : State} (h : Inv s) {m : Memory} (hm : m.wf = true) : Inv (storeMatrix m s) :=
  ⟨hm, h.errors, h.versionWord, h.tracker, h.mode, h.latched, h.params⟩

theorem inv_psc {s : State} (h : Inv s) (p : PscWork) : Inv { s with psc := p } :=
  ⟨h.memory, h.errors, h.versionWord, h.tracker, h.mode, h.latched, h.params⟩

theorem inv_accessMatrix {s : State} (h : Inv s) (k : Nat) : Inv (accessMatrix k s) := by
  rcases accessMatrix_cases k s with ha | ⟨l, w, hrun, hw, ha⟩ | ⟨l, -, -, ha⟩ <;> rw [ha]
  · exact h
  · obtain ⟨hlt, -⟩ := runningWrites_placed h hrun
    exact inv_storeMatrix h (matWrite_wf h.memory w.cell (hlt w hw).1 (hlt w hw).2)
  · exact inv_psc h _

/-- 10_state.md R31: the FMT_ID a command writes is the one the latch allows. -/
theorem inv_writeFmtId {s : State} (h : Inv s) {l : Latched} (hrun : s.seq = .run l) : Inv (writeFmtId l s) := by
  cases hf : commandFmtId l with
  | none => rwa [writeFmtId_none hf]
  | some f =>
    rw [writeFmtId, hf]
    refine ⟨h.memory, h.errors, h.versionWord, h.tracker, h.mode, fun l' hl' => ?_, h.params⟩
    obtain rfl : l = l' := Sequencer.run.inj (hrun.symm.trans hl')
    obtain ⟨hwf, hversion, hmask, -, hrest⟩ := h.latched l hrun
    exact ⟨hwf, hversion, hmask, .inr hf, hrest⟩

theorem inv_runFmtId {s : State} (h : Inv s) : Inv (runFmtId s) := by
  cases hs : s.seq with
  | idle => rwa [runFmtId_idle hs]
  | run l => exact runFmtId_run hs ▸ inv_writeFmtId h hs

/-- 10_state.md R26: the version word an effect leaves is the present version's. -/
theorem versionWordAgrees_effectOf {s : State} (h : Inv s) {l : Latched} (hrun : s.seq = .run l) :
    VersionWordAgrees (effectOf l s) := by
  obtain ⟨-, hversion, -, -, -, hlegal, -⟩ := h.latched l hrun
  have hkeeps : (effectOf l s).version = s.version := by rw [effectOf_frame]
  intro hvalid
  rw [hkeeps]
  rcases effectOf_version_word l s with ⟨hword, hsame⟩ | ⟨hneeds, hword, hhas⟩
  · rw [hword]
    exact h.versionWord (hsame ▸ hvalid)
  · have hhas := hhas.symm.trans hvalid
    rw [hword, ← hversion, versionEntry, if_pos hhas]
    exact ⟨hlegal hneeds, hhas, rfl⟩

theorem inv_finish_effectOf {s : State} (h : Inv s) {l : Latched} (hrun : s.seq = .run l) :
    Inv (finish (effectOf l s)) := by
  have hmem : (effectOf l s).mem.wf = true := by
    rw [effectOf_mem]
    exact writeCells_wf h.memory (runningWrites_placed h hrun).1
  have herr : ErrorFieldsAgree (effectOf l s) := by rw [effectOf_frame]; exact h.errors
  have hmode : ModeImplemented (effectOf l s) := by rw [effectOf_frame]; exact h.mode
  have hparams : (effectOf l s).params.legal = true := by rw [effectOf_frame]; exact h.params
  exact ⟨hmem, herr, versionWordAgrees_effectOf h hrun, effectOf_tracker h.tracker, hmode, nofun, hparams⟩

theorem inv_completeRunning {s : State} (h : Inv s) : Inv (completeRunning s) := by
  cases hs : s.seq with
  | idle => rwa [completeRunning_idle hs]
  | run l =>
    rw [completeRunning_run hs]
    exact inv_finish_effectOf (inv_writeFmtId h hs) ((writeFmtId_seq s l).trans hs)

/-- The invariant, one elementary change after the other. -/
theorem Move.keeps_inv {s t : State} (h : Inv s) (hmove : Move s t) : Inv t := by
  cases hmove with
  | host ts r => exact ⟨h.memory, h.errors, h.versionWord, h.tracker, h.mode, h.latched, h.params⟩
  | raise info hcode => exact inv_raiseError h info hcode
  | status v => exact inv_storeStatus h v
  | reset => exact inv_resetBlock h
  | ctrl v hs =>
    exact ⟨h.memory, h.errors, h.versionWord, h.tracker, modeImplemented_storeCtrl v s, latchAgrees_of_idle hs, h.params⟩
  | version v hs => exact ⟨h.memory, h.errors, nofun, h.tracker, h.mode, latchAgrees_of_idle hs, h.params⟩
  | mask m hs => exact ⟨h.memory, h.errors, h.versionWord, h.tracker, h.mode, latchAgrees_of_idle hs, h.params⟩
  | fmtId f hs => exact ⟨h.memory, h.errors, h.versionWord, h.tracker, h.mode, latchAgrees_of_idle hs, h.params⟩
  | start hwf hs ho => exact inv_startCommand h hwf hs.2 ho
  | cell row col c hfree => exact inv_storeMatrix h (matWrite_wf h.memory c row.isLt col.isLt)
  | access k => exact inv_accessMatrix h k
  | runFmtId => exact inv_runFmtId h
  | complete => exact inv_completeRunning h

theorem completeRunning_params (s : State) : (completeRunning s).params = s.params := by
  cases hs : s.seq with
  | idle => rw [completeRunning_idle hs]
  | run l => rw [completeRunning_run hs, finish_params, effectOf_frame]; exact writeFmtId_params s l

/-- 10_state.md R44: the parameters are no state of the block. -/
theorem Move.params {s t : State} (hmove : Move s t) : t.params = s.params := by
  cases hmove with
  | raise info hcode => exact raiseError_params s _ info
  | status v => exact storeStatus_params s v
  | start hwf hs ho => exact loadOperands_params s _
  | access k => rw [accessMatrix_frame]
  | runFmtId => rw [runFmtId_frame]
  | complete => exact completeRunning_params s
  | _ => rfl

/-- Settles O51: every elementary change keeps the invariant and the parameters. -/
theorem everyStepKeepsTheInvariant : Obligations.EveryStepKeepsTheInvariant := by
  intro s t hinv hstep
  have hmoves := step_moves hstep
  exact ⟨hmoves.keeps (fun h hmove => hmove.keeps_inv h) hinv,
    hmoves.keeps (P := fun u => u.params = s.params) (fun h hmove => hmove.params.trans h) rfl⟩

/-- Settles O50: the reset state is idle, with no error, no version word, an empty tracker and every penalty 0. -/
theorem resetMeetsTheInvariants : Obligations.ResetMeetsTheInvariants := by
  refine ⟨⟨rfl, ⟨fun _ => ⟨rfl, rfl⟩, nofun⟩, nofun, fun _ => ⟨rfl, rfl⟩, nofun, nofun, by decide⟩, ?_, nofun⟩
  exact ⟨by decide, by decide, by decide, by decide, by decide, rfl, nofun⟩

end Sys2Proof.Machine
end

section
/-! PROOF. The penalties of any matrix: the exact floor of rule 4, the bounds as numbers, transposition, what a score
depends on, and with them the bounds that every step keeps. -/

namespace Sys2Proof.Machine

open Sys2Proof.Spec

/-! ## Rule 4 -/

/-- 41_penalty.md R149: the quotient of the model is the floor of the rational value. -/
theorem penaltyBalance_eq_floor {n : Nat} (hn : 0 < n) (d : Nat) :
    (penaltyBalance n d : ℤ) = 10 * ⌊|(10 : ℚ) - 20 * d / (n * n)|⌋ := by
  have hT : (0 : ℚ) < n * n := by positivity
  have habs : |(10 : ℚ) - 20 * d / (n * n)| =
      (((10 * ((n * n : Nat) : ℤ) - 20 * (d : ℤ)).natAbs : ℤ) : ℚ) / ((n * n : Nat) : ℚ) := by
    rw [Int.natCast_natAbs, Int.cast_abs]
    push_cast
    rw [← abs_of_pos hT, ← abs_div, abs_of_pos hT, sub_div, mul_div_cancel_right₀ _ hT.ne']
  rw [habs, Rat.floor_intCast_div_natCast, penaltyBalance]
  push_cast
  rfl

/-- 41_penalty.md R149: within a twentieth of half the modules rule 4 adds nothing. -/
theorem penaltyBalance_of_balanced {n d : Nat} (h9 : 9 * (n * n) < 20 * d) (h11 : 20 * d < 11 * (n * n)) :
    penaltyBalance n d = 0 := by
  rw [penaltyBalance, Nat.div_eq_of_lt (by omega), Nat.mul_zero]

/-- Settles O45: the rational floor, the range by its bound, the middle band and the two ends. -/
theorem balancePenaltyIsTheExactFloor : Obligations.BalancePenaltyIsTheExactFloor := by
  intro n d hn hd
  refine ⟨penaltyBalance_eq_floor hn d, ⟨_, ?_, rfl⟩, penaltyBalance_of_balanced, penaltyBalance_ends hn⟩
  have hle : 10 * _ ≤ 100 := penaltyBalance_le hd
  omega

/-! ## The bounds as numbers -/

section Bounds

variable {n : Nat} (hn : n ≤ 177) (color : Nat → Nat → Bool)

include hn

theorem penaltyRuns_le_61950 : penaltyRuns n color ≤ 61950 :=
  (penaltyRuns_le n color).trans (Nat.mul_le_mul (by omega : 2 * n ≤ 354) (by omega : n - 2 ≤ 175))

theorem penaltyBlocks_le_92928 : penaltyBlocks n color ≤ 92928 :=
  (penaltyBlocks_le n color).trans (Nat.mul_le_mul_left 3 (Nat.pow_le_pow_left (by omega : n - 1 ≤ 176) 2))

theorem penaltyPatterns_le_2364720 (mode : Rule3Mode) : penaltyPatterns mode n color ≤ 2364720 :=
  (penaltyPatterns_le mode n color).trans
    (Nat.mul_le_mul (by omega : 2 * n ≤ 354) (by omega : 40 * (n - 10) ≤ 6680))

theorem darkModules_le_31329 : darkModules n color ≤ 31329 :=
  (darkModules_le n color).trans (Nat.pow_le_pow_left hn 2)

omit hn in
theorem penaltyBalance_darkModules_le : penaltyBalance n (darkModules n color) ≤ 100 :=
  penaltyBalance_le (sq n ▸ darkModules_le n color)

theorem penaltyTotal_le (mode : Rule3Mode) :
    penaltyTotal mode n color ≤ 61950 + 92928 + penaltyPatterns mode n color + 100 := by
  have h1 := penaltyRuns_le_61950 hn color
  have h2 := penaltyBlocks_le_92928 hn color
  have h4 := penaltyBalance_darkModules_le (n := n) color
  unfold penaltyTotal
  omega

end Bounds

/-- Settles O46: the bounds in N, their values at N = 177, and a matrix of one color. -/
theorem penaltiesStayWithinTheirBounds : Obligations.PenaltiesStayWithinTheirBounds := by
  refine ⟨fun n color mode hn => ?_, fun dark => penaltyTotal_const (by decide) dark⟩
  have hpatterns : penaltyPatterns mode n color ≤ 2 * n * 40 * (n - 10) :=
    (penaltyPatterns_le mode n color).trans_eq (Nat.mul_assoc _ _ _).symm
  exact ⟨penaltyRuns_le n color, penaltyRuns_le_61950 hn color, penaltyBlocks_le n color,
    penaltyBlocks_le_92928 hn color, hpatterns, penaltyPatterns_le_2364720 hn color mode, darkModules_le n color,
    darkModules_le_31329 hn color, (darkModules_le_31329 hn color).trans_lt (by decide),
    penaltyBalance_darkModules_le color, penaltyTotal_lt mode hn color, penaltyTotal_le hn color .omitted⟩

/-! ## Transposition -/

/-- 41_penalty.md R153: the lines of the transposed matrix are those of the matrix, rows and columns exchanged. -/
theorem sum_matrixLines_transpose (n : Nat) (color : Nat → Nat → Bool) (f : List Bool → Nat) :
    ((matrixLines n fun r c => color c r).map f).sum = ((matrixLines n color).map f).sum := by
  rw [sum_matrixLines, sum_matrixLines, Nat.add_comm]
  rfl

theorem penaltyPatterns_transpose (mode : Rule3Mode) (n : Nat) (color : Nat → Nat → Bool) :
    (penaltyPatterns mode n fun r c => color c r) = penaltyPatterns mode n color := by
  cases mode with
  | omitted => rfl
  | patterns => exact sum_matrixLines_transpose n color linePatternPenalty

/-- A count over a square does not change when the coordinates are exchanged. -/
theorem sum_countP_range_transpose (n : Nat) (p : Nat → Nat → Bool) :
    ((List.range n).map fun r => (List.range n).countP fun c => p c r).sum =
      ((List.range n).map fun r => (List.range n).countP fun c => p r c).sum := by
  rw [sum_countP_range n n fun r c => p c r, sum_countP_range n n p]
  exact Finset.card_equiv (Equiv.prodComm Nat Nat) (by simp [and_comm])

theorem uniformWindow_transpose (color : Nat → Nat → Bool) (r c : Nat) :
    uniformWindow (fun r c => color c r) r c = uniformWindow color c r := by
  rw [Bool.eq_iff_iff, uniformWindow_iff, uniformWindow_iff, and_left_comm]

theorem penaltyBlocks_transpose (n : Nat) (color : Nat → Nat → Bool) :
    (penaltyBlocks n fun r c => color c r) = penaltyBlocks n color := by
  simp only [penaltyBlocks, uniformWindows, uniformWindow_transpose]
  rw [sum_countP_range_transpose (n - 1) (uniformWindow color)]

theorem darkModules_transpose (n : Nat) (color : Nat → Nat → Bool) :
    (darkModules n fun r c => color c r) = darkModules n color := sum_countP_range_transpose n color

/-- Settles O47: lines and counts of the transposed matrix. -/
theorem penaltiesAreInvariantUnderTransposition : Obligations.PenaltiesAreInvariantUnderTransposition := by
  intro n color mode
  have hruns : (penaltyRuns n fun r c => color c r) = penaltyRuns n color :=
    sum_matrixLines_transpose n color lineRunPenalty
  refine ⟨hruns, penaltyBlocks_transpose n color, penaltyPatterns_transpose mode n color,
    darkModules_transpose n color, ?_⟩
  rw [penaltyTotal, penaltyTotal, hruns, penaltyBlocks_transpose, penaltyPatterns_transpose, darkModules_transpose]

/-! ## What a score depends on -/

/-- 41_penalty.md R150: a score writes the penalty registers, the tracker and the hidden scan. -/
theorem scoreEffect_eq (l : Latched) (s : State) :
    scoreEffect l s =
      { trackBest (BitVec.ofNat 32 (penaltyTotal l.rule3Mode (sideOf l.version) (colorAt s.mem))) l.mask
          (storePenalties l.rule3Mode (sideOf l.version) (colorAt s.mem) s) with
        psc := scanToEnd l.rule3Mode (sideOf l.version) (colorAt s.mem) s.psc } := by
  rw [scoreEffect, trackBest_eq, trackBest_eq]
  rfl

/-- Settles O48: every penalty is that of the other matrix. -/
theorem scoreDependsOnlyOnTheColorsInside : Obligations.ScoreDependsOnlyOnTheColorsInside := by
  intro l s m h
  have hpenalties (t : State) : storePenalties l.rule3Mode (sideOf l.version) (colorAt m) t =
      storePenalties l.rule3Mode (sideOf l.version) (colorAt s.mem) t := by
    rw [storePenalties, penaltyRuns_congr h, penaltyBlocks_congr h, penaltyPatterns_congr h, darkModules_congr h,
      penaltyTotal_congr h]
    rfl
  rw [scoreEffect_eq, scoreEffect_eq, trackBest_eq, trackBest_eq]
  simp only [penaltyTotal_congr h, hpenalties]
  rfl

/-! ## The bounds along a run -/

/-- The registers the bounds speak of. -/
theorem PenaltiesBounded.congr {s t : State} (h : PenaltiesBounded s)
    (hpen : (t.penR1, t.penR2, t.penR3, t.penR4, t.darkCount, t.penTotal) =
      (s.penR1, s.penR2, s.penR3, s.penR4, s.darkCount, s.penTotal))
    (hbest : (t.bestValid, t.bestPenalty) = (s.bestValid, s.bestPenalty)) : PenaltiesBounded t := by
  simp only [Prod.mk.injEq] at hpen hbest
  obtain ⟨h1, h2, h3, h4, hd, ht⟩ := hpen
  obtain ⟨hv, hp⟩ := hbest
  exact ⟨h1 ▸ h.runs, h2 ▸ h.blocks, h3 ▸ h.patterns, h4 ▸ h.balance, hd ▸ h.dark,
    by rw [ht, h1, h2, h3, h4]; exact h.total, by rw [hv, hp]; exact h.best⟩

/-- 41_penalty.md R152: a number within its bound is the register that holds it. -/
theorem toNat_ofNat_of_le {w x b : Nat} (hx : x ≤ b) (hb : b < 2 ^ w) : (BitVec.ofNat w x).toNat = x := by
  rw [BitVec.toNat_ofNat, Nat.mod_eq_of_lt (hx.trans_lt hb)]

/-- 41_penalty.md R151, R152: a score of a matrix of version 1 to 40 stays within the bounds. -/
theorem penaltiesBounded_scoreEffect {s : State} (h : PenaltiesBounded s) {l : Latched}
    (hn : sideOf l.version ≤ 177) : PenaltiesBounded (scoreEffect l s) := by
  have h1 := penaltyRuns_le_61950 hn (colorAt s.mem)
  have h2 := penaltyBlocks_le_92928 hn (colorAt s.mem)
  have h3 := penaltyPatterns_le_2364720 hn (colorAt s.mem) l.rule3Mode
  have h4 := penaltyBalance_darkModules_le (n := sideOf l.version) (colorAt s.mem)
  have hd := darkModules_le_31329 hn (colorAt s.mem)
  have ht : penaltyTotal l.rule3Mode (sideOf l.version) (colorAt s.mem) ≤ 61950 + 92928 + 2364720 + 100 :=
    (penaltyTotal_le hn (colorAt s.mem) l.rule3Mode).trans (by omega)
  have e1 := toNat_ofNat_of_le (w := 32) h1 (by decide)
  have e2 := toNat_ofNat_of_le (w := 32) h2 (by decide)
  have e3 := toNat_ofNat_of_le (w := 32) h3 (by decide)
  have e4 := toNat_ofNat_of_le (w := 32) h4 (by decide)
  have ed := toNat_ofNat_of_le (w := 15) hd (by decide)
  have et := toNat_ofNat_of_le (w := 32) ht (by decide)
  rw [scoreEffect_eq, trackBest_eq]
  refine ⟨e1.trans_le h1, e2.trans_le h2, e3.trans_le h3, e4.trans_le h4, ed.trans_le hd, ?_, fun _ => ?_⟩
  · show (BitVec.ofNat 32 _).toNat =
      (BitVec.ofNat 32 _).toNat + (BitVec.ofNat 32 _).toNat + (BitVec.ofNat 32 _).toNat + (BitVec.ofNat 32 _).toNat
    rw [e1, e2, e3, e4, et, penaltyTotal]
  · show (if _ ∨ _ then BitVec.ofNat 32 _ else s.bestPenalty).toNat ≤ _
    split
    case isTrue => exact et.trans_le ht
    case isFalse hheld =>
      rw [not_or, Bool.not_eq_false] at hheld
      exact h.best hheld.1

theorem penaltiesBounded_effectOf {s : State} (h : PenaltiesBounded s) {l : Latched}
    (hn : readsMatrix l = true → sideOf l.version ≤ 177) : PenaltiesBounded (effectOf l s) := by
  obtain ⟨command, version, mask, fmtId, mode⟩ := l
  cases command
  case score => exact penaltiesBounded_scoreEffect h (hn rfl)
  case bestclr => exact ⟨h.runs, h.blocks, h.patterns, h.balance, h.dark, h.total, nofun⟩
  case fwrite => exact h.congr (by simp [effectOf, fwriteEffect]) (by simp [effectOf, fwriteEffect])
  case vwrite => exact h.congr (by simp [effectOf, vwriteEffect]) (by simp [effectOf, vwriteEffect])
  case encfv => exact h.congr (by simp [effectOf, encfvEffect]) (by simp [effectOf, encfvEffect])
  all_goals exact h.congr rfl rfl

/-- 20_memory.md R66: only SCORE reads the matrix, and it needs a version. -/
theorem needsVersion_of_readsMatrix {l : Latched} (h : readsMatrix l = true) : needsVersion l.command = true := by
  unfold readsMatrix at h
  cases hc : l.command <;> simp [hc, needsVersion] at h ⊢

/-- 60_exceptions.md R202: a command that needs a version runs on a matrix of version 1 to 40. -/
theorem sideOf_bounds_of_running {s : State} (hinv : Inv s) {l : Latched} (hrun : s.seq = .run l)
    (hneeds : needsVersion l.command = true) : 21 ≤ sideOf l.version ∧ sideOf l.version ≤ 177 := by
  obtain ⟨-, -, -, -, -, hlegal, -⟩ := hinv.latched l hrun
  obtain ⟨h1, h40⟩ := (legalVersion_eq_true_iff _).mp (hlegal hneeds)
  exact sideOf_bounds h1 h40

theorem penaltiesBounded_completeRunning {s : State} (hinv : Inv s) (h : PenaltiesBounded s) :
    PenaltiesBounded (completeRunning s) := by
  cases hs : s.seq with
  | idle => rwa [completeRunning_idle hs]
  | run l =>
    have hwritten : PenaltiesBounded (writeFmtId l s) := by
      rw [writeFmtId_frame]
      exact ⟨h.runs, h.blocks, h.patterns, h.balance, h.dark, h.total, h.best⟩
    have heffect := penaltiesBounded_effectOf (l := l) hwritten fun hreads =>
      (sideOf_bounds_of_running hinv hs (needsVersion_of_readsMatrix hreads)).2
    rw [completeRunning_run hs]
    exact ⟨heffect.runs, heffect.blocks, heffect.patterns, heffect.balance, heffect.dark, heffect.total, heffect.best⟩

/-- The bounds, one elementary change after the other: only a completion and a reset write these registers. -/
theorem Move.keeps_penaltiesBounded {s t : State} (hinv : Inv s) (h : PenaltiesBounded s) (hmove : Move s t) :
    PenaltiesBounded t := by
  cases hmove with
  | raise info hcode => exact h.congr (by simp) (by simp)
  | status v => exact h.congr (by simp) (by simp)
  | reset => exact resetMeetsTheInvariants.2.1.congr rfl rfl
  | start hwf hs ho => exact h.congr (by simp) (by simp)
  | access k => rw [accessMatrix_frame]; exact h.congr rfl rfl
  | runFmtId => rw [runFmtId_frame]; exact h.congr rfl rfl
  | complete => exact penaltiesBounded_completeRunning hinv h
  | _ => exact h.congr rfl rfl

/-- Settles O52: every elementary change keeps the bounds next to the invariant. -/
theorem everyStepKeepsThePenaltiesBounded : Obligations.EveryStepKeepsThePenaltiesBounded := by
  intro s t hinv hbounds hstep
  have hkept := (step_moves hstep).keeps (P := fun u => Inv u ∧ PenaltiesBounded u)
    (fun ⟨hinv, h⟩ hmove => ⟨hmove.keeps_inv hinv, hmove.keeps_penaltiesBounded hinv h⟩) ⟨hinv, hbounds⟩
  exact hkept.2

end Sys2Proof.Machine
end

section
/-! PROOF. The hidden scan of a SCORE (10_state.md R41): what one line's scan state adds over the whole line, the scan
after any number of cells in closed form, and with it the penalties it ends with. The order by rows is the model's choice
(notes/assumptions/13.md). -/

namespace Sys2Proof.Machine

open Sys2Proof.Spec

/-! ## One line -/

/-- 10_state.md R41: the scan state of the line of colors `f` after `k` modules. -/
def lineAfter (mode : Rule3Mode) (f : Nat → Bool) : Nat → LineScan
  | 0 => .start
  | k + 1 => advanceLine mode (f k) (lineAfter mode f k)

theorem lineAfter_succ (mode : Rule3Mode) (f : Nat → Bool) (k : Nat) :
    lineAfter mode f (k + 1) = advanceLine mode (f k) (lineAfter mode f k) := rfl

/-- 41_penalty.md R142: what the runs closed by the modules before the `k`-th add. -/
def closedRuns (mode : Rule3Mode) (f : Nat → Bool) (k : Nat) : Nat :=
  ∑ c ∈ Finset.range k, runPenalty (runClosedBy (f c) (lineAfter mode f c))

/-- 41_penalty.md R143: the reference scan goes over a line as the hidden scan does, one module ahead. -/
theorem referenceStep_foldl_eq_closedRuns (mode : Rule3Mode) (n : Nat) (f : Nat → Bool) {k : Nat} (hk : k < n) :
    (List.range' 1 k).foldl (referenceStep ((List.range n).map f)) (0, 1) =
      (closedRuns mode f (k + 1), (lineAfter mode f (k + 1)).len) := by
  induction k with
  | zero =>
    cases h : f 0 <;>
      simp [closedRuns, lineAfter, advanceLine, LineScan.start, runClosedBy, runPenalty, h]
  | succ k ih =>
    have hclosed : closedRuns mode f (k + 1 + 1) =
        closedRuns mode f (k + 1) + runPenalty (runClosedBy (f (k + 1)) (lineAfter mode f (k + 1))) :=
      Finset.sum_range_succ _ _
    have hlen : 1 + k < ((List.range n).map f).length := by simp; omega
    rw [List.range'_1_concat, List.foldl_concat, ih (by omega), hclosed, lineAfter_succ mode f (k + 1), referenceStep,
      Nat.add_comm 1 k] at *
    by_cases hsame : f (k + 1) = f k
    · simp [hk, hsame, runClosedBy, advanceLine, lineAfter_succ, runPenalty, show k < n by omega]
    · have hchange : (lineAfter mode f (k + 1)).color ≠ f (k + 1) := Ne.symm hsame
      simp [hk, hsame, runClosedBy, advanceLine, hchange, show k < n by omega]

/-- 41_penalty.md R142: the closed runs and the open one at the end make up the line's penalty. -/
theorem closedRuns_add_open {n : Nat} (hn : 0 < n) (mode : Rule3Mode) (f : Nat → Bool) :
    closedRuns mode f n + runPenalty (lineAfter mode f n).len = lineRunPenalty ((List.range n).map f) := by
  obtain ⟨m, rfl⟩ : ∃ m, n = m + 1 := ⟨n - 1, by omega⟩
  have hlength : ((List.range (m + 1)).map f).length = m + 1 := by simp
  rw [← runPenaltyIsTheReferenceScans.2, referenceScan_eq, hlength, List.range'_1_concat, List.foldl_concat,
    referenceStep_foldl_eq_closedRuns mode (m + 1) f (Nat.lt_succ_self m), referenceStep, if_neg (by simp)]

/-- What the modules of a line make rule 1 add, the last of them its open run too. -/
theorem sum_runsAddedBy {n : Nat} (hn : 0 < n) (mode : Rule3Mode) (f : Nat → Bool) :
    ∑ c ∈ Finset.range n, runsAddedBy (f c) (decide (n ≤ c + 1)) (lineAfter mode f c) (lineAfter mode f (c + 1)) =
      lineRunPenalty ((List.range n).map f) := by
  obtain ⟨m, rfl⟩ : ∃ m, n = m + 1 := ⟨n - 1, by omega⟩
  have hlast : ∑ c ∈ Finset.range (m + 1),
      (if decide (m + 1 ≤ c + 1) = true then runPenalty (lineAfter mode f (c + 1)).len else 0) =
        runPenalty (lineAfter mode f (m + 1)).len := by
    rw [Finset.sum_range_succ, if_pos (by simp), Finset.sum_eq_zero, Nat.zero_add]
    intro c hc
    rw [if_neg (by simpa using Finset.mem_range.mp hc)]
  simp only [runsAddedBy]
  rw [Finset.sum_add_distrib, hlast]
  exact closedRuns_add_open hn mode f

/-- 10_state.md R41: in mode 1 a line's window holds its last 11 modules. -/
theorem lineAfter_window (f : Nat → Bool) (k : Nat) :
    (lineAfter .patterns f k).window = ((List.range k).map f).reverse.take 11 := by
  induction k with
  | zero => rfl
  | succ k ih =>
    rw [lineAfter_succ, List.range_succ, List.map_append, List.reverse_append]
    simp [advanceLine, ih, List.take_take]

theorem patternPenalty_of_length_ne {w : List Bool} (h : w.length ≠ 11) : patternPenalty w = 0 := by
  have hA : w ≠ patternA := fun he => h (by rw [he]; rfl)
  have hB : w ≠ patternB := fun he => h (by rw [he]; rfl)
  rw [patternPenalty, if_neg hA, if_neg hB]

/-- 41_penalty.md R147: fewer than 11 modules are no window. -/
theorem windowAdds_of_short (f : Nat → Bool) {k : Nat} (hk : k < 11) : windowAdds (lineAfter .patterns f k) = 0 :=
  patternPenalty_of_length_ne (by rw [lineAfter_window]; simp; omega)

/-- 41_penalty.md R147: from 11 modules on the window is the last one read. -/
theorem windowAdds_of_long (f : Nat → Bool) (k : Nat) :
    windowAdds (lineAfter .patterns f (k + 11)) = patternPenalty ((List.range 11).map fun j => f (k + j)) := by
  have hwindow : (((List.range (k + 11)).map f).reverse.take 11).reverse = (List.range 11).map fun j => f (k + j) := by
    rw [List.take_reverse, List.reverse_reverse, List.length_map, List.length_range, Nat.add_sub_cancel,
      ← take_drop_map_range (le_refl (k + 11)) f, List.take_of_length_le (by simp)]
  rw [windowAdds, lineAfter_window, hwindow]

theorem sum_windowAdds (n : Nat) (f : Nat → Bool) :
    ∑ c ∈ Finset.range n, windowAdds (lineAfter .patterns f (c + 1)) = linePatternPenalty ((List.range n).map f) := by
  rw [linePatternPenalty, sum_map_range, List.length_map, List.length_range]
  rcases Nat.le_total n 10 with hn | hn
  · rw [Nat.sub_eq_zero_of_le hn, Finset.sum_range_zero]
    exact Finset.sum_eq_zero fun c hc => windowAdds_of_short f (by have := Finset.mem_range.mp hc; omega)
  · obtain ⟨m, rfl⟩ := Nat.exists_eq_add_of_le hn
    rw [Finset.sum_range_add, Finset.sum_eq_zero, Nat.zero_add, Nat.add_sub_cancel_left]
    · refine Finset.sum_congr rfl fun k hk => ?_
      have := Finset.mem_range.mp hk
      rw [take_drop_map_range (by omega), ← windowAdds_of_long, Nat.add_right_comm, Nat.add_comm _ k]
    · exact fun c hc => windowAdds_of_short f (by have := Finset.mem_range.mp hc; omega)

/-- 41_penalty.md R146: in mode 0 no window is kept. -/
theorem windowAdds_of_omitted (f : Nat → Bool) (k : Nat) : windowAdds (lineAfter .omitted f k) = 0 := by
  cases k <;> rfl

/-! ## Sums over the cells read so far -/

/-- The sum of `f` over the cells before `(r, c)`, row by row. -/
def scanned (n : Nat) (f : Nat → Nat → Nat) (r c : Nat) : Nat :=
  ∑ i ∈ Finset.range r, ∑ j ∈ Finset.range n, f i j + ∑ j ∈ Finset.range c, f r j

/-- The place after `(r, c)` in the order of the scan. -/
def nextRow (n r c : Nat) : Nat := if n ≤ c + 1 then r + 1 else r
/-- The place after `(r, c)` in the order of the scan. -/
def nextCol (n c : Nat) : Nat := if n ≤ c + 1 then 0 else c + 1

/-- 10_state.md R41: the scan after the module of color `x`. -/
theorem scanModule_eq (mode : Rule3Mode) (n : Nat) (x : Bool) (r c : Nat) (rowLine : LineScan)
    (colLines : List LineScan) (recent : List Bool) (sum1 sum2 sum3 sum4 dark : Nat) :
    scanModule mode n x ⟨r, c, rowLine, colLines, recent, sum1, sum2, sum3, sum4, dark⟩ =
      { row := nextRow n r c, col := nextCol n c
        rowLine := if n ≤ c + 1 then .start else advanceLine mode x rowLine
        colLines := colLines.set c (advanceLine mode x (colLines.getD c .start))
        recent := (x :: recent).take (n + 1)
        sum1 := sum1 + runsAddedBy x (decide (n ≤ c + 1)) rowLine (advanceLine mode x rowLine) +
          runsAddedBy x (decide (n ≤ r + 1)) (colLines.getD c .start)
            (advanceLine mode x (colLines.getD c .start))
        sum2 := sum2 + if 0 < r && 0 < c && closesUniformWindow n x recent then 3 else 0
        sum3 := sum3 + windowAdds (advanceLine mode x rowLine) +
          windowAdds (advanceLine mode x (colLines.getD c .start))
        sum4 := if n ≤ c + 1 ∧ n ≤ r + 1 then penaltyBalance n (dark + if x then 1 else 0) else sum4
        dark := dark + if x then 1 else 0 } := by
  simp only [scanModule, nextRow, nextCol, Bool.and_eq_true, decide_eq_true_eq]

theorem scanned_next {n c : Nat} (hc : c < n) (f : Nat → Nat → Nat) (r : Nat) :
    scanned n f (nextRow n r c) (nextCol n c) = scanned n f r c + f r c := by
  unfold nextRow nextCol scanned
  split
  case isTrue h =>
    obtain rfl : n = c + 1 := by omega
    rw [Finset.sum_range_succ, Finset.sum_range_zero, Nat.add_zero, Finset.sum_range_succ (f r), Nat.add_assoc]
  case isFalse => rw [Finset.sum_range_succ, Nat.add_assoc]

@[simp] theorem scanned_start (n : Nat) (f : Nat → Nat → Nat) : scanned n f 0 0 = 0 := rfl

theorem scanned_all (n : Nat) (f : Nat → Nat → Nat) :
    scanned n f n 0 = ∑ r ∈ Finset.range n, ∑ c ∈ Finset.range n, f r c := rfl

section Grid

variable (mode : Rule3Mode) (n : Nat) (color : Nat → Nat → Bool)

/-- 41_penalty.md R142: what the module at `(r, c)` makes rule 1 add, for its row and for its column. -/
def runsAt (r c : Nat) : Nat :=
  runsAddedBy (color r c) (decide (n ≤ c + 1)) (lineAfter mode (color r) c) (lineAfter mode (color r) (c + 1)) +
    runsAddedBy (color r c) (decide (n ≤ r + 1)) (lineAfter mode (fun i => color i c) r)
      (lineAfter mode (fun i => color i c) (r + 1))

/-- 41_penalty.md R144: what the window that ends at `(r, c)` adds. -/
def blocksAt (r c : Nat) : Nat := if 0 < r && 0 < c && uniformWindow color (r - 1) (c - 1) then 3 else 0

/-- 41_penalty.md R147: what the windows that end at `(r, c)` add, of its row and of its column. -/
def patternsAt (r c : Nat) : Nat :=
  windowAdds (lineAfter mode (color r) (c + 1)) + windowAdds (lineAfter mode (fun i => color i c) (r + 1))

/-- 41_penalty.md R148 -/
def darkAt (r c : Nat) : Nat := if color r c then 1 else 0

/-! ## The sums over the whole matrix -/

theorem sum_runsAt (hn : 0 < n) :
    ∑ r ∈ Finset.range n, ∑ c ∈ Finset.range n, runsAt mode n color r c = penaltyRuns n color := by
  simp only [runsAt, Finset.sum_add_distrib]
  rw [penaltyRuns, sum_matrixLines, Finset.sum_comm (f := fun r c => runsAddedBy (color r c) (decide (n ≤ r + 1)) _ _)]
  simp only [sum_runsAddedBy hn mode (color _)]
  exact congrArg₂ (· + ·) rfl (Finset.sum_congr rfl fun c _ => sum_runsAddedBy hn mode fun i => color i c)

theorem sum_patternsAt :
    ∑ r ∈ Finset.range n, ∑ c ∈ Finset.range n, patternsAt mode color r c = penaltyPatterns mode n color := by
  cases mode with
  | omitted => simp [patternsAt, windowAdds_of_omitted, penaltyPatterns]
  | patterns =>
    simp only [patternsAt, Finset.sum_add_distrib]
    rw [penaltyPatterns, sum_matrixLines,
      Finset.sum_comm (f := fun r c => windowAdds (lineAfter .patterns (fun i => color i c) (r + 1)))]
    simp only [sum_windowAdds]
    rfl

/-- A count over a rectangle, cell by cell. -/
theorem sum_sum_ite (m : Nat) (p : Nat → Nat → Bool) :
    ∑ r ∈ Finset.range m, ∑ c ∈ Finset.range n, (if p r c = true then 1 else 0) =
      ((List.range m).map fun r => (List.range n).countP (p r)).sum := by
  rw [sum_countP_range, Finset.card_filter, Finset.sum_product]

theorem sum_darkAt : ∑ r ∈ Finset.range n, ∑ c ∈ Finset.range n, darkAt color r c = darkModules n color :=
  sum_sum_ite n n color

theorem sum_blocksAt (hn : 0 < n) :
    ∑ r ∈ Finset.range n, ∑ c ∈ Finset.range n, blocksAt color r c = penaltyBlocks n color := by
  obtain ⟨m, rfl⟩ : ∃ m, n = m + 1 := ⟨n - 1, by omega⟩
  have hcell (r c : Nat) : blocksAt color (r + 1) (c + 1) = 3 * if uniformWindow color r c = true then 1 else 0 := by
    simp [blocksAt]
  have htop : ∑ c ∈ Finset.range (m + 1), blocksAt color 0 c = 0 := by simp [blocksAt]
  have hleft (r : Nat) : blocksAt color r 0 = 0 := by simp [blocksAt]
  rw [Finset.sum_range_succ', htop, penaltyBlocks, uniformWindows, Nat.add_sub_cancel, ← sum_sum_ite m m, Finset.mul_sum, Nat.add_zero]
  refine Finset.sum_congr rfl fun r _ => ?_
  rw [Finset.sum_range_succ', hleft, Finset.mul_sum, Nat.add_zero]
  exact Finset.sum_congr rfl fun c _ => hcell r c

/-! ## The scan after some cells -/

/-- The colors of the cells before `(r, c)`, the last one first. -/
def readColors (r c : Nat) : List Bool := ((List.range (r * n + c)).map fun i => color (i / n) (i % n)).reverse

variable {n} in
theorem readColors_next {c : Nat} (hc : c < n) (r : Nat) :
    readColors n color (nextRow n r c) (nextCol n c) = color r c :: readColors n color r c := by
  have hplace : nextRow n r c * n + nextCol n c = r * n + c + 1 := by
    unfold nextRow nextCol
    split
    case isTrue h => rw [Nat.succ_mul]; omega
    case isFalse => rfl
  have hrow : (r * n + c) / n = r := by
    rw [Nat.mul_comm, Nat.mul_add_div (by omega), Nat.div_eq_of_lt hc, Nat.add_zero]
  have hcol : (r * n + c) % n = c := by rw [Nat.mul_comm, Nat.mul_add_mod, Nat.mod_eq_of_lt hc]
  rw [readColors, hplace, List.range_succ, List.map_append, List.reverse_append, List.map_singleton, hrow, hcol]
  rfl

variable {n} in
/-- The cell `(a, b)` stands as many places back as it was read before the last one. -/
theorem getElem?_readColors {r c a b i : Nat} (hb : b < n) (h : a * n + b + i + 1 = r * n + c) :
    (readColors n color r c)[i]? = some (color a b) := by
  have hrow : (a * n + b) / n = a := by
    rw [Nat.mul_comm, Nat.mul_add_div (by omega), Nat.div_eq_of_lt hb, Nat.add_zero]
  have hcol : (a * n + b) % n = b := by rw [Nat.mul_comm, Nat.mul_add_mod, Nat.mod_eq_of_lt hb]
  have hlength : ((List.range (r * n + c)).map fun i => color (i / n) (i % n)).length = a * n + b + i + 1 := by simp [h]
  have hplace : a * n + b + i + 1 - 1 - i = a * n + b := by omega
  rw [readColors, List.getElem?_reverse (by omega), hlength, hplace, List.getElem?_map,
    List.getElem?_range (by omega), Option.map_some, hrow, hcol]

variable {n} in
/-- 41_penalty.md R144: the buffer holds what the window that ends at the next cell needs. -/
theorem closesUniformWindow_readColors {r c : Nat} (hc : c + 1 < n) :
    closesUniformWindow n (color (r + 1) (c + 1)) ((readColors n color (r + 1) (c + 1)).take (n + 1)) =
      uniformWindow color r c := by
  have hleft : (readColors n color (r + 1) (c + 1))[0]? = some (color (r + 1) c) :=
    getElem?_readColors color (by omega) (by omega)
  have habove : (readColors n color (r + 1) (c + 1))[n - 1]? = some (color r (c + 1)) :=
    getElem?_readColors color (by omega) (by rw [Nat.succ_mul]; omega)
  have hcorner : (readColors n color (r + 1) (c + 1))[n]? = some (color r c) :=
    getElem?_readColors color (by omega) (by rw [Nat.succ_mul]; omega)
  rw [closesUniformWindow, List.getElem?_take_of_lt (by omega), List.getElem?_take_of_lt (by omega),
    List.getElem?_take_of_lt (by omega), hleft, habove, hcorner, uniformWindow]
  cases color r c <;> cases color (r + 1) c <;> cases color r (c + 1) <;> cases color (r + 1) (c + 1) <;> rfl

/-- 10_state.md R41: the scan states of the columns when the cells before `(r, c)` have been read. -/
def colLinesAt (r c : Nat) : List LineScan :=
  (List.range n).map fun j => lineAfter mode (fun i => color i j) (if j < c then r + 1 else r)

/-- 10_state.md R41: the scan state when the cells before `(r, c)` have been read. -/
def scanAt (r c : Nat) : PscWork :=
  { row := r, col := c
    rowLine := lineAfter mode (color r) c
    colLines := colLinesAt mode n color r c
    recent := (readColors n color r c).take (n + 1)
    sum1 := scanned n (runsAt mode n color) r c
    sum2 := scanned n (blocksAt color) r c
    sum3 := scanned n (patternsAt mode color) r c
    sum4 := if r = n then penaltyBalance n (scanned n (darkAt color) r c) else 0
    dark := scanned n (darkAt color) r c }

@[simp] theorem scanAt_row (r c : Nat) : (scanAt mode n color r c).row = r := rfl
@[simp] theorem scanAt_col (r c : Nat) : (scanAt mode n color r c).col = c := rfl

theorem scanSteps_succ (k : Nat) (p : PscWork) :
    scanSteps mode n color (k + 1) p = scanNext mode n color (scanSteps mode n color k p) := by
  induction k generalizing p with
  | zero => rfl
  | succ k ih => exact ih (scanNext mode n color p)

variable {n}

theorem scanAt_start (hn : 0 < n) : scanAt mode n color 0 0 = PscWork.start n := by
  simp only [scanAt, PscWork.start, scanned_start, Nat.not_lt_zero, if_false, hn.ne, readColors, colLinesAt, lineAfter,
    PscWork.mk.injEq, true_and, and_true]
  exact ⟨by simp, by simp⟩

/-- The column of the next cell, as it stands before its module. -/
theorem colLines_scanAt {r c : Nat} (hc : c < n) : (colLinesAt mode n color r c).getD c .start =
    lineAfter mode (fun i => color i c) r := by
  simp [colLinesAt, hc]

theorem colLines_next {r c : Nat} (hc : c < n) :
    (colLinesAt mode n color r c).set c (lineAfter mode (fun i => color i c) (r + 1)) =
      colLinesAt mode n color (nextRow n r c) (nextCol n c) := by
  refine List.ext_getElem (by simp [colLinesAt]) fun j h1 h2 => ?_
  have hj : j < n := by simpa [colLinesAt] using h2
  have hread : (if j < nextCol n c then nextRow n r c + 1 else nextRow n r c) = if j ≤ c then r + 1 else r := by
    unfold nextRow nextCol
    split_ifs <;> omega
  simp only [List.getElem_set, colLinesAt, List.getElem_map, List.getElem_range, hread]
  split
  case isTrue h => rw [← h, if_pos le_rfl]
  case isFalse h => rw [if_congr (Nat.le_iff_lt_or_eq.trans (or_iff_left (Ne.symm h))) rfl rfl]

/-- 10_state.md R41, 20_memory.md R66: one cell further. -/
theorem scanModule_scanAt {r c : Nat} (hr : r < n) (hc : c < n) :
    scanModule mode n (color r c) (scanAt mode n color r c) = scanAt mode n color (nextRow n r c) (nextCol n c) := by
  have hrowLine : advanceLine mode (color r c) (lineAfter mode (color r) c) = lineAfter mode (color r) (c + 1) := rfl
  have hcolLine : advanceLine mode (color r c) (lineAfter mode (fun i => color i c) r) =
    lineAfter mode (fun i => color i c) (r + 1) := rfl
  have hdark : scanned n (darkAt color) r c + (if color r c = true then 1 else 0) =
      scanned n (darkAt color) (nextRow n r c) (nextCol n c) := (scanned_next hc (darkAt color) r).symm
  have hblocks : (if 0 < r && 0 < c && closesUniformWindow n (color r c) ((readColors n color r c).take (n + 1)) then 3
      else 0) = blocksAt color r c := by
    rcases r with _ | r
    · simp [blocksAt]
    rcases c with _ | c
    · simp [blocksAt]
    rw [closesUniformWindow_readColors color hc]
    rfl
  have hend : nextRow n r c = n ↔ n ≤ c + 1 ∧ n ≤ r + 1 := by unfold nextRow; split <;> omega
  rw [scanAt, scanModule_eq]
  simp only [colLines_scanAt mode color hc, hrowLine, hcolLine, colLines_next mode color hc, hdark, hblocks, hr.ne, if_false]
  simp only [scanAt, hend, PscWork.mk.injEq, true_and, and_true]
  refine ⟨?_, ?_, ?_, ?_, ?_⟩
  · unfold nextRow nextCol; split <;> rfl
  · rw [readColors_next color hc, List.take_succ_cons, List.take_succ_cons, List.take_take, Nat.min_eq_left (by omega)]
  · rw [scanned_next hc, Nat.add_assoc]; rfl
  · rw [scanned_next hc]
  · rw [scanned_next hc, Nat.add_assoc]; rfl

/-- 10_state.md R41: after any number of cells the scan stands at a place of the matrix or past its end. -/
theorem scanSteps_start (hn : 0 < n) (k : Nat) :
    ∃ r c, c < n ∧ (r < n ∨ r = n ∧ c = 0) ∧
      scanSteps mode n color k (PscWork.start n) = scanAt mode n color r c := by
  induction k with
  | zero => exact ⟨0, 0, hn, .inl hn, (scanAt_start mode color hn).symm⟩
  | succ k ih =>
    obtain ⟨r, c, hc, hr | ⟨rfl, rfl⟩, hk⟩ := ih
    · refine ⟨nextRow n r c, nextCol n c, ?_, ?_, ?_⟩
      · unfold nextCol; split <;> omega
      · unfold nextRow nextCol; split <;> omega
      · rw [scanSteps_succ, hk, scanNext, scanFinished, scanAt_row, if_neg (by simpa using hr), scanAt_col,
          scanModule_scanAt mode color hr hc]
    · refine ⟨r, 0, hn, .inr ⟨rfl, rfl⟩, ?_⟩
      rw [scanSteps_succ, hk, scanNext, scanFinished, scanAt_row, if_pos (by simp)]

/-- 20_memory.md R66: the scan reads cells inside the matrix only. -/
theorem scanSteps_congr (hn : 0 < n) {color' : Nat → Nat → Bool}
    (h : ∀ r c, r < n → c < n → color r c = color' r c) (k : Nat) :
    scanSteps mode n color k (PscWork.start n) = scanSteps mode n color' k (PscWork.start n) := by
  induction k with
  | zero => rfl
  | succ k ih =>
    obtain ⟨r, c, hc, hr, hk⟩ := scanSteps_start mode color hn k
    rw [scanSteps_succ, scanSteps_succ, ← ih, hk, scanNext, scanNext, scanFinished, scanAt_row, scanAt_col]
    split
    case isTrue => rfl
    case isFalse hmore => rw [h r c (by simpa using hmore) hc]

end Grid

/-! ## The end of the scan -/

/-- How many cells there are from `(r, c)` on; to the right of the matrix one is read and the row is over. -/
def cellsFrom (n r c : Nat) : Nat := if n ≤ r then 0 else (n - 1 - r) * n + max 1 (n - c)

/-- How many cells a scan state has still to read. -/
def cellsLeft (n : Nat) (p : PscWork) : Nat := cellsFrom n p.row p.col

theorem cellsFrom_next {n r : Nat} (hr : r < n) (c : Nat) :
    cellsFrom n (nextRow n r c) (nextCol n c) + 1 ≤ cellsFrom n r c := by
  unfold cellsFrom nextRow nextCol
  rw [if_neg hr.not_ge]
  by_cases hlast : n ≤ c + 1
  · rw [if_pos hlast, if_pos hlast]
    by_cases hend : n ≤ r + 1
    · rw [if_pos hend]; omega
    · obtain ⟨m, rfl⟩ : ∃ m, n = r + 1 + 1 + m := ⟨n - r - 2, by omega⟩
      have hrows : r + 1 + 1 + m - 1 - r = m + 1 := by omega
      have hrows' : r + 1 + 1 + m - 1 - (r + 1) = m := by omega
      rw [if_neg hend, hrows, hrows', Nat.succ_mul]
      omega
  · rw [if_neg hlast, if_neg hlast, if_neg hr.not_ge]
    omega

theorem scanFinished_iff {n : Nat} {p : PscWork} : scanFinished n p = true ↔ cellsLeft n p = 0 := by
  unfold scanFinished cellsLeft cellsFrom
  split <;> simp [*]

theorem cellsLeft_scanNext (mode : Rule3Mode) {n : Nat} (color : Nat → Nat → Bool) (p : PscWork) :
    cellsLeft n (scanNext mode n color p) ≤ cellsLeft n p - 1 := by
  unfold scanNext
  split
  case isTrue h => exact (scanFinished_iff.mp h).le.trans (Nat.zero_le _)
  case isFalse h =>
    have hrow : p.row < n := by simpa [scanFinished] using h
    have hplace : cellsLeft n (scanModule mode n (color p.row p.col) p) =
        cellsFrom n (nextRow n p.row p.col) (nextCol n p.col) := congrArg (cellsLeft n) (scanModule_eq ..)
    rw [hplace]
    exact Nat.le_sub_of_add_le (cellsFrom_next hrow p.col)

theorem cellsLeft_scanSteps (mode : Rule3Mode) {n : Nat} (color : Nat → Nat → Bool) (k : Nat) (p : PscWork) :
    cellsLeft n (scanSteps mode n color k p) ≤ cellsLeft n p - k := by
  induction k with
  | zero => exact le_rfl
  | succ k ih =>
    have hnext := cellsLeft_scanNext mode (n := n) color (scanSteps mode n color k p)
    rw [scanSteps_succ]
    omega

theorem cellsLeft_le {n : Nat} (hn : 0 < n) (p : PscWork) : cellsLeft n p ≤ n * n := by
  obtain ⟨m, rfl⟩ : ∃ m, n = m + 1 := ⟨n - 1, by omega⟩
  have hrows : (m + 1 - 1 - p.row) * (m + 1) ≤ m * (m + 1) := Nat.mul_le_mul_right _ (by omega)
  rw [cellsLeft, cellsFrom, Nat.succ_mul m]
  split <;> omega

/-- 10_state.md R41: from any scan state n·n cells are enough. -/
theorem scanFinished_scanToEnd (mode : Rule3Mode) {n : Nat} (hn : 0 < n) (color : Nat → Nat → Bool) (p : PscWork) :
    scanFinished n (scanToEnd mode n color p) = true := by
  have hleft := cellsLeft_scanSteps mode (n := n) color (n * n) p
  have hle := cellsLeft_le hn p
  rw [scanFinished_iff, scanToEnd]
  omega

/-- Settles O54: the scan stands past the end of the matrix, where its sums are those over all cells. -/
theorem theScanComputesThePenalties : Obligations.TheScanComputesThePenalties := by
  intro mode n color hn
  have hfinished := scanFinished_scanToEnd mode hn color (PscWork.start n)
  obtain ⟨r, c, -, hr | ⟨rfl, rfl⟩, hend⟩ := scanSteps_start mode color hn (n * n)
  · rw [scanToEnd, hend, scanFinished, scanAt_row, decide_eq_true_eq] at hfinished
    omega
  · refine ⟨hfinished, ?_⟩
    rw [scanToEnd, hend]
    simp only [scanAt, scanned_all, if_true]
    exact ⟨sum_runsAt mode _ color hn, sum_blocksAt _ color hn, sum_patternsAt mode _ color,
      congrArg _ (sum_darkAt _ color), sum_darkAt _ color⟩

end Sys2Proof.Machine
end

section
/-! PROOF. A running command and the matrix: the hidden scan stays on track whatever the host does to cells it may touch,
and what the command does before its completion does not change what the completion leaves. -/

namespace Sys2Proof.Machine

open Sys2Proof.Spec

/-! ## The command that reads the matrix -/

/-- 20_memory.md R66: only SCORE reads the matrix. -/
theorem readsMatrix_iff (l : Latched) : readsMatrix l = true ↔ ∃ o, l.command = .score o := by
  unfold readsMatrix
  cases l.command <;> simp

theorem effectOf_of_readsMatrix {l : Latched} (h : readsMatrix l = true) (s : State) :
    effectOf l s = scoreEffect l s := by
  obtain ⟨o, ho⟩ := (readsMatrix_iff l).mp h
  rw [effectOf, ho]

theorem startScan_of_readsMatrix {l : Latched} (h : readsMatrix l = true) (p : PscWork) :
    startScan l p = PscWork.start (sideOf l.version) := by
  obtain ⟨o, ho⟩ := (readsMatrix_iff l).mp h
  rw [startScan, ho]

theorem commandFmtId_of_readsMatrix {l : Latched} (h : readsMatrix l = true) : commandFmtId l = none := by
  obtain ⟨o, ho⟩ := (readsMatrix_iff l).mp h
  rw [commandFmtId, ho]

/-- 20_memory.md R69: a running SCORE owns every cell of its matrix. -/
theorem outside_of_not_owned {s : State} {l : Latched} (hrun : s.seq = .run l) (hreads : readsMatrix l = true)
    {row col : Nat} (hfree : ownsCell s row col = false) : ¬ (row < sideOf l.version ∧ col < sideOf l.version) := by
  rintro ⟨hr, hc⟩
  simp [ownsCell, hrun, hreads, hr, hc] at hfree

/-! ## The hidden scan -/

theorem sideOf_pos (v : BitVec 6) : 0 < sideOf v := Nat.succ_pos _

theorem scanOnTrack_of_idle {s : State} (h : s.seq = .idle) : ScanOnTrack s := by
  intro l hl
  rw [h] at hl
  cases hl

/-- The fields that the statement of the scan speaks of. -/
theorem ScanOnTrack.congr {s t : State} (h : ScanOnTrack s) (hseq : t.seq = s.seq) (hpsc : t.psc = s.psc)
    (hmem : t.mem = s.mem) : ScanOnTrack t := by
  intro l hl
  rw [hpsc, hmem]
  exact h l (hseq ▸ hl)

/-- A host write to a cell that is not owned changes no color inside the matrix of a running SCORE. -/
theorem colorAt_matWrite_of_not_owned {s : State} (hinv : Inv s) {l : Latched} (hrun : s.seq = .run l)
    (hreads : readsMatrix l = true) {row col : Coord} (hfree : ownsCell s row.toNat col.toNat = false) (x : CellRec)
    {r c : Nat} (hr : r < sideOf l.version) (hc : c < sideOf l.version) :
    colorAt (matWrite s.mem row.toNat col.toNat x) r c = colorAt s.mem r c := by
  have hside := (sideOf_bounds_of_running hinv hrun (needsVersion_of_readsMatrix hreads)).2
  have houtside := outside_of_not_owned hrun hreads hfree
  have hne : (row.toNat, col.toNat) ≠ (r, c) := fun he => by
    obtain ⟨hrow, hcol⟩ := Prod.mk.inj he
    exact houtside ⟨hrow ▸ hr, hcol ▸ hc⟩
  rw [colorAt, colorAt, matRead_matWrite_ne s.mem x col.isLt (by omega) hne]

theorem scanOnTrack_hostCellWrite {s : State} (hinv : Inv s) (h : ScanOnTrack s) {row col : Coord} (x : CellRec)
    (hfree : ownsCell s row.toNat col.toNat = false) :
    ScanOnTrack (storeMatrix (matWrite s.mem row.toNat col.toNat x) s) := by
  intro l hrun hreads
  obtain ⟨k, hk⟩ := h l hrun hreads
  refine ⟨k, hk.trans (scanSteps_congr _ _ (sideOf_pos l.version) (fun r c hr hc => ?_) k)⟩
  exact (colorAt_matWrite_of_not_owned hinv hrun hreads hfree x hr hc).symm

/-- 20_memory.md R66: an access of the running SCORE is the scan's next cell. -/
theorem scanOnTrack_accessMatrix {s : State} (h : ScanOnTrack s) (k : Nat) : ScanOnTrack (accessMatrix k s) := by
  rcases accessMatrix_cases k s with ha | ⟨l, w, hrun, hw, ha⟩ | ⟨l, hrun, -, ha⟩ <;> rw [ha]
  · exact h
  · intro l' hrun' hreads
    obtain rfl : l = l' := Sequencer.run.inj (hrun.symm.trans hrun')
    rw [runningWrites_of_readsMatrix hreads] at hw
    cases hw
  · intro l' hrun' hreads
    obtain rfl : l = l' := Sequencer.run.inj (hrun.symm.trans hrun')
    obtain ⟨j, hj⟩ := h l hrun hreads
    exact ⟨j + 1, by rw [scanSteps_succ, ← hj]⟩

/-- The scan, one elementary change after the other. -/
theorem Move.keeps_scanOnTrack {s t : State} (hinv : Inv s) (h : ScanOnTrack s) (hmove : Move s t) :
    ScanOnTrack t := by
  cases hmove with
  | host ts r => exact h.congr rfl rfl rfl
  | raise info hcode => exact h.congr (raiseError_seq ..) (raiseError_psc ..) (raiseError_mem ..)
  | status v => exact h.congr (storeStatus_seq ..) (storeStatus_psc ..) (storeStatus_mem ..)
  | ctrl v hidle | version v hidle | mask v hidle | fmtId v hidle => exact scanOnTrack_of_idle hidle
  | reset => exact scanOnTrack_of_idle rfl
  | start hwf hs ho =>
    rintro l ⟨⟩ hreads
    exact ⟨0, startScan_of_readsMatrix hreads _⟩
  | cell row col c hfree => exact scanOnTrack_hostCellWrite hinv h c hfree
  | access k => exact scanOnTrack_accessMatrix h k
  | runFmtId => rw [runFmtId_frame]; exact h.congr rfl rfl rfl
  | complete => exact scanOnTrack_of_idle (completeRunning_seq s)

/-- Settles O53: every elementary change keeps the scan on track next to the invariant. -/
theorem everyStepKeepsTheScanOnTrack : Obligations.EveryStepKeepsTheScanOnTrack := by
  intro s t hinv htrack hstep
  have hkept := (step_moves hstep).keeps (P := fun u => Inv u ∧ ScanOnTrack u)
    (fun ⟨hinv, h⟩ hmove => ⟨hmove.keeps_inv hinv, hmove.keeps_scanOnTrack hinv h⟩) ⟨hinv, htrack⟩
  exact hkept.2

/-! ## Accesses before the completion -/

/-- A finished scan reads no more cells. -/
theorem scanNext_of_finished (mode : Rule3Mode) {n : Nat} (color : Nat → Nat → Bool) {p : PscWork}
    (h : scanFinished n p = true) : scanNext mode n color p = p := by rw [scanNext, if_pos h]

/-- 10_state.md R41: a cell read before the completion is one the completion need not read. -/
theorem scanToEnd_scanNext (mode : Rule3Mode) {n : Nat} (hn : 0 < n) (color : Nat → Nat → Bool) (p : PscWork) :
    scanToEnd mode n color (scanNext mode n color p) = scanToEnd mode n color p := by
  have hone : scanToEnd mode n color (scanNext mode n color p) =
    scanNext mode n color (scanToEnd mode n color p) := scanSteps_succ mode n color (n * n) p
  rw [hone, scanNext_of_finished mode color (scanFinished_scanToEnd mode hn color p)]

/-- 20_memory.md R71: no two writes of a command go to one cell, so one made before the others changes nothing. -/
theorem writeCells_matWrite {m : Memory} (hm : m.wf = true) {ws : List CellWrite}
    (hlt : ∀ w ∈ ws, w.row < 256 ∧ w.col < 256) (hd : (ws.map fun w => cellAddress w.row w.col).Nodup)
    {w : CellWrite} (hw : w ∈ ws) : writeCells (matWrite m w.row w.col w.cell) ws = writeCells m ws := by
  obtain ⟨hrow, hcol⟩ := hlt w hw
  have hm' := matWrite_wf hm w.cell hrow hcol
  refine Memory.eq_of_read_eq (writeCells_wf hm' hlt) (writeCells_wf hm hlt) fun a => ?_
  by_cases ha : ∃ v ∈ ws, cellAddress v.row v.col = a
  · obtain ⟨v, hv, hva, hread⟩ := exists_writeCells_read hm' hlt ha
    obtain ⟨v', hv', hva', hread'⟩ := exists_writeCells_read hm hlt ha
    rw [hread, hread', List.inj_on_of_nodup_map hd hv hv' (hva.trans hva'.symm)]
  · have hother : ∀ v ∈ ws, cellAddress v.row v.col ≠ a := fun v hv he => ha ⟨v, hv, he⟩
    rw [writeCells_read_other _ _ hother, writeCells_read_other _ _ hother]
    exact Memory.read_write_ne m _ (hother w hw)

/-- 20_memory.md R65: the effect of a command that does not read the matrix writes its cells, whatever they hold. -/
theorem effectOf_storeMatrix {l : Latched} (hreads : readsMatrix l = false) (m : Memory) (s : State) :
    effectOf l (storeMatrix m s) = storeMatrix (writeCells m (runningWrites l s)) (effectOf l s) := by
  obtain ⟨command, version, mask, fmtId, mode⟩ := l
  cases command
  case score => cases hreads
  case fwrite => simp only [effectOf, fwriteEffect, fwriteCells, storeMatrix, runningWrites]
  case vwrite => simp only [effectOf, vwriteEffect, vwriteCells, storeMatrix, runningWrites]
  case encfv =>
    simp only [effectOf, encfvEffect, encfvCells, vcalcEffect, fcalcmEffect, storeMatrix, runningWrites]
  all_goals rfl

theorem writeFmtId_storeMatrix (l : Latched) (m : Memory) (s : State) :
    writeFmtId l (storeMatrix m s) = storeMatrix m (writeFmtId l s) := by
  unfold writeFmtId; cases commandFmtId l <;> rfl

theorem runningWrites_writeFmtId (l : Latched) (s : State) :
    runningWrites l (writeFmtId l s) = runningWrites l s :=
  runningWrites_congr l (by rw [writeFmtId_frame])

theorem storeMatrix_mem_self (s : State) : storeMatrix s.mem s = s := rfl

theorem completeRunning_cellWrite {s : State} (hinv : Inv s) {l : Latched} (hrun : s.seq = .run l) {w : CellWrite}
    (hw : w ∈ runningWrites l s) :
    completeRunning (storeMatrix (matWrite s.mem w.row w.col w.cell) s) = completeRunning s := by
  obtain ⟨hlt, hd⟩ := runningWrites_placed hinv hrun
  have hreads : readsMatrix l = false := by
    rw [← Bool.not_eq_true]
    intro hreads
    rw [runningWrites_of_readsMatrix hreads] at hw
    cases hw
  have heffect (m : Memory) : effectOf l (writeFmtId l (storeMatrix m s)) =
      storeMatrix (writeCells m (runningWrites l s)) (effectOf l (writeFmtId l s)) := by
    rw [writeFmtId_storeMatrix, effectOf_storeMatrix hreads, runningWrites_writeFmtId]
  have hmade := completeRunning_run (s := storeMatrix (matWrite s.mem w.row w.col w.cell) s) (l := l) hrun
  rw [hmade, completeRunning_run hrun, heffect,
    writeCells_matWrite hinv.memory hlt hd hw, ← heffect, storeMatrix_mem_self]

theorem completeRunning_cellRead {s : State} {l : Latched} (hrun : s.seq = .run l) (hreads : readsMatrix l = true) :
    completeRunning { s with psc := scanNext l.rule3Mode (sideOf l.version) (colorAt s.mem) s.psc } =
      completeRunning s := by
  have hfmt := commandFmtId_of_readsMatrix hreads
  have hread := completeRunning_run (l := l)
    (s := { s with psc := scanNext l.rule3Mode (sideOf l.version) (colorAt s.mem) s.psc }) hrun
  rw [hread, completeRunning_run hrun, writeFmtId_none hfmt, writeFmtId_none hfmt,
    effectOf_of_readsMatrix hreads, effectOf_of_readsMatrix hreads, scoreEffect_eq, scoreEffect_eq, trackBest_eq,
    trackBest_eq]
  simp only [scanToEnd_scanNext l.rule3Mode (sideOf_pos l.version)]
  rfl

theorem completeRunning_accessMatrix {s : State} (hinv : Inv s) (k : Nat) :
    completeRunning (accessMatrix k s) = completeRunning s := by
  rcases accessMatrix_cases k s with ha | ⟨l, w, hrun, hw, ha⟩ | ⟨l, hrun, hreads, ha⟩ <;> rw [ha]
  · exact completeRunning_cellWrite hinv hrun hw
  · exact completeRunning_cellRead hrun hreads

/-- 10_state.md R40: the moves of a running command do not change what its completion leaves. -/
theorem completeRunning_moves {s : State} (hinv : Inv s) (ks : List (Option Nat)) :
    completeRunning (moves ks s) = completeRunning s := by
  induction ks generalizing s with
  | nil => rfl
  | cons move ks ih =>
    cases move with
    | some k => rw [moves_cons_access, ih (inv_accessMatrix hinv k), completeRunning_accessMatrix hinv]
    | none => rw [moves_cons_fmtId, ih (inv_runFmtId hinv), completeRunning_runFmtId]

/-- Settles O55: one move after the other. -/
theorem earlyAccessesDoNotChangeTheOutcome : Obligations.EarlyAccessesDoNotChangeTheOutcome :=
  fun _ ks hinv => completeRunning_moves hinv ks

end Sys2Proof.Machine
end

section
/-! PROOF. Turns and runs: the schedule a turn does not look at, the moves of a command as steps, the two forms of a
command, the accesses that stop the machine, and with them the statements about these. -/

namespace Sys2Proof.Machine

open Sys2Proof.Spec

/-! ## The turns still to be taken -/

/-- No command looks at the schedule. -/
theorem effectOf_withSchedule (l : Latched) (ts : List Turn) (s : State) :
    effectOf l (withSchedule ts s) = withSchedule ts (effectOf l s) := by
  obtain ⟨command, version, mask, fmtId, mode⟩ := l
  cases command
  case fwrite => simp only [effectOf, fwriteEffect, fwriteCells, storeMatrix, withSchedule]
  case vwrite => simp only [effectOf, vwriteEffect, vwriteCells, storeMatrix, withSchedule]
  case encfv => simp only [effectOf, encfvEffect, encfvCells, vcalcEffect, fcalcmEffect, storeMatrix, withSchedule]
  case score => simp only [effectOf, scoreEffect, trackBest_eq]; rfl
  all_goals rfl

theorem writeFmtId_withSchedule (l : Latched) (ts : List Turn) (s : State) :
    writeFmtId l (withSchedule ts s) = withSchedule ts (writeFmtId l s) := by
  unfold writeFmtId; cases commandFmtId l <;> rfl

theorem completeRunning_withSchedule (ts : List Turn) (s : State) :
    completeRunning (withSchedule ts s) = withSchedule ts (completeRunning s) := by
  cases hs : s.seq with
  | idle => rw [completeRunning_idle hs, completeRunning_idle (s := withSchedule ts s) hs]
  | run l =>
    rw [completeRunning_run hs, completeRunning_run (s := withSchedule ts s) hs, writeFmtId_withSchedule,
      effectOf_withSchedule]
    rfl

theorem runFmtId_withSchedule (ts : List Turn) (s : State) :
    runFmtId (withSchedule ts s) = withSchedule ts (runFmtId s) := by
  cases hs : s.seq with
  | idle => rw [runFmtId_idle hs, runFmtId_idle (s := withSchedule ts s) hs]
  | run l => rw [runFmtId_run hs, runFmtId_run (s := withSchedule ts s) hs, writeFmtId_withSchedule]

theorem runningWrites_withSchedule (l : Latched) (ts : List Turn) (s : State) :
    runningWrites l (withSchedule ts s) = runningWrites l s := by
  unfold runningWrites; cases l.command <;> rfl

theorem accessMatrix_withSchedule (k : Nat) (ts : List Turn) (s : State) :
    accessMatrix k (withSchedule ts s) = withSchedule ts (accessMatrix k s) := by
  unfold accessMatrix
  rw [withSchedule_seq]
  cases s.seq with
  | idle => rfl
  | run l =>
    dsimp only
    rw [runningWrites_withSchedule]
    cases (runningWrites l s)[k]? with
    | some w => rfl
    | none => unfold readNextCell; cases readsMatrix l <;> rfl

theorem raiseError_withSchedule (code : ErrorCode) (info : Word) (ts : List Turn) (s : State) :
    raiseError code info (withSchedule ts s) = withSchedule ts (raiseError code info s) := by
  unfold raiseError
  rw [withSchedule_err]
  split <;> rfl

theorem loadOperands_withSchedule (o : Operands) (ts : List Turn) (s : State) :
    loadOperands o (withSchedule ts s) = withSchedule ts (loadOperands o s) := by
  unfold loadOperands; split <;> rfl

theorem operandError_withSchedule (i : Instr) (ts : List Turn) (s : State) :
    operandError i (withSchedule ts s) = operandError i s := rfl

theorem admission_withSchedule (i : Instr) (ts : List Turn) (s : State) :
    (admission i (withSchedule ts s)).state = withSchedule ts (admission i s).state := by
  unfold admission
  rw [withSchedule_err, operandError_withSchedule, raiseError_withSchedule]
  by_cases herr : s.err = true
  · rw [if_pos herr, if_pos herr]; rfl
  rw [if_neg herr, if_neg herr]
  by_cases hbusy : s.busy = true
  · rw [if_pos hbusy, if_pos (c := (withSchedule ts s).busy = true) hbusy]; rfl
  rw [if_neg hbusy, if_neg (c := (withSchedule ts s).busy = true) hbusy]
  cases operandError i s
  case none => simp only [loadOperands_withSchedule]; rfl
  all_goals exact raiseError_withSchedule _ _ _ _

theorem cmdWrite_withSchedule (w : Word) (ts : List Turn) (s : State) :
    cmdWrite w (withSchedule ts s) = withSchedule ts (cmdWrite w s) := by
  cases h : decodeWord w with
  | ok i => rw [cmdWrite_of_command h, cmdWrite_of_command h, admission_withSchedule]
  | error e =>
    rw [cmdWrite_of_illegal h, cmdWrite_of_illegal h, rejectIllegal, rejectIllegal, raiseError_withSchedule,
      raiseError_withSchedule]
    exact (apply_ite (withSchedule ts) (s.busy = true) _ _).symm

/-! ## Runs -/

theorem run_succ (M : Host.Core) {s t : M.State} (h : M.step s = .next t) (k : Nat) : M.run (k + 1) s = M.run k t := by
  rw [Host.Core.run, h]

theorem core_run_succ {s t : State} (h : step s = .next t) (k : Nat) :
    Host.Core.run Sys2Proof.core (k + 1) s = Host.Core.run Sys2Proof.core k t := run_succ Sys2Proof.core h k

/-- The turns of a command's moves, taken one after the other. -/
theorem core_run_moves (ks : List (Option Nat)) (ts : List Turn) (k : Nat) (s : State) :
    Host.Core.run Sys2Proof.core (ks.length + k) (withSchedule (ks.map moveTurn ++ ts) s) =
      Host.Core.run Sys2Proof.core k (withSchedule ts (moves ks s)) := by
  induction ks generalizing s with
  | nil => rw [List.length_nil, Nat.zero_add]; rfl
  | cons move ks ih =>
    have hlength : (move :: ks).length + k = ks.length + k + 1 := by rw [List.length_cons]; omega
    rw [hlength]
    cases move with
    | some j =>
      rw [moves_cons_access, ← ih (accessMatrix j s), ← accessMatrix_withSchedule]
      exact core_run_succ rfl _
    | none =>
      rw [moves_cons_fmtId, ← ih (runFmtId s), ← runFmtId_withSchedule]
      exact core_run_succ rfl _

/-! ## The two forms of a command -/

/-- 10_state.md R40: in IDLE a command word run at once is its CMD write and the completion of what it started. -/
theorem runCommand_eq_completeRunning {s : State} (hidle : s.seq = .idle) (w : Word) :
    runCommand w s = .next (completeRunning (cmdWrite w (answer .ack s))) := by
  have hrejected {t : State} (ht : t.seq = (answer .ack s).seq) : completeRunning t = t := completeRunning_idle (ht.trans hidle)
  cases h : decodeWord w with
  | error e =>
    rw [runCommand_of_error h, cmdWrite_of_illegal h, rejectIllegal_of_idle (s := answer .ack s) hidle,
      hrejected (raiseError_seq _ _ _)]
  | ok i =>
    rw [runCommand_of_decodeWord h, cmdWrite_of_command h, exec_eq_issue]
    rcases admission_cases i (answer .ack s) with ⟨-, ha⟩ | ⟨-, -, ha⟩ | ⟨-, -, -, ha⟩ | ⟨herr, -, ho, ha⟩
    · rw [issue_of_rejected _ ha, ha, Admission.state, hrejected rfl]
    · rw [issue_of_rejected _ ha, ha, Admission.state, hrejected (raiseError_seq _ _ _)]
    · rw [issue_of_rejected _ ha, ha, Admission.state, hrejected (raiseError_seq _ _ _)]
    · rw [issue_of_ready (s := answer .ack s) _ herr hidle ho, ha]
      rfl

theorem Moves.keeps_inv {s t : State} (h : Moves s t) (hinv : Inv s) : Inv t :=
  h.keeps (fun hinv hmove => hmove.keeps_inv hinv) hinv

/-- The CMD write and the moves of the two-phase form, as steps. -/
theorem core_run_cmdWrite_moves (w : Word) (ks : List (Option Nat)) (ts : List Turn) (s : State) :
    Host.Core.run Sys2Proof.core (ks.length + 2)
        { s with schedule := .hostWrite Reg.cmd.address 4 w :: (ks.map moveTurn ++ ts) } =
      Host.Core.run Sys2Proof.core 1 (withSchedule ts (moves ks (cmdWrite w (answer .ack s)))) := by
  have hstep : step { s with schedule := .hostWrite Reg.cmd.address 4 w :: (ks.map moveTurn ++ ts) } =
      .next (withSchedule (ks.map moveTurn ++ ts) (cmdWrite w (answer .ack s))) := by
    rw [step_of_turn rfl, runTurn, hostWrite_reg, ← cmdWrite_withSchedule]
    rfl
  rw [core_run_succ hstep, core_run_moves ks ts 1]

/-- Settles O56: both forms end in the completion of what the CMD write leaves, which no move changes. -/
theorem theTwoFormsOfACommandAgree : Obligations.TheTwoFormsOfACommandAgree := by
  intro s w ks rest hinv hidle
  have hcmd : Inv (cmdWrite w (answer .ack s)) := (cmdWrite_moves w _).keeps_inv ((Move.answer .ack s).keeps_inv hinv)
  have hcomplete : completeRunning (withSchedule rest (moves ks (cmdWrite w (answer .ack s)))) =
      withSchedule rest (completeRunning (cmdWrite w (answer .ack s))) := by
    rw [completeRunning_withSchedule, completeRunning_moves hcmd]
  refine ⟨withSchedule rest (completeRunning (cmdWrite w (answer .ack s))), ?_, ?_, ?_⟩
  · refine core_run_succ (t := withSchedule rest (completeRunning (cmdWrite w (answer .ack s)))) ?_ 0
    rw [step_of_turn rfl, ← completeRunning_withSchedule, ← cmdWrite_withSchedule]
    exact runCommand_eq_completeRunning (s := withSchedule rest s) hidle w
  · rw [core_run_cmdWrite_moves, ← hcomplete]
    exact core_run_succ rfl 0
  · rw [core_run_cmdWrite_moves, ← hcomplete]
    exact core_run_succ rfl 0

/-! ## What stops the machine -/

/-- 20_memory.md R69: a turn answers a next state exactly when it is no host access of an owned cell. -/
theorem runTurn_next_iff (t : Turn) (s : State) :
    (∃ s', runTurn t s = .next s') ↔ respectsOwnership t s = true := by
  cases t
  case hostCellWrite row col c =>
    cases ho : ownsCell s row.toNat col.toNat <;> simp [runTurn, hostCellWrite, respectsOwnership, ho]
  case hostCellRead row col =>
    cases ho : ownsCell s row.toNat col.toNat <;> simp [runTurn, hostCellRead, respectsOwnership, ho]
  case command w =>
    refine ⟨fun _ => rfl, fun _ => ?_⟩
    cases h : decodeWord w with
    | ok i =>
      obtain ⟨t, ht⟩ := exec_next i (answer .ack s)
      exact ⟨t, (runCommand_of_decodeWord h s).trans ht⟩
    | error e => exact ⟨_, runCommand_of_error h s⟩
  all_goals exact ⟨fun _ => rfl, fun _ => ⟨_, rfl⟩⟩

/-- Settles O59: what a turn answers, of the next turn. -/
theorem onlyAMatrixRaceStopsTheMachine : Obligations.OnlyAMatrixRaceStopsTheMachine := by
  refine fun s => ⟨runTurn_next_iff _ _, fun hstops => ?_, fun i => exec_next i s⟩
  obtain ⟨row, col, hfault, -⟩ := runTurn_stops (t := nextTurn s) (s := popTurn s) fun s' h => hstops ⟨s', h⟩
  exact ⟨row, col, hfault⟩

/-! ## The cells a command owns -/

section Owned

variable {row col : Nat}

theorem any_twoCopies_iff {k : Nat} {f g : Nat → Nat × Nat} {bit : Nat → Bool} :
    ((twoCopies k f g bit).any fun w => w.row == row && w.col == col) = true ↔
      ∃ i < k, f i = (row, col) ∨ g i = (row, col) := by
  simp only [List.any_eq_true, mem_twoCopies, Bool.and_eq_true, beq_iff_eq]
  constructor
  · rintro ⟨w, ⟨i, hi, rfl | rfl⟩, rfl, rfl⟩
    · exact ⟨i, hi, .inl rfl⟩
    · exact ⟨i, hi, .inr rfl⟩
  · rintro ⟨i, hi, h | h⟩
    · exact ⟨_, ⟨i, hi, .inl rfl⟩, congrArg Prod.fst h, congrArg Prod.snd h⟩
    · exact ⟨_, ⟨i, hi, .inr rfl⟩, congrArg Prod.fst h, congrArg Prod.snd h⟩

theorem any_formatWrites_iff {n : Nat} {w : BitVec 15} :
    ((formatWrites n w).any fun w => w.row == row && w.col == col) = true ↔
      ∃ i < 15, copyA i = (row, col) ∨ copyB n i = (row, col) := any_twoCopies_iff

theorem any_versionWrites_iff {v : BitVec 6} {w : BitVec 18} :
    ((versionWrites v w).any fun w => w.row == row && w.col == col) = true ↔
      7 ≤ v.toNat ∧ ∃ i < 18, blockTR (sideOf v) i = (row, col) ∨ blockBL (sideOf v) i = (row, col) := by
  by_cases h7 : 7 ≤ v.toNat
  · rw [versionWrites_eq_twoCopies h7, any_twoCopies_iff, and_iff_right h7]
  · simp [versionWrites_eq_nil (not_le.mp h7), h7]

theorem ownsCell_of_idle {s : State} (h : s.seq = .idle) : ownsCell s row col = false := by rw [ownsCell, h]

theorem ownsCell_of_running {s : State} {l : Latched} (h : s.seq = .run l) :
    ownsCell s row col = true ↔
      (readsMatrix l = true ∧ row < sideOf l.version ∧ col < sideOf l.version) ∨
        ((runningWrites l s).any fun w => w.row == row && w.col == col) = true := by
  simp only [ownsCell, h, Bool.or_eq_true, Bool.and_eq_true, decide_eq_true_eq, and_assoc]

end Owned

/-- Settles O58: the cells a command reads or writes, command by command. -/
theorem hostAccessOfAnOwnedCellIsAFault : Obligations.HostAccessOfAnOwnedCellIsAFault := by
  refine ⟨fun s row col => ⟨ownsCell_of_idle, fun l hrun => ?_⟩, fun s row col c rest => ⟨fun hs => ?_, fun hs => ?_⟩⟩
  · rw [ownsCell_of_running hrun]
    unfold readsMatrix runningWrites
    cases l.command
    case fwrite => simpa [fwriteCells] using any_formatWrites_iff
    case vwrite => simpa [vwriteCells] using any_versionWrites_iff
    case encfv => simpa [encfvCells] using or_congr any_formatWrites_iff any_versionWrites_iff
    all_goals simp
  · rw [step_of_turn hs]; rfl
  · rw [step_of_turn hs]; rfl

end Sys2Proof.Machine
end

section
/-! PROOF. The register window: host accesses of registers, of reserved offsets and of other widths, the registers read
and written by the host, and the result registers, which only a completion and a reset change. -/

namespace Sys2Proof.Machine

open Sys2Proof.Spec

/-! ## Accesses of the window -/

theorem offset_lt (r : Reg) : r.offset.toNat < 0x4C := by cases r <;> decide

/-- 10_state.md R22: from 0x4C on no register stands. -/
theorem regAt_reserved {off : Offset} (h : 0x4C ≤ off.toNat) : regAt off = none := by
  cases hr : regAt off with
  | none => rfl
  | some r =>
    obtain rfl := offset_of_regAt hr
    have := offset_lt r
    omega

theorem readOffset_reserved {off : Offset} (h : 0x4C ≤ off.toNat) (s : State) : readOffset s off = 0 := by
  rw [readOffset, regAt_reserved h]

theorem writeOffset_reserved {off : Offset} (h : 0x4C ≤ off.toNat) (v : Word) (s : State) :
    writeOffset off v s = s := by rw [writeOffset, regAt_reserved h]

section Access

variable {off : Offset} {size : Nat} (v : Word) (s : State)

theorem hostWrite_of_legal (h : legalAccess off size = true) :
    hostWrite (Config.qrfvBase + off.toNat) size v s = writeOffset off v (answer .ack s) := by
  rw [hostWrite, windowOffset_address]
  exact if_pos h

theorem hostRead_of_legal (h : legalAccess off size = true) :
    hostRead (Config.qrfvBase + off.toNat) size s = answer (.data (readOffset s off)) s := by
  rw [hostRead, windowOffset_address]
  exact if_pos h

/-- 20_memory.md R61: a write of another width or alignment. -/
theorem hostWrite_of_illegal (h : ¬ legalAccess off size = true) :
    hostWrite (Config.qrfvBase + off.toNat) size v s = answer .busError s := by
  rw [hostWrite, windowOffset_address]
  exact if_neg h

/-- 20_memory.md R61: a read of another width or alignment. -/
theorem hostRead_of_illegal (h : ¬ legalAccess off size = true) :
    hostRead (Config.qrfvBase + off.toNat) size s = answer .busError s := by
  rw [hostRead, windowOffset_address]
  exact if_neg h

end Access

theorem legalAccess_iff (off : Offset) (size : Nat) :
    legalAccess off size = true ↔ size = 4 ∧ off.toNat % 4 = 0 := by
  rw [legalAccess, Bool.and_eq_true, beq_iff_eq, beq_iff_eq]

theorem readRegister_withSchedule (ts : List Turn) (s : State) (r : Reg) :
    readRegister (withSchedule ts s) r = readRegister s r := by cases r <;> rfl

/-- 10_state.md R40: a completion gives the host no answer. -/
theorem completeRunning_reply (s : State) : (completeRunning s).reply = s.reply := by
  cases hs : s.seq with
  | idle => rw [completeRunning_idle hs]
  | run l => rw [completeRunning_run hs, finish_reply, effectOf_frame]; exact writeFmtId_reply s l

/-- Settles O6: by the offset, a register's or a reserved one, and by the width and alignment of the access. -/
theorem hostAccessesOfTheRegisterWindow : Obligations.HostAccessesOfTheRegisterWindow := by
  refine ⟨fun s r v rest => ⟨fun hs => ?_, fun hs => ?_⟩,
    fun s off v rest hoff halign => ⟨fun hs => ?_, fun hs => ?_⟩,
    fun s off size v rest hbad => ⟨fun hs => ?_, fun hs => ?_⟩, fun s addr size => ?_, fun s rest hs => ?_⟩
  · exact (step_of_turn hs).trans (congrArg Host.Outcome.next (hostWrite_reg r v _))
  · refine (step_of_turn hs).trans (congrArg Host.Outcome.next ((hostRead_reg r _).trans ?_))
    rw [readRegister_withSchedule]
    rfl
  · have hlegal := (legalAccess_iff off 4).mpr ⟨rfl, halign⟩
    rw [step_of_turn hs, runTurn, hostWrite_of_legal v _ hlegal, writeOffset_reserved hoff]
    rfl
  · have hlegal := (legalAccess_iff off 4).mpr ⟨rfl, halign⟩
    rw [step_of_turn hs, runTurn, hostRead_of_legal _ hlegal, readOffset_reserved hoff]
    rfl
  · have hillegal : ¬ legalAccess off size = true := by rw [legalAccess_iff]; tauto
    rw [step_of_turn hs, runTurn, hostWrite_of_illegal v _ hillegal]
    rfl
  · have hillegal : ¬ legalAccess off size = true := by rw [legalAccess_iff]; tauto
    rw [step_of_turn hs, runTurn, hostRead_of_illegal _ hillegal]
    rfl
  · exact hostRead_frame addr size s
  · have hidle := completeRunning_seq (withSchedule rest s)
    have hreply : (completeRunning (withSchedule rest s)).reply = s.reply := completeRunning_reply _
    refine ⟨_, step_of_turn hs, (busy_eq_false_iff _).mpr hidle, rfl, ?_⟩
    show { completeRunning (withSchedule rest s) with reply := s.reply } = completeRunning (withSchedule rest s)
    rw [← hreply]

/-! ## Registers -/

/-- Settles O14: the offsets in order, the register found at each, the reset values, and the offsets from 0x4C on. -/
theorem registerMapIsTheSpecs : Obligations.RegisterMapIsTheSpecs :=
  ⟨rfl, fun r => ⟨regAt_offset r, readRegister_reset r⟩,
    fun _ s v hoff => ⟨readOffset_reserved hoff s, writeOffset_reserved hoff v s⟩⟩

/-- 10_state.md R28: which writes store RULE3_MODE = 1. -/
theorem rule3Mode_ofBits_eq_patterns_iff (b : BitVec 2) :
    Rule3Mode.ofBits b = .patterns ↔ b = 1#2 ∧ Config.rule3Mode1Impl = true := by
  unfold Rule3Mode.ofBits
  split
  case isTrue h => simpa using h
  case isFalse h => simpa using h

/-- Settles O17: the reset, the store, and the width of CTRL. -/
theorem controlWritesKeepOnlyLegalModes : Obligations.ControlWritesKeepOnlyLegalModes := by
  intro s v
  refine ⟨writeRegister_ctrl_of_sreset, fun hv hidle => ?_, getLsbD_readRegister_of_usedWidth_le (by decide)⟩
  exact ⟨_, writeRegister_ctrl_of_idle hidle hv, rule3Mode_ofBits_eq_patterns_iff _⟩

/-- 10_state.md R26, R27: a STATUS write on the whole state. -/
theorem storeStatus_eq (v : Word) (s : State) :
    storeStatus v s =
      { s with
        done := s.done && !v.getLsbD 1
        err := s.err && !v.getLsbD 2
        errCode := if v.getLsbD 2 then .none else s.errCode
        errInfo := if v.getLsbD 2 then 0 else s.errInfo } := by
  unfold storeStatus
  cases v.getLsbD 1 <;> cases v.getLsbD 2 <;> simp [clearDone, clearError]

/-- Settles O18: the write on the whole state, then the set and the clear in both orders. -/
theorem statusBitsAreWriteOneToClear : Obligations.StatusBitsAreWriteOneToClear := by
  intro s v
  refine ⟨storeStatus_eq v s, fun l hrun => ⟨completeRunning_done ((storeStatus_seq s v).trans hrun), fun hv => ?_⟩,
    fun code info hv => ⟨raiseError_of_no_err ?_ code info, ?_⟩⟩
  · rw [writeRegister_status, storeStatus_done, if_pos hv]
  · rw [writeRegister_status, storeStatus_err, if_pos hv]
  · rw [writeRegister_status, storeStatus_err, if_pos hv]

/-- Settles O19: SIZE as a number; at its ends the two words are those of the numbers. -/
theorem sizeIsAViewOfVersion : Obligations.SizeIsAViewOfVersion := by
  intro s
  have hsize : (readRegister s .size).toNat = 4 * s.version.toNat + 17 :=
    (BitVec.toNat_setWidth_of_le (by decide)).trans (toNat_sizeView s)
  refine ⟨hsize, fun v => rfl, by decide, fun hv => BitVec.eq_of_toNat_eq ?_⟩
  rw [hsize, hv]
  rfl

/-! ## The result registers -/

/-- 10_state.md R33: the result registers but for DONE and VER_VALID hold the same in `t` as in `s`. -/
def SameResults (s t : State) : Prop :=
  t.fmtWord = s.fmtWord ∧ t.verWord = s.verWord ∧ t.penTotal = s.penTotal ∧ t.penR1 = s.penR1 ∧
    t.penR2 = s.penR2 ∧ t.penR3 = s.penR3 ∧ t.penR4 = s.penR4 ∧ t.darkCount = s.darkCount ∧
    t.bestPenalty = s.bestPenalty ∧ t.bestMask = s.bestMask ∧ t.bestValid = s.bestValid

theorem SameResults.refl (s : State) : SameResults s s := ⟨rfl, rfl, rfl, rfl, rfl, rfl, rfl, rfl, rfl, rfl, rfl⟩

/-- 10_state.md R29, 30_encoding.md R82: the register writes that clear VER_VALID. -/
def clearsVerValid (r : Reg) (v : Word) (s t : State) : Prop :=
  t.verValid = false ∧ s.busy = false ∧ (r = .version ∨ (r = .cmd ∧ v.getLsbD 31 = true ∧ t.busy = true))

/-- What a state change that is no completion and no reset does to the result registers. -/
def KeepsResults (r : Reg) (v : Word) (s t : State) : Prop :=
  SameResults s t ∧ (t.verValid ≠ s.verValid → clearsVerValid r v s t) ∧ t.done = (s.done && t.done)

theorem KeepsResults.of_same {r : Reg} {v : Word} {s t : State} (h : SameResults s t) (hvalid : t.verValid = s.verValid)
    (hdone : t.done = s.done) : KeepsResults r v s t :=
  ⟨h, fun hne => absurd hvalid hne, by rw [hdone, Bool.and_self]⟩

theorem raiseError_keepsResults (r : Reg) (v : Word) (code : ErrorCode) (info : Word) (s : State) :
    KeepsResults r v s (raiseError code info s) := .of_same (by simp [SameResults]) (by simp) (by simp)

theorem storeStatus_keepsResults (r : Reg) (v : Word) (s : State) : KeepsResults r v s (storeStatus v s) := by
  rw [storeStatus_eq]
  exact ⟨.refl s, fun hne => absurd rfl hne, by simp⟩

theorem writeWhenIdle_keepsResults {r : Reg} {v : Word} {store : State → State} {s : State}
    (h : s.busy = false → KeepsResults r v s (store s)) : KeepsResults r v s (writeWhenIdle r store s) := by
  rcases writeWhenIdle_cases r store s with ⟨hfree, hw⟩ | ⟨-, hw⟩ <;> rw [hw]
  · exact h hfree
  · exact raiseError_keepsResults r v _ _ s

theorem loadedBy_sameResults (w : Word) (s : State) : SameResults s (loadedBy w s) := by
  unfold loadedBy
  split <;> exact .refl s

theorem loadedBy_done (w : Word) (s : State) : (loadedBy w s).done = s.done := by
  unfold loadedBy; split <;> rfl

/-- 30_encoding.md R82: only the operand load of an accepted CMD write clears VER_VALID. -/
theorem cmdWrite_keepsResults (w : Word) (s : State) : KeepsResults .cmd w s (cmdWrite w s) := by
  rcases cmdWrite_cases w s with ⟨code, info, h⟩ | ⟨hidle, i, h⟩ <;> rw [h]
  · exact raiseError_keepsResults .cmd w code info s
  · refine ⟨loadedBy_sameResults w s, fun hne => ?_, ?_⟩
    · rw [startCommand_verValid, loadedBy_verValid] at hne
      have hload : w.getLsbD 31 = true := by
        rw [← Bool.not_eq_false]
        exact fun hv => hne (by rw [hv]; rfl)
      refine ⟨?_, (busy_eq_false_iff s).mpr hidle, .inr ⟨rfl, hload, rfl⟩⟩
      rw [startCommand_verValid, loadedBy_verValid, if_pos hload]
    · rw [startCommand_done, loadedBy_done, Bool.and_self]

/-- 10_state.md R33: no register write but a soft reset changes the result registers, VER_VALID apart. -/
theorem writeRegister_keepsResults {r : Reg} {v : Word} (hreset : r = .ctrl → v.getLsbD 31 = false) (s : State) :
    KeepsResults r v s (writeRegister r v s) := by
  rcases writeRegister_cases r v s with h | ⟨rfl, h⟩ | ⟨rfl, h⟩ | ⟨hr, hv, h⟩ | ⟨rfl, -, h⟩ | ⟨rfl, h⟩ | ⟨rfl, h⟩ | ⟨rfl, h⟩ <;>
    rw [h]
  · exact .of_same (.refl s) rfl rfl
  · exact cmdWrite_keepsResults v s
  · exact storeStatus_keepsResults .status v s
  · exact absurd (hreset hr) (by simp [hv])
  · exact writeWhenIdle_keepsResults fun _ => .of_same (.refl s) rfl rfl
  · exact writeWhenIdle_keepsResults fun hfree =>
      ⟨.refl s, fun _ => ⟨rfl, hfree, .inl rfl⟩, (Bool.and_self _).symm⟩
  · exact writeWhenIdle_keepsResults fun _ => .of_same (.refl s) rfl rfl
  · exact writeWhenIdle_keepsResults fun _ => .of_same (.refl s) rfl rfl

/-- 10_state.md R33: what a turn that is no completion and no reset does to the result registers. -/
theorem runTurn_keepsResults {t : Turn} {s s' : State} (h : runTurn t s = .next s') (hcomplete : t ≠ .blockCompletes)
    (hwait : t ≠ .hostWait) (hreset : t ≠ .hardwareReset) (hcommand : ∀ w, t ≠ .command w)
    (hsoft : ∀ v, t = .hostWrite Reg.ctrl.address 4 v → v.getLsbD 31 = false) :
    (SameResults s s' ∧ s'.verValid = s.verValid ∧ s'.done = s.done) ∨
      ∃ r v, t = .hostWrite r.address 4 v ∧ KeepsResults r v s s' := by
  have hsame {u : State} (h1 : SameResults s u) (h2 : u.verValid = s.verValid) (h3 : u.done = s.done) :
    SameResults s u ∧ u.verValid = s.verValid ∧ u.done = s.done := ⟨h1, h2, h3⟩
  rcases runTurn_cases h with ⟨addr, size, v, rfl, rfl⟩ | ⟨addr, size, -, rfl⟩ | ⟨_, _, _, -, -, rfl⟩ |
    ⟨_, _, -, -, rfl⟩ | ⟨rfl, -⟩ | ⟨k, -, rfl⟩ | ⟨rfl, -⟩ | ⟨-, rfl⟩ | ⟨rfl, -⟩ | ⟨w, _, rfl, -⟩ | ⟨w, _, rfl, -⟩
  · rcases hostWrite_cases_reg addr size v s with ⟨a, ha⟩ | ⟨r, rfl, rfl, hr⟩
    · rw [ha]; exact .inl (hsame (.refl s) rfl rfl)
    · rw [hr]
      exact .inr ⟨r, v, rfl, writeRegister_keepsResults (s := answer .ack s) fun hc => hsoft v (by rw [hc])⟩
  · obtain ⟨a, ha⟩ := hostRead_frame addr size s
    rw [ha]; exact .inl (hsame (.refl s) rfl rfl)
  · exact .inl (hsame (.refl s) rfl rfl)
  · exact .inl (hsame (.refl s) rfl rfl)
  · exact absurd rfl hreset
  · rw [accessMatrix_frame]; exact .inl (hsame (.refl s) rfl rfl)
  · exact absurd rfl hcomplete
  · rw [runFmtId_frame]; exact .inl (hsame (.refl s) rfl rfl)
  · exact absurd rfl hwait
  · exact absurd rfl (hcommand w)
  · exact absurd rfl (hcommand w)

/-- 20_memory.md R74: a completion changes no operand register, CTRL, SIZE or ERR_INFO. -/
theorem readRegister_finish_effectOf (l : Latched) (s : State) :
    ∀ r ∈ [Reg.id, .cmd, .ctrl, .version, .mask, .fmtId, .size, .errInfo],
      readRegister (finish (effectOf l s)) r = readRegister s r := by
  rw [effectOf_frame]
  simp [readRegister, ctrlWord, sizeView, finish]

/-- Settles O60: the turns one by one, then the frame of an effect. -/
theorem resultsChangeOnlyAtCompletionAndReset : Obligations.ResultsChangeOnlyAtCompletionAndReset := by
  refine ⟨fun s t hstep hcomplete hwait hreset hcommand hsoft => ?_, fun s r hr => ?_⟩
  · have hkept : (SameResults s t ∧ t.verValid = s.verValid ∧ t.done = s.done) ∨
        ∃ r v, nextTurn s = .hostWrite r.address 4 v ∧ KeepsResults r v s t :=
      runTurn_keepsResults (s := popTurn s) hstep hcomplete hwait hreset hcommand hsoft
    rcases hkept with ⟨⟨h1, h2, h3, h4, h5, h6, h7, h8, h9, h10, h11⟩, hvalid, hdone⟩ |
      ⟨r, v, hturn, ⟨h1, h2, h3, h4, h5, h6, h7, h8, h9, h10, h11⟩, hvalid, hdone⟩
    · exact ⟨h1, h2, h3, h4, h5, h6, h7, h8, h9, h10, h11, fun hne => absurd hvalid hne, by rw [hdone, Bool.and_self]⟩
    · refine ⟨h1, h2, h3, h4, h5, h6, h7, h8, h9, h10, h11, fun hne => ?_, hdone⟩
      obtain ⟨hfalse, hfree, rfl | ⟨rfl, hload, hbusy⟩⟩ := hvalid hne
      · exact ⟨hfalse, hfree, .inl ⟨v, hturn⟩⟩
      · exact ⟨hfalse, hfree, .inr ⟨v, hturn, hload, hbusy⟩⟩
  · rw [completeRunning_runFmtId]
    cases hs : s.seq with
    | idle => rw [completeRunning_idle hs, runFmtId_idle hs]
    | run l => rw [completeRunning_run hs, runFmtId_run hs, readRegister_finish_effectOf l _ r hr]

end Sys2Proof.Machine
end

section
/-! PROOF. The cells commands write: distinct, inside the matrix, never the dark module, Functional afterwards, and
unchanged by the same command issued again. -/

namespace Sys2Proof.Machine

open Sys2Proof.Spec

/-! ## The cells of the running command -/

theorem length_twoCopies (k : Nat) (f g : Nat → Nat × Nat) (bit : Nat → Bool) :
    (twoCopies k f g bit).length = 2 * k := by
  simp [twoCopies, List.length_flatMap, Nat.mul_comm]

section Legal

variable {l : Latched} (h : legalVersion l.version = true) (s : State)

include h

theorem sideOf_bounds_of_legal : 21 ≤ sideOf l.version ∧ sideOf l.version ≤ 177 := by
  obtain ⟨h1, h40⟩ := (legalVersion_eq_true_iff _).mp h
  exact sideOf_bounds h1 h40

theorem runningWrites_nodup : ((runningWrites l s).map fun w => (w.row, w.col)).Nodup := by
  rcases runningWrites_sublist l s with hnil | ⟨-, fw, vw, hsub⟩
  · simp [hnil]
  · exact (formatWrites_append_versionWrites_nodup (sideOf_bounds_of_legal h).1 l.version fw vw).sublist (hsub.map _)

theorem runningWrites_inside : ∀ w ∈ runningWrites l s, w.row < sideOf l.version ∧ w.col < sideOf l.version := by
  rcases runningWrites_sublist l s with hnil | ⟨-, fw, vw, hsub⟩
  · simp [hnil]
  · exact fun w hw => List.forall_mem_append.mpr
      ⟨formatWrites_inside (sideOf_bounds_of_legal h).1 fw, versionWrites_inside l.version vw⟩ w (hsub.subset hw)

end Legal

/-- Settles O38: the cells of the two words, of which a command writes some. -/
theorem writtenCellsAreDistinctAndInside : Obligations.WrittenCellsAreDistinctAndInside := by
  refine ⟨by decide, fun l s h => ⟨runningWrites_nodup h s, runningWrites_inside h s, length_twoCopies .., fun h45 => ?_,
    formatWrites_append_versionWrites_nodup (sideOf_bounds_of_legal h).1 _ _ _⟩⟩
  have h7 : 7 ≤ l.version.toNat := by unfold sideOf at h45; omega
  rw [vwriteCells, versionWrites_eq_twoCopies h7, length_twoCopies]

/-- 40_format_version.md R112: the format cells pass the dark module by. -/
theorem formatWrites_avoid_dark {n : Nat} (hn : 21 ≤ n) (w : BitVec 15) :
    ∀ c ∈ formatWrites n w, (c.row, c.col) ≠ (n - 8, 8) := by
  refine forall_mem_twoCopies (P := fun p => p ≠ (n - 8, 8)) fun i hi => ?_
  have hA := copyA_le_eight i hi
  have hB := copyB_cases hn hi
  simp only [ne_eq, Prod.ext_iff]
  omega

theorem versionWrites_avoid_dark (v : BitVec 6) (w : BitVec 18) :
    ∀ c ∈ versionWrites v w, (c.row, c.col) ≠ (sideOf v - 8, 8) := by
  intro c hc
  have hfar := versionWrites_far v w c hc
  simp only [ne_eq, Prod.ext_iff, sideOf]
  omega

/-- Settles O39: neither word has a bit there. -/
theorem darkModuleIsNeverWritten : Obligations.DarkModuleIsNeverWritten := by
  intro l s h
  obtain ⟨hn, -⟩ := sideOf_bounds_of_legal h
  refine ⟨?_, ?_⟩
  · rw [copyB_of_eight_le le_rfl, Prod.mk.injEq]
    omega
  · rcases runningWrites_sublist l s with hnil | ⟨-, fw, vw, hsub⟩
    · simp [hnil]
    · exact fun w hw => List.forall_mem_append.mpr
        ⟨formatWrites_avoid_dark hn fw, versionWrites_avoid_dark l.version vw⟩ w (hsub.subset hw)

/-! ## What the block changes in the matrix -/

/-- 20_memory.md R65: every cell that a command writes becomes Functional. -/
theorem runningWrites_functional (l : Latched) (s : State) : ∀ w ∈ runningWrites l s, w.cell.kind = .functional := by
  have hcopies (k : Nat) (f g : Nat → Nat × Nat) (bit : Nat → Bool) :
      ∀ w ∈ twoCopies k f g bit, w.cell.kind = .functional := by
    intro w hw
    obtain ⟨i, -, rfl | rfl⟩ := mem_twoCopies.mp hw <;> rfl
  have hversion (v : BitVec 6) (vw : BitVec 18) : ∀ w ∈ versionWrites v vw, w.cell.kind = .functional := by
    by_cases h7 : 7 ≤ v.toNat
    · rw [versionWrites_eq_twoCopies h7]; exact hcopies _ _ _ _
    · simp [versionWrites_eq_nil (not_le.mp h7)]
  rcases runningWrites_sublist l s with hnil | ⟨-, fw, vw, hsub⟩
  · simp [hnil]
  · exact fun w hw => List.forall_mem_append.mpr
      ⟨hcopies _ _ _ _, hversion l.version vw⟩ w (hsub.subset hw)

/-- 20_memory.md R65, R67: `t` differs from the memory `m` only in cells inside its matrix, Functional in `t`. -/
def ChangesInside (m : Memory) (t : State) : Prop :=
  ∀ a, t.mem.read a ≠ m.read a →
    ∃ r c, r < sideOf t.version ∧ c < sideOf t.version ∧ cellAddress r c = a ∧ (matRead t.mem r c).kind = .functional

theorem ChangesInside.of_same {m : Memory} {t : State} (h : t.mem = m) : ChangesInside m t :=
  fun _ hne => absurd (by rw [h]) hne

/-- 10_state.md R40: some of the running command's cell writes, made. -/
theorem changesInside_of_writes {s t : State} (hinv : Inv s) {l : Latched} (hrun : s.seq = .run l)
    {ws : List CellWrite} (hsub : ws ⊆ runningWrites l s) (hmem : t.mem = writeCells s.mem ws)
    (hversion : t.version = s.version) : ChangesInside s.mem t := by
  intro a hne
  obtain ⟨hlt, -⟩ := runningWrites_placed hinv hrun
  have hhit : ∃ w ∈ ws, cellAddress w.row w.col = a := by
    by_contra hnone
    exact hne (hmem ▸ writeCells_read_other _ _ fun w hw he => hnone ⟨w, hw, he⟩)
  obtain ⟨w, hw, rfl, hread⟩ := exists_writeCells_read hinv.memory (fun w hw => hlt w (hsub hw)) hhit
  have hlegal : legalVersion l.version = true := by
    rcases runningWrites_sublist l s with hnil | ⟨hneeds, -⟩
    · rw [hnil] at hsub
      cases hsub hw
    · obtain ⟨-, -, -, -, -, hlegal, -⟩ := hinv.latched l hrun
      exact hlegal hneeds
  obtain ⟨-, hlatched, -⟩ := hinv.latched l hrun
  obtain ⟨hrow, hcol⟩ := runningWrites_inside hlegal s w (hsub hw)
  rw [hversion, ← hlatched]
  refine ⟨w.row, w.col, hrow, hcol, rfl, ?_⟩
  rw [matRead, hmem, hread, CellRec.ofByte_toByte]
  exact runningWrites_functional l s w (hsub hw)

theorem changesInside_accessMatrix {s : State} (hinv : Inv s) (k : Nat) : ChangesInside s.mem (accessMatrix k s) := by
  cases hs : s.seq with
  | idle => exact .of_same (by rw [accessMatrix, hs])
  | run l =>
    have hversion : (accessMatrix k s).version = s.version := by rw [accessMatrix_frame]
    refine changesInside_of_writes hinv hs (ws := (runningWrites l s)[k]?.toList) (fun w hw => ?_)
      (accessMatrix_mem hs k) hversion
    exact List.mem_of_getElem? (Option.mem_toList.mp hw)

theorem changesInside_completeRunning {s : State} (hinv : Inv s) : ChangesInside s.mem (completeRunning s) := by
  cases hs : s.seq with
  | idle => exact .of_same (by rw [completeRunning_idle hs])
  | run l =>
    refine changesInside_of_writes hinv hs (List.Subset.refl _) ?_ ?_
    · rw [completeRunning_run hs, finish_mem, effectOf_mem, writeFmtId_mem, runningWrites_writeFmtId]
    · rw [completeRunning_run hs, finish_version, effectOf_frame]
      exact writeFmtId_version s l

/-- 20_memory.md R65: no register write touches the matrix. -/
theorem writeRegister_mem (r : Reg) (v : Word) (s : State) : (writeRegister r v s).mem = s.mem := by
  have hidle {r : Reg} {store : State → State} (h : (store s).mem = s.mem) : (writeWhenIdle r store s).mem = s.mem := by
    rcases writeWhenIdle_cases r store s with ⟨-, hw⟩ | ⟨-, hw⟩ <;> rw [hw]
    · exact h
    · exact raiseError_mem _ _ _
  rcases writeRegister_cases r v s with h | ⟨-, h⟩ | ⟨-, h⟩ | ⟨-, -, h⟩ | ⟨-, -, h⟩ | ⟨-, h⟩ | ⟨-, h⟩ | ⟨-, h⟩ <;> rw [h]
  · rcases cmdWrite_cases v s with ⟨code, info, hc⟩ | ⟨-, i, hc⟩ <;> rw [hc]
    · exact raiseError_mem _ _ _
    · rw [startCommand_mem]; unfold loadedBy; split <;> rfl
  · exact storeStatus_mem _ _
  · rfl
  · exact hidle rfl
  · exact hidle rfl
  · exact hidle rfl
  · exact hidle rfl

theorem hostWrite_mem (addr size : Nat) (v : Word) (s : State) : (hostWrite addr size v s).mem = s.mem := by
  rcases hostWrite_cases_reg addr size v s with ⟨a, h⟩ | ⟨r, -, -, h⟩ <;> rw [h]
  · rfl
  · exact writeRegister_mem r v (answer .ack s)

theorem admission_mem (i : Instr) (s : State) : (admission i s).state.mem = s.mem := by
  rcases admission_cases i s with ⟨-, h⟩ | ⟨-, -, h⟩ | ⟨-, -, -, h⟩ | ⟨-, -, -, h⟩ <;> rw [h, Admission.state] <;> simp

theorem changesInside_exec {i : Instr} (hwf : i.wf = true) {s t : State} (hinv : Inv s) (h : exec i s = .next t) :
    ChangesInside s.mem t := by
  rcases exec_cases_completeRunning i s with he | ⟨hs, ho, he⟩ <;> rw [he] at h <;> cases h
  · exact .of_same (admission_mem i s)
  · have hstart := changesInside_completeRunning (inv_startCommand hinv hwf hs.2 ho)
    rwa [startCommand_mem, loadOperands_mem] at hstart

theorem rejectIllegal_mem (w : Word) (s : State) : (rejectIllegal w s).mem = s.mem := by
  rcases rejectIllegal_cases w s with ⟨-, h⟩ | ⟨-, -, h⟩ | ⟨-, -, h⟩ <;> rw [h]
  · exact raiseError_mem _ _ _
  · exact raiseError_mem _ _ _

theorem changesInside_runTurn {t : Turn} {s s' : State} (hinv : Inv s) (h : runTurn t s = .next s')
    (hblock : ∀ row col c, t ≠ .hostCellWrite row col c) : ChangesInside s.mem s' := by
  rcases runTurn_cases h with ⟨addr, size, v, -, rfl⟩ | ⟨addr, size, -, rfl⟩ | ⟨row, col, c, rfl, -, -⟩ |
    ⟨row, col, -, -, rfl⟩ | ⟨-, rfl⟩ | ⟨k, -, rfl⟩ | ⟨-, rfl⟩ | ⟨-, rfl⟩ | ⟨-, rfl⟩ | ⟨w, i, -, hi, he⟩ | ⟨w, e, -, -, rfl⟩
  · exact .of_same (hostWrite_mem addr size v s)
  · obtain ⟨a, ha⟩ := hostRead_frame addr size s
    exact .of_same (by rw [ha]; rfl)
  · exact absurd rfl (hblock row col c)
  · exact .of_same rfl
  · exact .of_same rfl
  · exact changesInside_accessMatrix hinv k
  · exact changesInside_completeRunning hinv
  · exact .of_same (by rw [runFmtId_frame])
  · exact changesInside_completeRunning hinv
  · exact changesInside_exec (s := answer .ack s) (wf_of_decodeWord hi) ((Move.answer .ack s).keeps_inv hinv) he
  · exact .of_same (rejectIllegal_mem w (answer .ack s))

/-- Settles O40: the memory stays canonical by the invariant; what changes, turn by turn. -/
theorem blockWritesOnlyFunctionalCellsInside : Obligations.BlockWritesOnlyFunctionalCellsInside := by
  intro s t hinv hstep hblock
  refine ⟨((step_moves hstep).keeps_inv hinv).memory, ?_⟩
  exact changesInside_runTurn (s := popTurn s) ((Move.popTurn s).keeps_inv hinv) hstep hblock

end Sys2Proof.Machine
end

section
/-! PROOF. A command issued again, and the version word a VWRITE writes. -/

namespace Sys2Proof.Machine

open Sys2Proof.Spec

/-! ## Issued again -/

/-- 20_memory.md R71: writes to different cells, some of them made before, leave what they leave alone. -/
theorem writeCells_writeCells {m : Memory} (hm : m.wf = true) {ws : List CellWrite}
    (hlt : ∀ w ∈ ws, w.row < 256 ∧ w.col < 256) (hd : (ws.map fun w => cellAddress w.row w.col).Nodup)
    {made : List CellWrite} (hsub : made ⊆ ws) : writeCells (writeCells m made) ws = writeCells m ws := by
  induction made generalizing m with
  | nil => rfl
  | cons w made ih =>
    obtain ⟨hw, hmade⟩ := List.cons_subset.mp hsub
    obtain ⟨hrow, hcol⟩ := hlt w hw
    rw [writeCells_cons, ih (matWrite_wf hm w.cell hrow hcol) hmade, writeCells_matWrite hm hlt hd hw]

/-- 40_format_version.md R125: the cells of ENCFV, written twice. -/
theorem writeCells_encfv_twice {m : Memory} (hm : m.wf = true) {v : BitVec 6} (h1 : 1 ≤ v.toNat) (h40 : v.toNat ≤ 40)
    (fw : BitVec 15) (vw : BitVec 18) :
    writeCells (writeCells m (formatWrites (sideOf v) fw ++ versionWrites v vw))
        (formatWrites (sideOf v) fw ++ versionWrites v vw) =
      writeCells m (formatWrites (sideOf v) fw ++ versionWrites v vw) := by
  obtain ⟨hn, hn'⟩ := sideOf_bounds h1 h40
  have hlt := forall_lt_256_of_lt_side hn'
    (List.forall_mem_append.mpr ⟨formatWrites_inside hn fw, versionWrites_inside v vw⟩)
  exact writeCells_writeCells hm hlt (nodup_cellAddress hlt (formatWrites_append_versionWrites_nodup hn v fw vw))
    (List.Subset.refl _)

/-- 30_encoding.md R82: a load made again writes the values that VERSION and MASK hold already. -/
theorem loaded_again {o : Operands} {s t : State} (hversion : t.version = (loaded o s).version)
    (hmask : t.mask = (loaded o s).mask) : ∃ valid f, loaded o t = { t with verValid := valid, fmtId := f } := by
  cases h : o.load with
  | false => exact ⟨t.verValid, t.fmtId, by rw [loaded, h]; rfl⟩
  | true =>
    have hversion : t.version = BitVec.ofNat 6 o.v := by simpa [loaded, h] using hversion
    have hmask : t.mask = BitVec.ofNat 3 o.m := by simpa [loaded, h] using hmask
    refine ⟨false, BitVec.ofNat 5 o.f, ?_⟩
    rw [loaded, h, ← hversion, ← hmask]
    rfl

/-- 40_format_version.md R125: what ENCFV leaves of the state `t` with its operands loaded. -/
def encoded (t : State) : State :=
  { t with
    fmtId := formatId Config.ecl t.mask
    fmtWord := formatWord t.params.g15 (formatId Config.ecl t.mask)
    verWord := versionEntry t.version
    verValid := hasVersionWord t.version
    mem := writeCells t.mem
      (formatWrites (sideOf t.version) (formatWord t.params.g15 (formatId Config.ecl t.mask)) ++
        versionWrites t.version (versionEntry t.version))
    done := true }

theorem encoded_version (t : State) : (encoded t).version = t.version := rfl

theorem encoded_mask (t : State) : (encoded t).mask = t.mask := rfl

/-- 40_format_version.md R125: ENCFV writes VER_VALID and FMT_ID whatever they held. -/
theorem encoded_of_overwritten (t : State) (valid : Bool) (f : BitVec 5) :
    encoded { t with verValid := valid, fmtId := f } = encoded t := by
  simp only [encoded]

theorem exec_encfv_eq_encoded {o : Operands} {s : State} (hs : Ready s) (h1 : 1 ≤ (loaded o s).version.toNat)
    (h40 : (loaded o s).version.toNat ≤ 40) : exec (.encfv o) s = .next (encoded (loaded o s)) := by
  rw [exec_of_ready (i := .encfv o) (t := loaded o s) hs rfl (operandError_of_legal_version h1 h40 nofun) rfl,
    effectOf_latch_encfv, encoded]

theorem encoded_encoded {t : State} (hwf : t.mem.wf = true) (h1 : 1 ≤ t.version.toNat) (h40 : t.version.toNat ≤ 40) :
    encoded (encoded t) = encoded t := by
  simp only [encoded, writeCells_encfv_twice hwf h1 h40]

/-- 40_format_version.md R125: ENCFV issued again, on the state it left. -/
theorem exec_encfv_again {o : Operands} {s t : State} (hs : Ready s) (hwf : s.mem.wf = true)
    (h1 : 1 ≤ (loaded o s).version.toNat) (h40 : (loaded o s).version.toNat ≤ 40)
    (h : exec (.encfv o) s = .next t) : exec (.encfv o) t = .next t := by
  rw [exec_encfv_eq_encoded hs h1 h40] at h
  cases h
  have hready : Ready (encoded (loaded o s)) := ⟨(loadOperands_err s o).trans hs.1, (loadOperands_seq s o).trans hs.2⟩
  obtain ⟨valid, f, hload⟩ := loaded_again (encoded_version (loaded o s)) (encoded_mask (loaded o s))
  have hversion : (loaded o (encoded (loaded o s))).version = (loaded o s).version := by
    rw [hload]
    exact encoded_version _
  rw [exec_encfv_eq_encoded hready (hversion ▸ h1) (hversion ▸ h40), hload, encoded_of_overwritten,
    encoded_encoded ((loaded_mem o s).symm ▸ hwf) h1 h40]

/-- 41_penalty.md R150: a score made again with the same operands stays as it is, the hidden scan apart. -/
theorem scored_scored (l : Latched) (t : State) (p p' : PscWork) :
    scored l (scored l t p) p' = { scored l t p with psc := p' } := by
  let total := penaltyTotal l.rule3Mode (sideOf l.version) (colorAt t.mem)
  have hheld : ¬ ((scored l t p).bestValid = false ∨ total < (scored l t p).bestPenalty.toNat) := by
    have hbest : (scored l t p).bestPenalty =
        if t.bestValid = false ∨ total < t.bestPenalty.toNat then BitVec.ofNat 32 total else t.bestPenalty := rfl
    rw [hbest]
    split
    case isTrue => simpa [scored] using Nat.mod_le total _
    case isFalse hlower =>
      rw [not_or] at hlower
      simpa [scored] using hlower.2
  have hagain : scored l (scored l t p) p' =
      { scored l t p with
        bestPenalty := if (scored l t p).bestValid = false ∨ total < (scored l t p).bestPenalty.toNat then
          BitVec.ofNat 32 total else (scored l t p).bestPenalty
        bestMask := if (scored l t p).bestValid = false ∨ total < (scored l t p).bestPenalty.toNat then
          l.mask else (scored l t p).bestMask
        psc := p' } := rfl
  rw [hagain, if_neg hheld, if_neg hheld]

/-- 30_encoding.md R82: a score writes none of the registers its load writes. -/
theorem loaded_scored (o : Operands) (l : Latched) (s : State) (p : PscWork) :
    loaded o (scored l (loaded o s) p) = scored l (loaded o s) p := by
  unfold loaded
  cases o.load <;> rfl

/-- Settles O31: the second time, every cell and every register is written with what it holds. -/
theorem repeatingACommandChangesNothing : Obligations.RepeatingACommandChangesNothing := by
  intro o s t hs hwf h1 h40
  refine ⟨exec_encfv_again hs hwf h1 h40, fun h => ?_⟩
  obtain ⟨p, hp⟩ := exec_score hs rfl h1 h40
  rw [hp] at h
  cases h
  have hready : Ready (scored (latch (.score o) (loaded o s)) (loaded o s) p) :=
    ⟨(loadOperands_err s o).trans hs.1, (loadOperands_seq s o).trans hs.2⟩
  obtain ⟨p', hp'⟩ := exec_score (o := o) hready (loaded_scored o _ s p) h1 h40
  exact ⟨p', hp'.trans (congrArg Host.Outcome.next (scored_scored _ (loaded o s) p p'))⟩

/-! ## The word a VWRITE writes -/

/-- 40_format_version.md R124: a VWRITE that raises no error writes the present version's word. -/
theorem verWord_of_exec_vwrite {s t : State} (hinv : Inv s) (hs : Ready s) (h7 : 7 ≤ s.version.toNat)
    (h : exec (.vwrite .plain) s = .next t) (herr : t.err = false) : s.verWord = versionWord s.version := by
  cases hvalid : s.verValid with
  | true =>
    obtain ⟨-, -, hword⟩ := hinv.versionWord hvalid
    exact hword
  | false =>
    have hraises (code : ErrorCode) (he : exec (.vwrite .plain) s =
        .next (withError code (encode (.vwrite .plain)) s)) : t.err = true := by
      rw [h] at he
      cases he
      rfl
    have hfails : t.err = true := by
      rcases Nat.lt_or_ge 40 s.version.toNat with h40 | h40
      · exact hraises _ (exec_of_bad_version (i := .vwrite .plain) hs rfl (.inr h40))
      · exact hraises _ (exec_vwrite_of_no_word (o := .plain) hs h7 h40 hvalid)
    rw [herr] at hfails
    cases hfails

/-- 40_format_version.md R122, R124: after a VCALC for a legal version, VWRITE raises no error. -/
theorem exec_vwrite_after_vcalc {s : State} (hs : Ready s) (h1 : 1 ≤ s.version.toNat) (h40 : s.version.toNat ≤ 40) :
    ∃ u, exec (.vcalc .plain) s = .next u ∧ ∃ u', exec (.vwrite .plain) u = .next u' ∧ u'.err = false :=
  ⟨_, exec_vcalc (o := .plain) hs h1 h40, _,
    exec_vwrite (o := .plain) hs h1 h40 fun h7 => decide_eq_true h7, hs.1⟩

/-- Settles O32: by the invariant, by the load's clear of VER_VALID, and by VERSION's. -/
theorem vwriteWritesOnlyThePresentVersionsWord : Obligations.VwriteWritesOnlyThePresentVersionsWord := by
  intro o s hinv hs
  refine ⟨fun h7 ⟨t, ht, herr⟩ => verWord_of_exec_vwrite hinv hs h7 ht herr, fun hload h7 h40 => ?_, fun v h7 h40 => ?_⟩
  · exact exec_vwrite_of_no_word hs h7 h40 (by rw [← loadOperands_eq_loaded, loadOperands_verValid, if_pos hload])
  · have hwrite : writeRegister .version v s = storeVersion (v.extractLsb' 0 6) s := writeWhenIdle_of_idle hs.2 _ _
    have hready : Ready (storeVersion (v.extractLsb' 0 6) s) := hs
    rw [hwrite]
    exact ⟨exec_vwrite_of_no_word (o := .plain) hready h7 h40 rfl,
      exec_vwrite_after_vcalc hready (Nat.le_of_lt (Nat.lt_of_lt_of_le (by decide) h7)) h40⟩

end Sys2Proof.Machine
end

section
/-! PROOF. The word tables, and the division over GF(2) that fills them (40_format_version.md R103 to R108). -/

namespace Sys2Proof.Machine

open Sys2Proof.Spec

/-- Settles O33: a fixed table of 32 words, evaluated. -/
theorem formatTableIsTheSpecs : Obligations.FormatTableIsTheSpecs := ⟨by decide, by decide, rfl⟩

/-- Settles O34: a fixed table of 34 words, evaluated. -/
theorem versionTableIsTheSpecs : Obligations.VersionTableIsTheSpecs := by
  unfold Obligations.VersionTableIsTheSpecs
  decide

/-! ## Polynomials over GF(2)

A bit vector is a polynomial, its bit `i` the coefficient of `x^i`; `^^^` is the sum and `<<< i` the product by `x^i`. -/

variable {w : Nat}

/-- The degree of the polynomial is below `n`. -/
def DegreeBelow (n : Nat) (p : BitVec w) : Prop := ∀ i, n ≤ i → p.getLsbD i = false

theorem degreeBelow_iff {n : Nat} {p : BitVec w} : DegreeBelow n p ↔ p.toNat < 2 ^ n := by
  constructor
  · intro h
    exact Nat.lt_pow_two_of_testBit _ fun i hi => h i hi
  · intro h i hi
    exact Nat.testBit_lt_two_pow (Nat.lt_of_lt_of_le h (Nat.pow_le_pow_right Nat.zero_lt_two hi))

theorem DegreeBelow.mono {n m : Nat} {p : BitVec w} (h : DegreeBelow n p) (hnm : n ≤ m) : DegreeBelow m p :=
  fun i hi => h i (Nat.le_trans hnm hi)

theorem DegreeBelow.xor {n : Nat} {p q : BitVec w} (hp : DegreeBelow n p) (hq : DegreeBelow n q) :
    DegreeBelow n (p ^^^ q) := fun i hi => by rw [BitVec.getLsbD_xor, hp i hi, hq i hi]; rfl

theorem DegreeBelow.shiftLeft {n : Nat} {p : BitVec w} (h : DegreeBelow n p) (k : Nat) :
    DegreeBelow (n + k) (p <<< k) := fun i hi => by
  rw [BitVec.getLsbD_shiftLeft, h (i - k) (Nat.le_sub_of_add_le hi), Bool.and_false]

/-- Without its leading coefficient, the degree is lower. -/
theorem DegreeBelow.of_succ {n : Nat} {p : BitVec w} (h : DegreeBelow (n + 1) p) (hn : p.getLsbD n = false) :
    DegreeBelow n p := fun i hi => by
  rcases Nat.eq_or_lt_of_le hi with rfl | hi
  · exact hn
  · exact h i hi

theorem getLsbD_shiftLeft_leading {d k : Nat} {g : BitVec w} (hg : g.getLsbD d = true) (hk : d + k < w) :
    (g <<< k).getLsbD (d + k) = true := by
  simp [hk, hg]

/-- Over GF(2), a term changes its side of an equation. -/
theorem xor_eq_xor_of_xor_eq_xor {p q r r' : BitVec w} (h : p ^^^ r = q ^^^ r') : p ^^^ q = r ^^^ r' :=
  calc p ^^^ q = p ^^^ r ^^^ r ^^^ q := by rw [BitVec.xor_assoc p, BitVec.xor_self, BitVec.xor_zero]
    _ = q ^^^ r' ^^^ r ^^^ q := by rw [h]
    _ = r ^^^ r' ^^^ (q ^^^ q) := by ac_rfl
    _ = r ^^^ r' := by rw [BitVec.xor_self, BitVec.xor_zero]

/-- The product over GF(2) of `g` and the polynomial of the coefficients `q 0` to `q (k - 1)`. -/
def product (g : BitVec w) (q : Nat → Bool) (k : Nat) : BitVec w :=
  (List.range k).foldl (fun acc i => if q i then acc ^^^ (g <<< i) else acc) 0

theorem formatProduct_eq_product (q : BitVec 5) (g : BitVec 11) :
    formatProduct q g = product (g.setWidth 15) q.getLsbD 5 := rfl

theorem versionProduct_eq_product (q : BitVec 6) :
    versionProduct q = product (Config.g18.setWidth 18) q.getLsbD 6 := rfl

theorem product_succ (g : BitVec w) (q : Nat → Bool) (k : Nat) :
    product g q (k + 1) = if q k then product g q k ^^^ (g <<< k) else product g q k := by
  rw [product, List.range_succ, List.foldl_append]
  rfl

theorem product_congr (g : BitVec w) {q q' : Nat → Bool} {k : Nat} (h : ∀ i < k, q i = q' i) :
    product g q k = product g q' k := by
  induction k with
  | zero => rfl
  | succ k ih => rw [product_succ, product_succ, h k k.lt_succ_self, ih fun i hi => h i (Nat.lt_succ_of_lt hi)]

/-- Multiplication distributes over the sum of two quotients. -/
theorem product_xor_product (g : BitVec w) (q q' : Nat → Bool) (k : Nat) :
    product g q k ^^^ product g q' k = product g (fun i => q i ^^ q' i) k := by
  induction k with
  | zero => exact BitVec.xor_self
  | succ k ih =>
    simp only [product_succ, ← ih]
    cases q k <;> cases q' k <;> grind

/-- The quotient of `k` coefficients that a word of `k` bits holds. -/
theorem product_ofFnLE (g : BitVec w) (q : Nat → Bool) (k : Nat) :
    product g (BitVec.ofFnLE fun i : Fin k => q i).getLsbD k = product g q k :=
  product_congr g fun i hi => by rw [BitVec.getLsbD_ofFnLE, dif_pos hi]

/-! ## The division loop -/

/-- R103, R107: one step of the division by a generator of degree `d`. -/
def divStep (d : Nat) (g r : BitVec w) (k : Nat) : BitVec w := if r.getLsbD (d + k) then r ^^^ (g <<< k) else r

/-- R103, R107: the division loop, from `x^(d + k - 1)` down to `x^d`. -/
def divLoop (d : Nat) (g : BitVec w) : Nat → BitVec w → BitVec w
  | 0, r => r
  | k + 1, r => divLoop d g k (divStep d g r k)

theorem formatRemainder_eq_divLoop (g : BitVec 11) (fid : BitVec 5) :
    formatRemainder g fid = divLoop 10 (g.setWidth 15) 5 (fid.setWidth 15 <<< 10) := rfl

theorem versionRemainder_eq_divLoop (v : BitVec 6) :
    versionRemainder v = divLoop 12 (Config.g18.setWidth 18) 6 (v.setWidth 18 <<< 12) := rfl

section Generator

variable {d : Nat} {g : BitVec w} (hdeg : DegreeBelow (d + 1) g) (hlead : g.getLsbD d = true)
include hdeg

theorem product_degreeBelow (q : Nat → Bool) (k : Nat) : DegreeBelow (d + k) (product g q k) := by
  induction k with
  | zero => exact fun i _ => BitVec.getLsbD_zero
  | succ k ih =>
    have ih := ih.mono (Nat.le_succ (d + k))
    rw [product_succ]
    split
    · exact ih.xor ((hdeg.shiftLeft k).mono (by omega))
    · exact ih

include hlead

/-- One step of the division takes the leading coefficient away. -/
theorem divStep_degreeBelow {k : Nat} (hk : d + k < w) {r : BitVec w} (hr : DegreeBelow (d + k + 1) r) :
    DegreeBelow (d + k) (divStep d g r k) := by
  rw [divStep]
  split
  case isTrue hbit =>
    refine (hr.xor ((hdeg.shiftLeft k).mono (by omega))).of_succ ?_
    rw [BitVec.getLsbD_xor, hbit, getLsbD_shiftLeft_leading hlead hk]
    rfl
  case isFalse hbit => exact hr.of_succ (eq_false_of_ne_true hbit)

theorem divLoop_degreeBelow {k : Nat} (hk : d + k ≤ w) {r : BitVec w} (hr : DegreeBelow (d + k) r) :
    DegreeBelow d (divLoop d g k r) := by
  induction k generalizing r with
  | zero => exact hr
  | succ k ih => exact ih (Nat.le_of_succ_le hk) (divStep_degreeBelow hdeg hlead hk hr)

/-- A multiple of the generator of a lower degree than the generator is 0. -/
theorem product_eq_zero {q : Nat → Bool} {k : Nat} (hk : d + k ≤ w) (h : DegreeBelow d (product g q k)) :
    product g q k = 0 := by
  induction k with
  | zero => rfl
  | succ k ih =>
    rw [product_succ] at h ⊢
    split at h
    case isTrue =>
      have htop := h (d + k) (Nat.le_add_right d k)
      rw [BitVec.getLsbD_xor, product_degreeBelow hdeg q k (d + k) (Nat.le_refl _),
        getLsbD_shiftLeft_leading hlead hk] at htop
      cases htop
    case isFalse hq =>
      rw [if_neg hq]
      exact ih (Nat.le_of_succ_le hk) h

/-- The remainder of a division is unique. -/
theorem remainder_unique {q q' : Nat → Bool} {r r' : BitVec w} {k : Nat} (hk : d + k ≤ w) (hr : DegreeBelow d r)
    (hr' : DegreeBelow d r') (h : product g q k ^^^ r = product g q' k ^^^ r') : r = r' := by
  have hsum : product g (fun i => q i ^^ q' i) k = r ^^^ r' := by
    rw [← product_xor_product]
    exact xor_eq_xor_of_xor_eq_xor h
  have hzero := product_eq_zero hdeg hlead hk (hsum ▸ hr.xor hr')
  rw [hsum] at hzero
  exact BitVec.xor_eq_zero_iff.mp hzero

end Generator

/-- The division loop takes multiples of the generator away. -/
theorem exists_product_xor_divLoop (d : Nat) (g r : BitVec w) (k : Nat) :
    ∃ q, r = product g q k ^^^ divLoop d g k r := by
  induction k generalizing r with
  | zero => exact ⟨fun _ => false, (BitVec.zero_xor).symm⟩
  | succ k ih =>
    obtain ⟨q, hq⟩ := ih (divStep d g r k)
    refine ⟨Function.update q k (r.getLsbD (d + k)), ?_⟩
    have hlow : product g (Function.update q k (r.getLsbD (d + k))) k = product g q k :=
      product_congr g fun i hi => Function.update_of_ne (Nat.ne_of_lt hi) _ _
    rw [product_succ, Function.update_self, hlow, divLoop]
    cases hbit : r.getLsbD (d + k) with
    | false =>
      have hstep : divStep d g r k = r := by rw [divStep, if_neg (ne_true_of_eq_false hbit)]
      rw [if_neg Bool.false_ne_true, ← hq, hstep]
    | true =>
      have hstep : divStep d g r k = r ^^^ (g <<< k) := by rw [divStep, if_pos hbit]
      rw [if_pos rfl, BitVec.xor_assoc, BitVec.xor_comm (g <<< k), ← BitVec.xor_assoc, ← hq, hstep, BitVec.xor_assoc,
        BitVec.xor_self, BitVec.xor_zero]

/-! ## The two remainders -/

/-- 40_format_version.md R100, R103: an id of `k` bits times `x^d` is of a degree below `d + k`. -/
theorem degreeBelow_setWidth_shiftLeft {k : Nat} (x : BitVec k) (d : Nat) :
    DegreeBelow (d + k) (x.setWidth w <<< d) := by
  have hx : DegreeBelow k (x.setWidth w) := fun i hi => by
    rw [BitVec.getLsbD_setWidth, BitVec.getLsbD_of_ge x i hi, Bool.and_false]
  exact (hx.shiftLeft d).mono (Nat.add_comm k d).le

/-- Settles O35: the loop is the division by a generator of degree 10. -/
theorem formatRemainderIsThePolynomialRemainder : Obligations.FormatRemainderIsThePolynomialRemainder := by
  intro g fid hg
  have hdeg : DegreeBelow (10 + 1) (g.setWidth 15) := fun i hi => by
    rw [BitVec.getLsbD_setWidth, BitVec.getLsbD_of_ge g i hi, Bool.and_false]
  have hlead : (g.setWidth 15).getLsbD 10 = true := by rw [BitVec.getLsbD_setWidth, hg]; rfl
  have hrem : DegreeBelow 10 (formatRemainder g fid) :=
    divLoop_degreeBelow hdeg hlead (Nat.le_refl 15) (degreeBelow_setWidth_shiftLeft fid 10)
  obtain ⟨q, hq⟩ := exists_product_xor_divLoop 10 (g.setWidth 15) (fid.setWidth 15 <<< 10) 5
  rw [← formatRemainder_eq_divLoop] at hq
  refine ⟨degreeBelow_iff.mp hrem, ⟨BitVec.ofFnLE fun i => q i, ?_⟩, fun q' r hr h => ?_⟩
  · rw [formatProduct_eq_product, product_ofFnLE, ← hq]
  · exact remainder_unique hdeg hlead (Nat.le_refl 15) (degreeBelow_iff.mpr hr) hrem (h.symm.trans hq)

/-- 40_format_version.md R102, R107: the version word is the version above its remainder. -/
theorem toNat_versionWord {v : BitVec 6} (h : (versionRemainder v).toNat < 2 ^ 12) :
    (versionWord v).toNat = v.toNat * 2 ^ 12 + (versionRemainder v).toNat := by
  have hv : (v.setWidth 18 <<< 12).toNat = v.toNat <<< 12 := by
    have := v.isLt
    simp only [BitVec.toNat_shiftLeft, BitVec.toNat_setWidth, Nat.shiftLeft_eq]
    omega
  rw [versionWord, BitVec.toNat_or, hv, ← Nat.shiftLeft_add_eq_or_of_lt h, Nat.shiftLeft_eq]

/-- Settles O36: the loop is the division by 0x1F25, of degree 12. -/
theorem versionRemainderIsThePolynomialRemainder : Obligations.VersionRemainderIsThePolynomialRemainder := by
  intro v
  have hdeg : DegreeBelow (12 + 1) (Config.g18.setWidth 18) := degreeBelow_iff.mpr (by decide)
  have hlead : (Config.g18.setWidth 18).getLsbD 12 = true := by decide
  have hrem : DegreeBelow 12 (versionRemainder v) :=
    divLoop_degreeBelow hdeg hlead (Nat.le_refl 18) (degreeBelow_setWidth_shiftLeft v 12)
  obtain ⟨q, hq⟩ := exists_product_xor_divLoop 12 (Config.g18.setWidth 18) (v.setWidth 18 <<< 12) 6
  rw [← versionRemainder_eq_divLoop] at hq
  have hlt := degreeBelow_iff.mp hrem
  refine ⟨hlt, toNat_versionWord hlt, ⟨BitVec.ofFnLE fun i => q i, ?_⟩, fun q' r hr h => ?_⟩
  · rw [versionProduct_eq_product, product_ofFnLE, ← hq]
  · exact remainder_unique hdeg hlead (Nat.le_refl 18) (degreeBelow_iff.mpr hr) hrem (h.symm.trans hq)

end Sys2Proof.Machine
end
